-- ==== Sys2Proof/Word.lean ====
section
/-! DEFINITION. The plain value types of the sim8086 core: bytes, words, text (00_scope.md R10, R11). -/

namespace Sys2Proof

/-- An 8-bit value (R10). -/
abbrev Byte := BitVec 8

/-- A 16-bit value (R10). -/
abbrev Word := BitVec 16

/-- Text, as the listing holds it (10_state.md R50): a list of characters (log entry 10). -/
abbrev Text := List Char

end Sys2Proof
end

