-- ==== Sys2Proof/Config.lean ====
section
/-! DEFINITION. The constants of the hardware (00_scope.md R9). The Boolean parameters of R9 are inputs of a run
and stand in `Machine.Inputs`. The model has no free value: 93_implementation_defined.md says that no behaviour
of this hardware is `any value`. -/

namespace Sys2Proof.Config

/-- `MEM_SIZE`: the number of bytes of the Memory Bank (R9, 10_state.md R47). -/
def memSize : Nat := 1048576

/-- The size of the effective-address window 0 to 0xFFFF (R9, 20_memory.md R78). -/
def windowSize : Nat := 0x10000

/-- `SKIP_STRIDE` (R9, 45_engine_and_listing.md R312). -/
def skipStride : Nat := 2

/-- What a Memory Bank byte that nothing has written reads as: its reset value (10_state.md R47). -/
def resetByte : Byte := 0

/-- The listing's header line and blank line (45_engine_and_listing.md R305). -/
def header : Text := "bits 16\n\n".toList

/-- The most bytes an instruction has (30_encoding.md R118). -/
def maxLength : Nat := 6

end Sys2Proof.Config
end

