-- ==== Sys2Proof/Syntax.lean ====
section
/-! DEFINITION. The instructions of the sim8086 core as data: registers, operand forms, and `Instr`, one constructor
per row of spec/opcode_table.json. -/

namespace Sys2Proof

/-- The eight 16-bit general registers (10_state.md R31). -/
inductive Reg16
  | ax | cx | dx | bx | sp | bp | si | di
  deriving DecidableEq, Repr

/-- The eight 8-bit views of AX, BX, CX and DX (10_state.md R33). -/
inductive Reg8
  | al | cl | dl | bl | ah | ch | dh | bh
  deriving DecidableEq, Repr

/-- The base and index combinations of a memory operand (30_encoding.md R105). -/
inductive BaseIndex
  | bxSi | bxDi | bpSi | bpDi | si | di | bp | bx
  deriving DecidableEq, Repr

/-- A memory operand by its addressing mode (30_encoding.md R104): no displacement (mod 00), direct address
(mod 00 with rm 110), signed byte displacement (mod 01), signed word displacement (mod 10). -/
inductive MemOp
  | plain  (b : BaseIndex)
  | direct (a : Word)
  | disp8  (b : BaseIndex) (d : Byte)
  | disp16 (b : BaseIndex) (d : Word)
  deriving DecidableEq, Repr

/-- The r/m operand (30_encoding.md R104, R111): a register of the operand's own width (mod 11), or memory. The
register type `ρ` is `Reg8` or `Reg16`, so that a write of the wrong width cannot be written down (10_state.md R35). -/
inductive RM (ρ : Type)
  | reg (r : ρ)
  | mem (m : MemOp)
  deriving DecidableEq, Repr

/-- The arithmetic operations of the subset (30_encoding.md R101, field ooo). -/
inductive AluOp
  | add | sub | cmp
  deriving DecidableEq, Repr

/-- The conditional jumps and loop-class branches (30_encoding.md R140). -/
inductive BranchOp
  | jo | jno | jb | jnb | je | jne | jbe | ja | js | jns | jp | jnp | jl | jnl | jle | jg
  | loopnz | loopz | loop | jcxz
  deriving DecidableEq, Repr

/-- The instructions, in the order of spec/opcode_table.json. -/
inductive Instr
  /-- MOV r/m8, r8 (0x88, R201). -/
  | movRm8R8 (dst : RM Reg8) (src : Reg8)
  /-- MOV r/m16, r16 (0x89, R202). -/
  | movRm16R16 (dst : RM Reg16) (src : Reg16)
  /-- MOV r8, r/m8 (0x8A, R203). -/
  | movR8Rm8 (dst : Reg8) (src : RM Reg8)
  /-- MOV r16, r/m16 (0x8B, R204). -/
  | movR16Rm16 (dst : Reg16) (src : RM Reg16)
  /-- MOV r/m8, imm8 (0xC6 /0, R205). -/
  | movRm8Imm8 (dst : RM Reg8) (imm : Byte)
  /-- MOV r/m16, imm16 (0xC7 /0, R206). -/
  | movRm16Imm16 (dst : RM Reg16) (imm : Word)
  /-- MOV r8, imm8 (0xB0 to 0xB7, R207). -/
  | movR8Imm8 (dst : Reg8) (imm : Byte)
  /-- MOV r16, imm16 (0xB8 to 0xBF, R208). -/
  | movR16Imm16 (dst : Reg16) (imm : Word)
  /-- ADD r/m8, r8 (0x00, R230). -/
  | addRm8R8 (dst : RM Reg8) (src : Reg8)
  /-- ADD r/m16, r16 (0x01, R231). -/
  | addRm16R16 (dst : RM Reg16) (src : Reg16)
  /-- ADD r8, r/m8 (0x02, R232). -/
  | addR8Rm8 (dst : Reg8) (src : RM Reg8)
  /-- ADD r16, r/m16 (0x03, R233). -/
  | addR16Rm16 (dst : Reg16) (src : RM Reg16)
  /-- ADD AL, imm8 (0x04, R234). -/
  | addAlImm8 (imm : Byte)
  /-- ADD AX, imm16 (0x05, R235). -/
  | addAxImm16 (imm : Word)
  /-- ADD r/m8, imm8 (0x80 /0, R236). -/
  | addRm8Imm8 (dst : RM Reg8) (imm : Byte)
  /-- ADD r/m16, imm16 (0x81 /0, R237). -/
  | addRm16Imm16 (dst : RM Reg16) (imm : Word)
  /-- ADD r/m8, imm8 (0x82 /0, R238). -/
  | addRm8Imm8S (dst : RM Reg8) (imm : Byte)
  /-- ADD r/m16, sign-extended imm8 (0x83 /0, R239). -/
  | addRm16SImm8 (dst : RM Reg16) (imm : Byte)
  /-- SUB r/m8, r8 (0x28, R240). -/
  | subRm8R8 (dst : RM Reg8) (src : Reg8)
  /-- SUB r/m16, r16 (0x29, R241). -/
  | subRm16R16 (dst : RM Reg16) (src : Reg16)
  /-- SUB r8, r/m8 (0x2A, R242). -/
  | subR8Rm8 (dst : Reg8) (src : RM Reg8)
  /-- SUB r16, r/m16 (0x2B, R243). -/
  | subR16Rm16 (dst : Reg16) (src : RM Reg16)
  /-- SUB AL, imm8 (0x2C, R244). -/
  | subAlImm8 (imm : Byte)
  /-- SUB AX, imm16 (0x2D, R245). -/
  | subAxImm16 (imm : Word)
  /-- SUB r/m8, imm8 (0x80 /5, R246). -/
  | subRm8Imm8 (dst : RM Reg8) (imm : Byte)
  /-- SUB r/m16, imm16 (0x81 /5, R247). -/
  | subRm16Imm16 (dst : RM Reg16) (imm : Word)
  /-- SUB r/m8, imm8 (0x82 /5, R248). -/
  | subRm8Imm8S (dst : RM Reg8) (imm : Byte)
  /-- SUB r/m16, sign-extended imm8 (0x83 /5, R249). -/
  | subRm16SImm8 (dst : RM Reg16) (imm : Byte)
  /-- CMP r/m8, r8 (0x38, R250). -/
  | cmpRm8R8 (dst : RM Reg8) (src : Reg8)
  /-- CMP r/m16, r16 (0x39, R251). -/
  | cmpRm16R16 (dst : RM Reg16) (src : Reg16)
  /-- CMP r8, r/m8 (0x3A, R252). -/
  | cmpR8Rm8 (dst : Reg8) (src : RM Reg8)
  /-- CMP r16, r/m16 (0x3B, R253). -/
  | cmpR16Rm16 (dst : Reg16) (src : RM Reg16)
  /-- CMP AL, imm8 (0x3C, R254). -/
  | cmpAlImm8 (imm : Byte)
  /-- CMP AX, imm16 (0x3D, R255). -/
  | cmpAxImm16 (imm : Word)
  /-- CMP r/m8, imm8 (0x80 /7, R256). -/
  | cmpRm8Imm8 (dst : RM Reg8) (imm : Byte)
  /-- CMP r/m16, imm16 (0x81 /7, R257). -/
  | cmpRm16Imm16 (dst : RM Reg16) (imm : Word)
  /-- CMP r/m8, imm8 (0x82 /7, R258). -/
  | cmpRm8Imm8S (dst : RM Reg8) (imm : Byte)
  /-- CMP r/m16, sign-extended imm8 (0x83 /7, R259). -/
  | cmpRm16SImm8 (dst : RM Reg16) (imm : Byte)
  /-- JO rel8 (0x70, R276). -/
  | jo (disp : Byte)
  /-- JNO rel8 (0x71, R277). -/
  | jno (disp : Byte)
  /-- JB rel8 (0x72, R278). -/
  | jb (disp : Byte)
  /-- JNB rel8 (0x73, R279). -/
  | jnb (disp : Byte)
  /-- JE rel8 (0x74, R280). -/
  | je (disp : Byte)
  /-- JNE rel8 (0x75, R281). -/
  | jne (disp : Byte)
  /-- JBE rel8 (0x76, R282). -/
  | jbe (disp : Byte)
  /-- JA rel8 (0x77, R283). -/
  | ja (disp : Byte)
  /-- JS rel8 (0x78, R284). -/
  | js (disp : Byte)
  /-- JNS rel8 (0x79, R285). -/
  | jns (disp : Byte)
  /-- JP rel8 (0x7A, R286). -/
  | jp (disp : Byte)
  /-- JNP rel8 (0x7B, R287). -/
  | jnp (disp : Byte)
  /-- JL rel8 (0x7C, R288). -/
  | jl (disp : Byte)
  /-- JNL rel8 (0x7D, R289). -/
  | jnl (disp : Byte)
  /-- JLE rel8 (0x7E, R290). -/
  | jle (disp : Byte)
  /-- JG rel8 (0x7F, R291). -/
  | jg (disp : Byte)
  /-- LOOPNZ rel8 (0xE0, R292). -/
  | loopnz (disp : Byte)
  /-- LOOPZ rel8 (0xE1, R293). -/
  | loopz (disp : Byte)
  /-- LOOP rel8 (0xE2, R294). -/
  | loop (disp : Byte)
  /-- JCXZ rel8 (0xE3, R295). -/
  | jcxz (disp : Byte)
  deriving DecidableEq, Repr

end Sys2Proof
end

