-- ==== Sys2Proof/WellFormed.lean ====
section
/-! DEFINITION. Which instruction terms have an encoding. The types carry every width; the one thing they admit
beyond the encodings is `[bp]` without a displacement, whose mod/rm code is the direct address's
(30_encoding.md R104, R105: `bp` only with mod 01 or 10). -/

namespace Sys2Proof

/-- A memory operand that an encoding names (30_encoding.md R105, row 110). -/
def MemOp.wf : MemOp → Bool
  | .plain .bp => false
  | _ => true

/-- An r/m operand that an encoding names. -/
def RM.wf {ρ : Type} : RM ρ → Bool
  | .reg _ => true
  | .mem m => m.wf

/-- An instruction that an encoding names: its r/m operand, where it has one, is well formed. -/
def Instr.wf : Instr → Bool
  | .movRm8R8 o _ | .addRm8R8 o _ | .subRm8R8 o _ | .cmpRm8R8 o _ => o.wf
  | .movRm16R16 o _ | .addRm16R16 o _ | .subRm16R16 o _ | .cmpRm16R16 o _ => o.wf
  | .movR8Rm8 _ o | .addR8Rm8 _ o | .subR8Rm8 _ o | .cmpR8Rm8 _ o => o.wf
  | .movR16Rm16 _ o | .addR16Rm16 _ o | .subR16Rm16 _ o | .cmpR16Rm16 _ o => o.wf
  | .movRm8Imm8 o _ | .addRm8Imm8 o _ | .subRm8Imm8 o _ | .cmpRm8Imm8 o _ => o.wf
  | .addRm8Imm8S o _ | .subRm8Imm8S o _ | .cmpRm8Imm8S o _ => o.wf
  | .movRm16Imm16 o _ | .addRm16Imm16 o _ | .subRm16Imm16 o _ | .cmpRm16Imm16 o _ => o.wf
  | .addRm16SImm8 o _ | .subRm16SImm8 o _ | .cmpRm16SImm8 o _ => o.wf
  | .movR8Imm8 _ _ | .addAlImm8 _ | .subAlImm8 _ | .cmpAlImm8 _ => true
  | .movR16Imm16 _ _ | .addAxImm16 _ | .subAxImm16 _ | .cmpAxImm16 _ => true
  | .jo _ | .jno _ | .jb _ | .jnb _ | .je _ | .jne _ | .jbe _ | .ja _ => true
  | .js _ | .jns _ | .jp _ | .jnp _ | .jl _ | .jnl _ | .jle _ | .jg _ => true
  | .loopnz _ | .loopz _ | .loop _ | .jcxz _ => true

end Sys2Proof
end

