-- ==== Sys2Proof/Decode.lean ====
section
/-! DEFINITION. The Opcode Classifier and the Addressing-Mode Resolver (30_encoding.md), total on any bytes, then the
encoder written from the opcode table, the instruction lengths and the table-word decoder. The opcode and register
code values are the spec's passages `[from general knowledge, not in source]` (log entry 11). -/

namespace Sys2Proof

/-! ### Byte order (20_memory.md R71, R72) -/

/-- The 16-bit value whose first (lower-addressed) byte is `lo`. -/
def wordOfBytes (lo hi : Byte) : Word := hi ++ lo

/-- Bits 7:0 of a word, its first byte. -/
def lowByte (v : Word) : Byte := v.extractLsb' 0 8

/-- Bits 15:8 of a word, its second byte. -/
def highByte (v : Word) : Byte := v.extractLsb' 8 8

/-- The two bytes of a word in the order they are stored. -/
def wordBytes (v : Word) : List Byte := [lowByte v, highByte v]

/-! ### Register and addressing codes -/

/-- 10_state.md R32. -/
def Reg16.ofCode (c : BitVec 3) : Reg16 :=
  match c.toNat with
  | 0 => .ax | 1 => .cx | 2 => .dx | 3 => .bx | 4 => .sp | 5 => .bp | 6 => .si | _ => .di

/-- 10_state.md R32, read from the register to its code. -/
def Reg16.code : Reg16 → BitVec 3
  | .ax => 0b000 | .cx => 0b001 | .dx => 0b010 | .bx => 0b011
  | .sp => 0b100 | .bp => 0b101 | .si => 0b110 | .di => 0b111

/-- 10_state.md R33. -/
def Reg8.ofCode (c : BitVec 3) : Reg8 :=
  match c.toNat with
  | 0 => .al | 1 => .cl | 2 => .dl | 3 => .bl | 4 => .ah | 5 => .ch | 6 => .dh | _ => .bh

/-- 10_state.md R33, read from the view to its code. -/
def Reg8.code : Reg8 → BitVec 3
  | .al => 0b000 | .cl => 0b001 | .dl => 0b010 | .bl => 0b011
  | .ah => 0b100 | .ch => 0b101 | .dh => 0b110 | .bh => 0b111

/-- The rm column of 30_encoding.md R105. -/
def BaseIndex.ofCode (c : BitVec 3) : BaseIndex :=
  match c.toNat with
  | 0 => .bxSi | 1 => .bxDi | 2 => .bpSi | 3 => .bpDi | 4 => .si | 5 => .di | 6 => .bp | _ => .bx

/-- The rm column of 30_encoding.md R105, read from the combination to its code. -/
def BaseIndex.code : BaseIndex → BitVec 3
  | .bxSi => 0b000 | .bxDi => 0b001 | .bpSi => 0b010 | .bpDi => 0b011
  | .si => 0b100 | .di => 0b101 | .bp => 0b110 | .bx => 0b111

/-- The operation field ooo (30_encoding.md R101); the other five values are not in scope (R114). -/
def AluOp.ofCode (c : BitVec 3) : Option AluOp :=
  if c = 0b000 then some .add else if c = 0b101 then some .sub else if c = 0b111 then some .cmp else none

/-- 30_encoding.md R101, read from the operation to its code. -/
def AluOp.code : AluOp → BitVec 3
  | .add => 0b000 | .sub => 0b101 | .cmp => 0b111

/-! ### The ModRM byte (30_encoding.md R102) -/

/-- Bits 7:6, the mode. -/
def modField (m : Byte) : BitVec 2 := m.extractLsb' 6 2

/-- Bits 5:3, the reg selector. -/
def regField (m : Byte) : BitVec 3 := m.extractLsb' 3 3

/-- Bits 2:0, the r/m selector. -/
def rmField (m : Byte) : BitVec 3 := m.extractLsb' 0 3

/-- The byte with the three fields. -/
def modrmByte (mod : BitVec 2) (reg rm : BitVec 3) : Byte := mod ++ reg ++ rm

/-! ### Fetching -/

/-- The verdicts of the decoder (60_exceptions.md R400, codes 1 and 2). The decoder raises no other fault. -/
inductive DecodeError
  | unrecognizedOpcode
  | truncatedInstruction
  deriving DecidableEq, Repr

/-- `fetch8` (00_scope.md R14) on the bytes left in the buffer. -/
def fetch8 : List Byte → Except DecodeError (Byte × List Byte)
  | b :: rest => .ok (b, rest)
  | [] => .error .truncatedInstruction

/-- `fetch16` (00_scope.md R14): little-endian (20_memory.md R72). -/
def fetch16 : List Byte → Except DecodeError (Word × List Byte)
  | lo :: hi :: rest => .ok (wordOfBytes lo hi, rest)
  | _ => .error .truncatedInstruction

/-! ### The Addressing-Mode Resolver -/

/-- `resolve` of 30_encoding.md R111: the r/m operand that the ModRM byte `m` names, with the bytes left after its
displacement or direct address (R104 to R107). `ofCode` is the register table of the width. -/
def resolve {ρ : Type} (ofCode : BitVec 3 → ρ) (m : Byte) (bs : List Byte) :
    Except DecodeError (RM ρ × List Byte) :=
  if modField m = 0b11 then .ok (.reg (ofCode (rmField m)), bs)
  else if modField m = 0b00 then
    if rmField m = 0b110 then (fetch16 bs).map fun r => (.mem (.direct r.1), r.2)
    else .ok (.mem (.plain (BaseIndex.ofCode (rmField m))), bs)
  else if modField m = 0b01 then
    (fetch8 bs).map fun r => (.mem (.disp8 (BaseIndex.ofCode (rmField m)) r.1), r.2)
  else (fetch16 bs).map fun r => (.mem (.disp16 (BaseIndex.ofCode (rmField m)) r.1), r.2)

/-! ### The Opcode Classifier -/

/-- The patterns P1 to P8 of 30_encoding.md R112 with the fields of the opcode byte (R101). -/
inductive Form
  | branch (op : BranchOp)
  | movRmImm (w : Bool)
  | aluAccImm (op : AluOp) (w : Bool)
  | movRmReg (d w : Bool)
  | aluRmImm (s w : Bool)
  | movRegImm (w : Bool) (r : BitVec 3)
  | aluRmReg (op : AluOp) (d w : Bool)
  deriving DecidableEq, Repr

/-- Full byte equality (30_encoding.md R112, P1 and P2; R140). -/
def BranchOp.ofByte (b : Byte) : Option BranchOp :=
  match b.toNat with
  | 0x70 => some .jo
  | 0x71 => some .jno
  | 0x72 => some .jb
  | 0x73 => some .jnb
  | 0x74 => some .je
  | 0x75 => some .jne
  | 0x76 => some .jbe
  | 0x77 => some .ja
  | 0x78 => some .js
  | 0x79 => some .jns
  | 0x7A => some .jp
  | 0x7B => some .jnp
  | 0x7C => some .jl
  | 0x7D => some .jnl
  | 0x7E => some .jle
  | 0x7F => some .jg
  | 0xE0 => some .loopnz
  | 0xE1 => some .loopz
  | 0xE2 => some .loop
  | 0xE3 => some .jcxz
  | _ => none

/-- The classifier of 30_encoding.md R112, in its priority order: the first pattern that matches the opcode byte, or
none, which is an UnrecognizedOpcode (R115). -/
def classify (b : Byte) : Option Form :=
  match BranchOp.ofByte b with
  | some op => some (.branch op)
  | none =>
    if b.extractLsb' 1 7 = 0b1100011 then some (.movRmImm (b.getLsbD 0))
    else if b.extractLsb' 6 2 = 0b00 ∧ b.extractLsb' 1 2 = 0b10 ∧ (AluOp.ofCode (b.extractLsb' 3 3)).isSome then
      (AluOp.ofCode (b.extractLsb' 3 3)).map fun op => .aluAccImm op (b.getLsbD 0)
    else if b.extractLsb' 2 6 = 0b100010 then some (.movRmReg (b.getLsbD 1) (b.getLsbD 0))
    else if b.extractLsb' 2 6 = 0b100000 then some (.aluRmImm (b.getLsbD 1) (b.getLsbD 0))
    else if b.extractLsb' 4 4 = 0b1011 then some (.movRegImm (b.getLsbD 3) (b.extractLsb' 0 3))
    else if b.extractLsb' 6 2 = 0b00 ∧ b.extractLsb' 2 1 = 0b0 then
      (AluOp.ofCode (b.extractLsb' 3 3)).map fun op => .aluRmReg op (b.getLsbD 1) (b.getLsbD 0)
    else none

/-! ### From a form to an instruction -/

/-- The branch with the displacement byte `d` (30_encoding.md R110). -/
def BranchOp.instr : BranchOp → Byte → Instr
  | .jo, d => .jo d
  | .jno, d => .jno d
  | .jb, d => .jb d
  | .jnb, d => .jnb d
  | .je, d => .je d
  | .jne, d => .jne d
  | .jbe, d => .jbe d
  | .ja, d => .ja d
  | .js, d => .js d
  | .jns, d => .jns d
  | .jp, d => .jp d
  | .jnp, d => .jnp d
  | .jl, d => .jl d
  | .jnl, d => .jnl d
  | .jle, d => .jle d
  | .jg, d => .jg d
  | .loopnz, d => .loopnz d
  | .loopz, d => .loopz d
  | .loop, d => .loop d
  | .jcxz, d => .jcxz d

/-- MOV with an 8-bit register and r/m operand; `d` true makes the register the destination (30_encoding.md R138). -/
def movRmReg8 (d : Bool) (o : RM Reg8) (r : Reg8) : Instr := if d then .movR8Rm8 r o else .movRm8R8 o r

/-- MOV with a 16-bit register and r/m operand (30_encoding.md R138). -/
def movRmReg16 (d : Bool) (o : RM Reg16) (r : Reg16) : Instr := if d then .movR16Rm16 r o else .movRm16R16 o r

/-- ADD, SUB or CMP with an 8-bit register and r/m operand (30_encoding.md R138). -/
def AluOp.rmReg8 (op : AluOp) (d : Bool) (o : RM Reg8) (r : Reg8) : Instr :=
  match op with
  | .add => if d then .addR8Rm8 r o else .addRm8R8 o r
  | .sub => if d then .subR8Rm8 r o else .subRm8R8 o r
  | .cmp => if d then .cmpR8Rm8 r o else .cmpRm8R8 o r

/-- ADD, SUB or CMP with a 16-bit register and r/m operand (30_encoding.md R138). -/
def AluOp.rmReg16 (op : AluOp) (d : Bool) (o : RM Reg16) (r : Reg16) : Instr :=
  match op with
  | .add => if d then .addR16Rm16 r o else .addRm16R16 o r
  | .sub => if d then .subR16Rm16 r o else .subRm16R16 o r
  | .cmp => if d then .cmpR16Rm16 r o else .cmpRm16R16 o r

/-- ADD, SUB or CMP of AL with an immediate (30_encoding.md R119, P4). -/
def AluOp.accImm8 (op : AluOp) (v : Byte) : Instr :=
  match op with
  | .add => .addAlImm8 v | .sub => .subAlImm8 v | .cmp => .cmpAlImm8 v

/-- ADD, SUB or CMP of AX with an immediate (30_encoding.md R119, P4). -/
def AluOp.accImm16 (op : AluOp) (v : Word) : Instr :=
  match op with
  | .add => .addAxImm16 v | .sub => .subAxImm16 v | .cmp => .cmpAxImm16 v

/-- ADD, SUB or CMP of an 8-bit r/m operand with an immediate: opcode 0x80, or 0x82 when `s` (30_encoding.md R108). -/
def AluOp.rmImm8 (op : AluOp) (s : Bool) (o : RM Reg8) (v : Byte) : Instr :=
  match op with
  | .add => if s then .addRm8Imm8S o v else .addRm8Imm8 o v
  | .sub => if s then .subRm8Imm8S o v else .subRm8Imm8 o v
  | .cmp => if s then .cmpRm8Imm8S o v else .cmpRm8Imm8 o v

/-- ADD, SUB or CMP of a 16-bit r/m operand with a word immediate, opcode 0x81. -/
def AluOp.rmImm16 (op : AluOp) (o : RM Reg16) (v : Word) : Instr :=
  match op with
  | .add => .addRm16Imm16 o v | .sub => .subRm16Imm16 o v | .cmp => .cmpRm16Imm16 o v

/-- ADD, SUB or CMP of a 16-bit r/m operand with a sign-extended byte immediate, opcode 0x83 (30_encoding.md R108). -/
def AluOp.rmSImm8 (op : AluOp) (o : RM Reg16) (v : Byte) : Instr :=
  match op with
  | .add => .addRm16SImm8 o v | .sub => .subRm16SImm8 o v | .cmp => .cmpRm16SImm8 o v

/-- Format F-RM after the opcode byte: ModRM, then the displacement (30_encoding.md R119, P5 and P8). -/
def parseRmReg {ρ : Type} (ofCode : BitVec 3 → ρ) (mk : RM ρ → ρ → Instr) (bs : List Byte) :
    Except DecodeError (Instr × List Byte) :=
  match bs with
  | [] => .error .truncatedInstruction
  | m :: t => (resolve ofCode m t).map fun r => (mk r.1 (ofCode (regField m)), r.2)

/-- Format F-IRM after the ModRM byte, with a one-byte immediate (30_encoding.md R119, P3 and P6). -/
def parseRmImm8 {ρ : Type} (ofCode : BitVec 3 → ρ) (mk : RM ρ → Byte → Instr) (m : Byte) (bs : List Byte) :
    Except DecodeError (Instr × List Byte) :=
  match resolve ofCode m bs with
  | .error e => .error e
  | .ok (o, t) => (fetch8 t).map fun r => (mk o r.1, r.2)

/-- Format F-IRM after the ModRM byte, with a two-byte immediate (30_encoding.md R119, P3 and P6). -/
def parseRmImm16 {ρ : Type} (ofCode : BitVec 3 → ρ) (mk : RM ρ → Word → Instr) (m : Byte) (bs : List Byte) :
    Except DecodeError (Instr × List Byte) :=
  match resolve ofCode m bs with
  | .error e => .error e
  | .ok (o, t) => (fetch16 t).map fun r => (mk o r.1, r.2)

/-- The rest of the instruction after an opcode byte of the given form (30_encoding.md R119). The ModRM reg field is
checked before any later byte is fetched (R114, R117). -/
def Form.parse : Form → List Byte → Except DecodeError (Instr × List Byte)
  | .branch op, bs => (fetch8 bs).map fun r => (op.instr r.1, r.2)
  | .movRmImm w, bs =>
    match bs with
    | [] => .error .truncatedInstruction
    | m :: t =>
      if regField m = 0b000 then
        if w then parseRmImm16 Reg16.ofCode .movRm16Imm16 m t else parseRmImm8 Reg8.ofCode .movRm8Imm8 m t
      else .error .unrecognizedOpcode
  | .aluAccImm op w, bs =>
    if w then (fetch16 bs).map fun r => (op.accImm16 r.1, r.2)
    else (fetch8 bs).map fun r => (op.accImm8 r.1, r.2)
  | .movRmReg d w, bs =>
    if w then parseRmReg Reg16.ofCode (movRmReg16 d) bs else parseRmReg Reg8.ofCode (movRmReg8 d) bs
  | .aluRmImm s w, bs =>
    match bs with
    | [] => .error .truncatedInstruction
    | m :: t =>
      match AluOp.ofCode (regField m) with
      | none => .error .unrecognizedOpcode
      | some op =>
        if w then
          if s then parseRmImm8 Reg16.ofCode op.rmSImm8 m t else parseRmImm16 Reg16.ofCode op.rmImm16 m t
        else parseRmImm8 Reg8.ofCode (op.rmImm8 s) m t
  | .movRegImm w r, bs =>
    if w then (fetch16 bs).map fun q => (.movR16Imm16 (Reg16.ofCode r) q.1, q.2)
    else (fetch8 bs).map fun q => (.movR8Imm8 (Reg8.ofCode r) q.1, q.2)
  | .aluRmReg op d w, bs =>
    if w then parseRmReg Reg16.ofCode (op.rmReg16 d) bs else parseRmReg Reg8.ofCode (op.rmReg8 d) bs

/-- `decode` of 30_encoding.md R119 on the bytes from the cursor on: the instruction with the bytes that follow it,
or a verdict. Reading the opcode byte of nothing is a truncation (R116); a step never asks that (log entry 14). -/
def decode : List Byte → Except DecodeError (Instr × List Byte)
  | [] => .error .truncatedInstruction
  | b :: bs =>
    match classify b with
    | none => .error .unrecognizedOpcode
    | some f => f.parse bs

/-! ### Lengths (30_encoding.md R118) -/

/-- The number of displacement or direct-address bytes after the ModRM byte (30_encoding.md R104). -/
def MemOp.dispLen : MemOp → Nat
  | .plain _ => 0
  | .direct _ => 2
  | .disp8 _ _ => 1
  | .disp16 _ _ => 2

/-- `disp(mod, rm)` of 30_encoding.md R118. -/
def RM.dispLen {ρ : Type} : RM ρ → Nat
  | .reg _ => 0
  | .mem m => m.dispLen

/-- The instruction's length L (30_encoding.md R118). -/
def Instr.length : Instr → Nat
  | .movRm8R8 o _ | .addRm8R8 o _ | .subRm8R8 o _ | .cmpRm8R8 o _ => 2 + o.dispLen
  | .movRm16R16 o _ | .addRm16R16 o _ | .subRm16R16 o _ | .cmpRm16R16 o _ => 2 + o.dispLen
  | .movR8Rm8 _ o | .addR8Rm8 _ o | .subR8Rm8 _ o | .cmpR8Rm8 _ o => 2 + o.dispLen
  | .movR16Rm16 _ o | .addR16Rm16 _ o | .subR16Rm16 _ o | .cmpR16Rm16 _ o => 2 + o.dispLen
  | .movRm8Imm8 o _ | .addRm8Imm8 o _ | .subRm8Imm8 o _ | .cmpRm8Imm8 o _ => 2 + o.dispLen + 1
  | .addRm8Imm8S o _ | .subRm8Imm8S o _ | .cmpRm8Imm8S o _ => 2 + o.dispLen + 1
  | .movRm16Imm16 o _ | .addRm16Imm16 o _ | .subRm16Imm16 o _ | .cmpRm16Imm16 o _ => 2 + o.dispLen + 2
  | .addRm16SImm8 o _ | .subRm16SImm8 o _ | .cmpRm16SImm8 o _ => 2 + o.dispLen + 1
  | .movR8Imm8 _ _ | .addAlImm8 _ | .subAlImm8 _ | .cmpAlImm8 _ => 2
  | .movR16Imm16 _ _ | .addAxImm16 _ | .subAxImm16 _ | .cmpAxImm16 _ => 3
  | .jo _ | .jno _ | .jb _ | .jnb _ | .je _ | .jne _ | .jbe _ | .ja _ => 2
  | .js _ | .jns _ | .jp _ | .jnp _ | .jl _ | .jnl _ | .jle _ | .jg _ => 2
  | .loopnz _ | .loopz _ | .loop _ | .jcxz _ => 2

/-! ### The encoder -/

/-- The mode field of a memory operand (30_encoding.md R104). -/
def MemOp.modCode : MemOp → BitVec 2
  | .plain _ => 0b00
  | .direct _ => 0b00
  | .disp8 _ _ => 0b01
  | .disp16 _ _ => 0b10

/-- The r/m field of a memory operand (30_encoding.md R105, R107). -/
def MemOp.rmCode : MemOp → BitVec 3
  | .plain b => b.code
  | .direct _ => 0b110
  | .disp8 b _ => b.code
  | .disp16 b _ => b.code

/-- The displacement or direct-address bytes, in buffer order (30_encoding.md R106, R107). -/
def MemOp.dispBytes : MemOp → List Byte
  | .plain _ => []
  | .direct a => wordBytes a
  | .disp8 _ d => [d]
  | .disp16 _ d => wordBytes d

/-- The ModRM byte of an r/m operand with the reg field `reg` and the displacement bytes after it. -/
def RM.bytes {ρ : Type} (code : ρ → BitVec 3) (reg : BitVec 3) : RM ρ → List Byte
  | .reg r => [modrmByte 0b11 reg (code r)]
  | .mem m => modrmByte m.modCode reg m.rmCode :: m.dispBytes

/-- The bytes of an instruction, from spec/opcode_table.json (30_encoding.md R101, R118). -/
def encode : Instr → List Byte
  | .movRm8R8 o r => 0x88 :: o.bytes Reg8.code r.code
  | .movRm16R16 o r => 0x89 :: o.bytes Reg16.code r.code
  | .movR8Rm8 r o => 0x8A :: o.bytes Reg8.code r.code
  | .movR16Rm16 r o => 0x8B :: o.bytes Reg16.code r.code
  | .movRm8Imm8 o v => 0xC6 :: o.bytes Reg8.code 0b000 ++ [v]
  | .movRm16Imm16 o v => 0xC7 :: o.bytes Reg16.code 0b000 ++ wordBytes v
  | .movR8Imm8 r v => [(0b10110 : BitVec 5) ++ r.code, v]
  | .movR16Imm16 r v => ((0b10111 : BitVec 5) ++ r.code) :: wordBytes v
  | .addRm8R8 o r => 0x00 :: o.bytes Reg8.code r.code
  | .addRm16R16 o r => 0x01 :: o.bytes Reg16.code r.code
  | .addR8Rm8 r o => 0x02 :: o.bytes Reg8.code r.code
  | .addR16Rm16 r o => 0x03 :: o.bytes Reg16.code r.code
  | .addAlImm8 v => [0x04, v]
  | .addAxImm16 v => 0x05 :: wordBytes v
  | .addRm8Imm8 o v => 0x80 :: o.bytes Reg8.code 0b000 ++ [v]
  | .addRm16Imm16 o v => 0x81 :: o.bytes Reg16.code 0b000 ++ wordBytes v
  | .addRm8Imm8S o v => 0x82 :: o.bytes Reg8.code 0b000 ++ [v]
  | .addRm16SImm8 o v => 0x83 :: o.bytes Reg16.code 0b000 ++ [v]
  | .subRm8R8 o r => 0x28 :: o.bytes Reg8.code r.code
  | .subRm16R16 o r => 0x29 :: o.bytes Reg16.code r.code
  | .subR8Rm8 r o => 0x2A :: o.bytes Reg8.code r.code
  | .subR16Rm16 r o => 0x2B :: o.bytes Reg16.code r.code
  | .subAlImm8 v => [0x2C, v]
  | .subAxImm16 v => 0x2D :: wordBytes v
  | .subRm8Imm8 o v => 0x80 :: o.bytes Reg8.code 0b101 ++ [v]
  | .subRm16Imm16 o v => 0x81 :: o.bytes Reg16.code 0b101 ++ wordBytes v
  | .subRm8Imm8S o v => 0x82 :: o.bytes Reg8.code 0b101 ++ [v]
  | .subRm16SImm8 o v => 0x83 :: o.bytes Reg16.code 0b101 ++ [v]
  | .cmpRm8R8 o r => 0x38 :: o.bytes Reg8.code r.code
  | .cmpRm16R16 o r => 0x39 :: o.bytes Reg16.code r.code
  | .cmpR8Rm8 r o => 0x3A :: o.bytes Reg8.code r.code
  | .cmpR16Rm16 r o => 0x3B :: o.bytes Reg16.code r.code
  | .cmpAlImm8 v => [0x3C, v]
  | .cmpAxImm16 v => 0x3D :: wordBytes v
  | .cmpRm8Imm8 o v => 0x80 :: o.bytes Reg8.code 0b111 ++ [v]
  | .cmpRm16Imm16 o v => 0x81 :: o.bytes Reg16.code 0b111 ++ wordBytes v
  | .cmpRm8Imm8S o v => 0x82 :: o.bytes Reg8.code 0b111 ++ [v]
  | .cmpRm16SImm8 o v => 0x83 :: o.bytes Reg16.code 0b111 ++ [v]
  | .jo d => [0x70, d]
  | .jno d => [0x71, d]
  | .jb d => [0x72, d]
  | .jnb d => [0x73, d]
  | .je d => [0x74, d]
  | .jne d => [0x75, d]
  | .jbe d => [0x76, d]
  | .ja d => [0x77, d]
  | .js d => [0x78, d]
  | .jns d => [0x79, d]
  | .jp d => [0x7A, d]
  | .jnp d => [0x7B, d]
  | .jl d => [0x7C, d]
  | .jnl d => [0x7D, d]
  | .jle d => [0x7E, d]
  | .jg d => [0x7F, d]
  | .loopnz d => [0xE0, d]
  | .loopz d => [0xE1, d]
  | .loop d => [0xE2, d]
  | .jcxz d => [0xE3, d]

/-! ### Words numbered as the opcode table numbers them -/

/-- The bytes of a table word: bit 0 is the least significant bit of the first byte, a later byte's bits count on from
it, and every bit above `nbits` is 0, up to the longest instruction (log entry 9). -/
def tableBytes (nbits w : Nat) : List Byte :=
  (List.range Config.maxLength).map fun k => BitVec.ofNat 8 ((w % 2 ^ nbits) >>> (8 * k))

/-- The instruction the decoder reads from a table word, none where it raises a verdict. -/
def decodeTableWord (nbits w : Nat) : Option Instr :=
  match decode (tableBytes nbits w) with
  | .ok (i, _) => some i
  | .error _ => none

end Sys2Proof
end

