-- ==== Sys2Proof/Machine/State.lean ====
section
/-! DEFINITION. The machine's state as plain data (10_state.md), the reasons a step can stop, and reset. -/

namespace Sys2Proof.Machine

/-- The Register File (10_state.md R31). The 8-bit views are halves of these words (R34), not storage of their own. -/
structure Regs where
  ax : Word
  bx : Word
  cx : Word
  dx : Word
  sp : Word
  bp : Word
  si : Word
  di : Word
  deriving DecidableEq, Repr

/-- The Memory Bank (10_state.md R47): its bytes that are not `Config.resetByte`, by rising address. -/
abbrev Memory := List Host.Cell

/-- The canonical form of a Memory Bank: addresses strictly rise, and no listed byte is what an unlisted one reads
as, so that equal memories are equal data (log entry 6). -/
abbrev Memory.wf (m : Memory) : Prop :=
  m.Pairwise (fun c d => c.1 < d.1) ∧ ∀ c ∈ m, c.2 ≠ Config.resetByte

/-- The fault kinds of 60_exceptions.md R400 that an input can cause, by their codes 1 to 4. The internal-invariant
kinds have no constructor (R405, R406). -/
inductive FaultKind
  | unrecognizedOpcode
  | truncatedInstruction
  | addressOutOfRange
  | branchTargetOutOfRange
  deriving DecidableEq, Repr

/-- The run status (10_state.md R50): running, ended normally, or ended by a fault of the given kind at the given
offset. -/
inductive Status
  | running
  | done
  | fault (kind : FaultKind) (offset : Nat)
  deriving DecidableEq, Repr

/-- The fixed inputs of a run (10_state.md R30, R43, R48; 00_scope.md R9). No step writes any of them (log entry 3). -/
structure Inputs where
  /-- The input buffer `Buf`; its length is `N`. -/
  buf : List Byte
  /-- `EXECUTE`: false is decode-only mode. -/
  execute : Bool
  /-- `DUMP`: the host persists the final Memory Bank. -/
  dump : Bool
  /-- `SKIP_UNRECOGNIZED`. -/
  skipUnrecognized : Bool
  /-- `ZF_RESET`. -/
  zfReset : Bool
  deriving DecidableEq, Repr

/-- The whole state of the machine (10_state.md R30), with the fixed inputs of its run. -/
structure State where
  /-- The eight general registers. -/
  regs : Regs
  /-- The Zero Flag (R40). -/
  zf : Bool
  /-- The Memory Bank. -/
  mem : Memory
  /-- The cursor (R45): unbounded, it does not wrap. -/
  ip : Nat
  /-- The listing (R50). -/
  listing : Text
  /-- The run status (R50). -/
  status : Status
  /-- The inputs of the run. -/
  inputs : Inputs
  deriving DecidableEq, Repr

/-- Why a step stops without a next state. The faults of the hardware are no such stop: their entry is a next state
whose status is the fault (60_exceptions.md R407, log entry 5). -/
inductive Fault
  /-- Raised by `step`, and by it alone, in a state whose run has ended, with that status: 45_engine_and_listing.md
  R301 gives a step only from status Running, and a faulted state "is final" (60_exceptions.md R407). Safe: the
  hardware does nothing there (log entry 4). -/
  | runEnded (status : Status)
  deriving DecidableEq, Repr

/-- Why an instruction has no meaning in the model. -/
inductive Refusal
  /-- Raised by an arm of `exec` whose instruction has no meaning yet. No arm raises it: every row of the opcode table
  has its meaning. Safe. -/
  | notModelled (mnemonic : String)
  deriving DecidableEq, Repr

/-- The Register File at reset: every register zero (10_state.md R39). -/
def Regs.reset : Regs := ⟨0, 0, 0, 0, 0, 0, 0, 0⟩

/-- Engine construction for a run with the given inputs (70_reset_and_hazards.md R450, 10_state.md R51). -/
def State.resetWith (inputs : Inputs) : State where
  regs := .reset
  zf := inputs.zfReset
  mem := []
  ip := 0
  listing := Config.header
  status := .running
  inputs := inputs

/-- The inputs of `State.reset`: the parameters at their defaults (00_scope.md R9), an empty buffer, execute mode and
no dump. The last three are DESIGN CHOICES, since the spec gives these inputs no default (log entries 1 and 2). -/
def Inputs.reset : Inputs where
  buf := []
  execute := true
  dump := false
  skipUnrecognized := false
  zfReset := false

/-- The machine right after reset, with the inputs above. -/
def State.reset : State := .resetWith .reset

end Sys2Proof.Machine
end

