-- ==== Sys2Proof/Machine/Ops.lean ====
section
/-! DEFINITION. The named operations over registers, memory, listing and status, and the entry of a fault. -/

namespace Sys2Proof

/-! ### The 8-bit views (10_state.md R33, R34) -/

/-- `p(i)` of 10_state.md R33: the register that a view is a half of. -/
def Reg8.parent : Reg8 → Reg16
  | .al | .ah => .ax
  | .bl | .bh => .bx
  | .cl | .ch => .cx
  | .dl | .dh => .dx

/-- Whether the view is bits 15:8 of its parent (10_state.md R33, codes 100 to 111). -/
def Reg8.isHigh : Reg8 → Bool
  | .al | .bl | .cl | .dl => false
  | .ah | .bh | .ch | .dh => true

/-- The half of its parent's value `v` that the view shows (10_state.md R34). -/
def Reg8.viewOf (r : Reg8) (v : Word) : Byte := if r.isHigh then highByte v else lowByte v

/-- The parent's value `v` with the view's half replaced by `b` (10_state.md R34). -/
def Reg8.putInto (r : Reg8) (b : Byte) (v : Word) : Word :=
  if r.isHigh then wordOfBytes (lowByte v) b else wordOfBytes b (highByte v)

namespace Machine

/-- The outcome of one step of this machine. -/
abbrev Outcome := Host.Outcome State Fault Refusal

/-! ### Register File (00_scope.md R12, 10_state.md R31 to R34) -/

/-- The register's value. -/
def Regs.get (R : Regs) : Reg16 → Word
  | .ax => R.ax | .bx => R.bx | .cx => R.cx | .dx => R.dx
  | .sp => R.sp | .bp => R.bp | .si => R.si | .di => R.di

/-- The Register File with one register written. -/
def Regs.set (R : Regs) (r : Reg16) (v : Word) : Regs :=
  match r with
  | .ax => { R with ax := v } | .bx => { R with bx := v } | .cx => { R with cx := v } | .dx => { R with dx := v }
  | .sp => { R with sp := v } | .bp => { R with bp := v } | .si => { R with si := v } | .di => { R with di := v }

/-- `R16[r]`. -/
def State.r16 (s : State) (r : Reg16) : Word := s.regs.get r

/-- `R16[r] <- v`. -/
def State.setR16 (s : State) (r : Reg16) (v : Word) : State := { s with regs := s.regs.set r v }

/-- `R8[r]` (10_state.md R34). -/
def State.r8 (s : State) (r : Reg8) : Byte := r.viewOf (s.r16 r.parent)

/-- `R8[r] <- b` (10_state.md R34). -/
def State.setR8 (s : State) (r : Reg8) (b : Byte) : State := s.setR16 r.parent (r.putInto b (s.r16 r.parent))

/-! ### Memory Bank (10_state.md R47, 20_memory.md R71, R78) -/

/-- `M[a]`. -/
def Memory.read : Memory → Nat → Byte
  | [], _ => Config.resetByte
  | c :: m, a => if c.1 = a then c.2 else Memory.read m a

/-- The bank with no byte listed at `a`. -/
def Memory.erase (m : Memory) (a : Nat) : Memory := m.filter fun c => c.1 != a

/-- The bank with the byte `b` listed at `a`, before the first higher address. -/
def Memory.insert (a : Nat) (b : Byte) : Memory → Memory
  | [] => [(a, b)]
  | c :: m => if a < c.1 then (a, b) :: c :: m else c :: Memory.insert a b m

/-- `M[a] <- b`, in canonical form: the reset value is left unlisted. -/
def Memory.write (m : Memory) (a : Nat) (b : Byte) : Memory :=
  if b = Config.resetByte then m.erase a else (m.erase a).insert a b

/-- The word at `a`, low byte first (20_memory.md R71). -/
def Memory.readWord (m : Memory) (a : Nat) : Word := wordOfBytes (m.read a) (m.read (a + 1))

/-- The bank with the word `v` stored at `a`, low byte first (20_memory.md R71). -/
def Memory.writeWord (m : Memory) (a : Nat) (v : Word) : Memory := (m.write a (lowByte v)).write (a + 1) (highByte v)

/-- The whole bank, `M[0]` first: what the host persists when `DUMP` is true (20_memory.md R91). -/
def Memory.image (m : Memory) : List Byte := (List.range Config.memSize).map m.read

/-- The access of `n` bytes at effective address `a` is admitted (20_memory.md R78). -/
abbrev inWindow (a : Int) (n : Nat) : Prop := 0 ≤ a ∧ a + n ≤ Config.windowSize

/-- `MemRead(a, 1)` with its window check (00_scope.md R13). -/
def State.memRead8 (s : State) (a : Int) : Except FaultKind Byte :=
  if inWindow a 1 then .ok (s.mem.read a.toNat) else .error .addressOutOfRange

/-- `MemRead(a, 2)` with its window check (00_scope.md R13). -/
def State.memRead16 (s : State) (a : Int) : Except FaultKind Word :=
  if inWindow a 2 then .ok (s.mem.readWord a.toNat) else .error .addressOutOfRange

/-- `MemWrite(a, 1, b)` with its window check (00_scope.md R13). -/
def State.memWrite8 (s : State) (a : Int) (b : Byte) : Except FaultKind State :=
  if inWindow a 1 then .ok { s with mem := s.mem.write a.toNat b } else .error .addressOutOfRange

/-- `MemWrite(a, 2, v)` with its window check (00_scope.md R13). -/
def State.memWrite16 (s : State) (a : Int) (v : Word) : Except FaultKind State :=
  if inWindow a 2 then .ok { s with mem := s.mem.writeWord a.toNat v } else .error .addressOutOfRange

/-! ### Flag, cursor, listing, status -/

/-- `ZF <- b`. -/
def State.setZf (s : State) (b : Bool) : State := { s with zf := b }

/-- `ip <- p` (00_scope.md R15). -/
def State.setIp (s : State) (p : Nat) : State := { s with ip := p }

/-- `emit(line)` (00_scope.md R15): the text and a newline. -/
def State.emit (s : State) (line : Text) : State := { s with listing := s.listing ++ line ++ ['\n'] }

/-- The status written. -/
def State.setStatus (s : State) (st : Status) : State := { s with status := st }

/-! ### Faults (60_exceptions.md) -/

/-- The code of a fault kind (60_exceptions.md R400). -/
def FaultKind.code : FaultKind → Nat
  | .unrecognizedOpcode => 1
  | .truncatedInstruction => 2
  | .addressOutOfRange => 3
  | .branchTargetOutOfRange => 4

/-- The fault kind of a verdict of the decoder. -/
def faultOf : DecodeError → FaultKind
  | .unrecognizedOpcode => .unrecognizedOpcode
  | .truncatedInstruction => .truncatedInstruction

/-- Fault entry, `raise k(p)` with p the cursor (60_exceptions.md R407, 45_engine_and_listing.md R311): the status
becomes `Fault(k, p)` and nothing else changes. There is no trap return (R408). -/
def State.raise (s : State) (k : FaultKind) : State := s.setStatus (.fault k s.ip)

/-- A verdict of the decoder at the cursor: the fault, or, for an unrecognized opcode with `SKIP_UNRECOGNIZED` true,
the skip, which moves the cursor by the stride and changes nothing else (45_engine_and_listing.md R312). -/
def State.rejectBytes (s : State) (e : DecodeError) : State :=
  if e = .unrecognizedOpcode ∧ s.inputs.skipUnrecognized then s.setIp (s.ip + Config.skipStride)
  else s.raise (faultOf e)

end Machine

end Sys2Proof
end

