-- ==== Sys2Proof/Machine/Flags.lean ====
section
/-! DEFINITION. The arithmetic of ADD, SUB and CMP and the one flag they compute (41_arith.md R220). -/

namespace Sys2Proof

/-- The result `r` of the operation at width `w`, from the destination's value `a` and the source's value `b`, modulo
2^w (41_arith.md R220). -/
def AluOp.result {w : Nat} (op : AluOp) (a b : BitVec w) : BitVec w :=
  match op with
  | .add => a + b
  | .sub => a - b
  | .cmp => a - b

/-- Whether the operation stores its result (41_arith.md R220: CMP discards it). -/
def AluOp.stores : AluOp → Bool
  | .add => true
  | .sub => true
  | .cmp => false

namespace Machine

/-- The Zero Flag of a result (41_arith.md R220, 10_state.md R40). -/
def zeroFlag {w : Nat} (r : BitVec w) : Bool := r == 0

end Machine

end Sys2Proof
end

