-- ==== Sys2Proof/Machine/Operands.lean ====
section
/-! DEFINITION. Operands in execute mode: effective addresses (20_memory.md R77), reads and writes of r/m operands
(30_encoding.md R120), and the arithmetic on them (41_arith.md R220, R221). -/

namespace Sys2Proof

/-- The base register of 30_encoding.md R105. -/
def BaseIndex.base : BaseIndex → Option Reg16
  | .bxSi => some .bx | .bxDi => some .bx | .bpSi => some .bp | .bpDi => some .bp
  | .si => none | .di => none | .bp => some .bp | .bx => some .bx

/-- The index register of 30_encoding.md R105. -/
def BaseIndex.index : BaseIndex → Option Reg16
  | .bxSi => some .si | .bxDi => some .di | .bpSi => some .si | .bpDi => some .di
  | .si => some .si | .di => some .di | .bp => none | .bx => none

/-- The 16-bit immediate of opcode 0x83: its byte sign-extended (30_encoding.md R108). -/
def signExtendImm (v : Byte) : Word := v.signExtend 16

namespace Machine

/-- The unsigned value of an address register, 0 where there is none (30_encoding.md R105). -/
def State.addressPart (s : State) : Option Reg16 → Nat
  | some r => (s.r16 r).toNat
  | none => 0

/-- `base(rm) + index(rm)` of 20_memory.md R77. -/
def State.baseIndex (s : State) (b : BaseIndex) : Nat := s.addressPart b.base + s.addressPart b.index

/-- The effective address (20_memory.md R77): an integer, not reduced modulo 2^16. -/
def State.ea (s : State) : MemOp → Int
  | .plain b => s.baseIndex b
  | .direct a => a.toNat
  | .disp8 b d => s.baseIndex b + d.toInt
  | .disp16 b d => s.baseIndex b + d.toInt

/-- `read` of an 8-bit r/m operand (30_encoding.md R120). -/
def State.readRm8 (s : State) : RM Reg8 → Except FaultKind Byte
  | .reg r => .ok (s.r8 r)
  | .mem m => s.memRead8 (s.ea m)

/-- `read` of a 16-bit r/m operand (30_encoding.md R120). -/
def State.readRm16 (s : State) : RM Reg16 → Except FaultKind Word
  | .reg r => .ok (s.r16 r)
  | .mem m => s.memRead16 (s.ea m)

/-- `write` to an 8-bit r/m operand (30_encoding.md R120). -/
def State.writeRm8 (s : State) (o : RM Reg8) (v : Byte) : Except FaultKind State :=
  match o with
  | .reg r => .ok (s.setR8 r v)
  | .mem m => s.memWrite8 (s.ea m) v

/-- `write` to a 16-bit r/m operand (30_encoding.md R120). -/
def State.writeRm16 (s : State) (o : RM Reg16) (v : Word) : Except FaultKind State :=
  match o with
  | .reg r => .ok (s.setR16 r v)
  | .mem m => s.memWrite16 (s.ea m) v

/-- ADD, SUB or CMP of an 8-bit r/m destination with the source value `b` (41_arith.md R220, R221). -/
def State.alu8 (s : State) (op : AluOp) (dst : RM Reg8) (b : Byte) : Except FaultKind State :=
  match s.readRm8 dst with
  | .error k => .error k
  | .ok a =>
    if op.stores then (s.writeRm8 dst (op.result a b)).map (·.setZf (zeroFlag (op.result a b)))
    else .ok (s.setZf (zeroFlag (op.result a b)))

/-- ADD, SUB or CMP of a 16-bit r/m destination with the source value `b` (41_arith.md R220, R221). -/
def State.alu16 (s : State) (op : AluOp) (dst : RM Reg16) (b : Word) : Except FaultKind State :=
  match s.readRm16 dst with
  | .error k => .error k
  | .ok a =>
    if op.stores then (s.writeRm16 dst (op.result a b)).map (·.setZf (zeroFlag (op.result a b)))
    else .ok (s.setZf (zeroFlag (op.result a b)))

/-- ADD, SUB or CMP of an 8-bit register with an r/m source (41_arith.md R220). -/
def State.aluFrom8 (s : State) (op : AluOp) (dst : Reg8) (src : RM Reg8) : Except FaultKind State :=
  match s.readRm8 src with
  | .error k => .error k
  | .ok b => s.alu8 op (.reg dst) b

/-- ADD, SUB or CMP of a 16-bit register with an r/m source (41_arith.md R220). -/
def State.aluFrom16 (s : State) (op : AluOp) (dst : Reg16) (src : RM Reg16) : Except FaultKind State :=
  match s.readRm16 src with
  | .error k => .error k
  | .ok b => s.alu16 op (.reg dst) b

/-- The copy of an r/m source into an 8-bit register (40_mov.md R203). -/
def State.load8 (s : State) (dst : Reg8) (src : RM Reg8) : Except FaultKind State :=
  (s.readRm8 src).map (s.setR8 dst)

/-- The copy of an r/m source into a 16-bit register (40_mov.md R204). -/
def State.load16 (s : State) (dst : Reg16) (src : RM Reg16) : Except FaultKind State :=
  (s.readRm16 src).map (s.setR16 dst)

end Machine

end Sys2Proof
end

