-- ==== Sys2Proof/Machine/Render.lean ====
section
/-! DEFINITION. The Text Renderer (30_encoding.md R130 to R142, 45_engine_and_listing.md R307 to R310): a line is a
function of the instruction record and, in execute mode, of the state after the instruction (R142). -/

namespace Sys2Proof.Machine

/-! ### Numbers (00_scope.md R16) -/

/-- A digit 0 to 15, lowercase. -/
def digitChar (d : Nat) : Char := if d < 10 then Char.ofNat (48 + d) else Char.ofNat (87 + d)

/-- The digits of `n` in the base, most significant first, with at most `fuel` of them. -/
def digits (base : Nat) : Nat → Nat → Text
  | 0, _ => []
  | fuel + 1, n => if n < base then [digitChar n] else digits base fuel (n / base) ++ [digitChar (n % base)]

/-- `dec` of a natural number. -/
def decNat (n : Nat) : Text := digits 10 (n + 1) n

/-- `dec(x)`: a leading minus sign when negative (00_scope.md R16). -/
def dec (x : Int) : Text := if x < 0 then '-' :: decNat x.natAbs else decNat x.natAbs

/-- `hex(v)`: `0x` and lowercase digits without padding (00_scope.md R16, D17). -/
def hex (v : Nat) : Text := '0' :: 'x' :: digits 16 (v + 1) v

/-! ### Names -/

/-- The rendered name of a 16-bit register (10_state.md R32). -/
def nameOf16 : Reg16 → Text
  | .ax => "ax".toList | .cx => "cx".toList | .dx => "dx".toList | .bx => "bx".toList
  | .sp => "sp".toList | .bp => "bp".toList | .si => "si".toList | .di => "di".toList

/-- The rendered name of an 8-bit view (10_state.md R33). -/
def nameOf8 : Reg8 → Text
  | .al => "al".toList | .cl => "cl".toList | .dl => "dl".toList | .bl => "bl".toList
  | .ah => "ah".toList | .ch => "ch".toList | .dh => "dh".toList | .bh => "bh".toList

/-- The rendered base and index (30_encoding.md R105). -/
def baseIndexText : BaseIndex → Text
  | .bxSi => "bx + si".toList | .bxDi => "bx + di".toList | .bpSi => "bp + si".toList | .bpDi => "bp + di".toList
  | .si => "si".toList | .di => "di".toList | .bp => "bp".toList | .bx => "bx".toList

/-- The mnemonic of a branch (30_encoding.md R140, D11). -/
def branchName : BranchOp → Text
  | .jo => "jo".toList
  | .jno => "jno".toList
  | .jb => "jb".toList
  | .jnb => "jnb".toList
  | .je => "je".toList
  | .jne => "jne".toList
  | .jbe => "jbe".toList
  | .ja => "ja".toList
  | .js => "js".toList
  | .jns => "jns".toList
  | .jp => "jp".toList
  | .jnp => "jnp".toList
  | .jl => "jl".toList
  | .jnl => "jnl".toList
  | .jle => "jle".toList
  | .jg => "jg".toList
  | .loopnz => "loopnz".toList
  | .loopz => "loopz".toList
  | .loop => "loop".toList
  | .jcxz => "jcxz".toList

/-! ### The instruction record (10_state.md R49) -/

/-- The families that render two operands. -/
inductive Family
  | mov | add | sub | cmp
  deriving DecidableEq, Repr

/-- An operand of the record. A memory operand carries the operand width in bytes, which only a size prefix shows. -/
inductive Operand
  | reg8 (r : Reg8)
  | reg16 (r : Reg16)
  | mem (bytes : Nat) (m : MemOp)
  | imm8 (v : Byte)
  | imm16 (v : Word)
  deriving DecidableEq, Repr

/-- The record of one decode, as the renderer reads it: a two-operand instruction, with whether its format is F-IRM
(R136), or a branch with its displacement byte. -/
inductive Record
  | twoOperand (family : Family) (dst src : Operand) (sizePrefix : Bool)
  | branch (op : BranchOp) (disp : Byte)
  deriving DecidableEq, Repr

/-- An 8-bit r/m operand as an operand of the record. -/
def operandOfRm8 : RM Reg8 → Operand
  | .reg r => .reg8 r
  | .mem m => .mem 1 m

/-- A 16-bit r/m operand as an operand of the record. -/
def operandOfRm16 : RM Reg16 → Operand
  | .reg r => .reg16 r
  | .mem m => .mem 2 m

/-- The record of an instruction, in the operand order of 30_encoding.md R138. -/
def recordOf : Instr → Record
  | .movRm8R8 o r => .twoOperand .mov (operandOfRm8 o) (.reg8 r) false
  | .movRm16R16 o r => .twoOperand .mov (operandOfRm16 o) (.reg16 r) false
  | .movR8Rm8 r o => .twoOperand .mov (.reg8 r) (operandOfRm8 o) false
  | .movR16Rm16 r o => .twoOperand .mov (.reg16 r) (operandOfRm16 o) false
  | .movRm8Imm8 o v => .twoOperand .mov (operandOfRm8 o) (.imm8 v) true
  | .movRm16Imm16 o v => .twoOperand .mov (operandOfRm16 o) (.imm16 v) true
  | .movR8Imm8 r v => .twoOperand .mov (.reg8 r) (.imm8 v) false
  | .movR16Imm16 r v => .twoOperand .mov (.reg16 r) (.imm16 v) false
  | .addRm8R8 o r => .twoOperand .add (operandOfRm8 o) (.reg8 r) false
  | .addRm16R16 o r => .twoOperand .add (operandOfRm16 o) (.reg16 r) false
  | .addR8Rm8 r o => .twoOperand .add (.reg8 r) (operandOfRm8 o) false
  | .addR16Rm16 r o => .twoOperand .add (.reg16 r) (operandOfRm16 o) false
  | .addAlImm8 v => .twoOperand .add (.reg8 .al) (.imm8 v) false
  | .addAxImm16 v => .twoOperand .add (.reg16 .ax) (.imm16 v) false
  | .addRm8Imm8 o v => .twoOperand .add (operandOfRm8 o) (.imm8 v) true
  | .addRm16Imm16 o v => .twoOperand .add (operandOfRm16 o) (.imm16 v) true
  | .addRm8Imm8S o v => .twoOperand .add (operandOfRm8 o) (.imm8 v) true
  | .addRm16SImm8 o v => .twoOperand .add (operandOfRm16 o) (.imm16 (v.signExtend 16)) true
  | .subRm8R8 o r => .twoOperand .sub (operandOfRm8 o) (.reg8 r) false
  | .subRm16R16 o r => .twoOperand .sub (operandOfRm16 o) (.reg16 r) false
  | .subR8Rm8 r o => .twoOperand .sub (.reg8 r) (operandOfRm8 o) false
  | .subR16Rm16 r o => .twoOperand .sub (.reg16 r) (operandOfRm16 o) false
  | .subAlImm8 v => .twoOperand .sub (.reg8 .al) (.imm8 v) false
  | .subAxImm16 v => .twoOperand .sub (.reg16 .ax) (.imm16 v) false
  | .subRm8Imm8 o v => .twoOperand .sub (operandOfRm8 o) (.imm8 v) true
  | .subRm16Imm16 o v => .twoOperand .sub (operandOfRm16 o) (.imm16 v) true
  | .subRm8Imm8S o v => .twoOperand .sub (operandOfRm8 o) (.imm8 v) true
  | .subRm16SImm8 o v => .twoOperand .sub (operandOfRm16 o) (.imm16 (v.signExtend 16)) true
  | .cmpRm8R8 o r => .twoOperand .cmp (operandOfRm8 o) (.reg8 r) false
  | .cmpRm16R16 o r => .twoOperand .cmp (operandOfRm16 o) (.reg16 r) false
  | .cmpR8Rm8 r o => .twoOperand .cmp (.reg8 r) (operandOfRm8 o) false
  | .cmpR16Rm16 r o => .twoOperand .cmp (.reg16 r) (operandOfRm16 o) false
  | .cmpAlImm8 v => .twoOperand .cmp (.reg8 .al) (.imm8 v) false
  | .cmpAxImm16 v => .twoOperand .cmp (.reg16 .ax) (.imm16 v) false
  | .cmpRm8Imm8 o v => .twoOperand .cmp (operandOfRm8 o) (.imm8 v) true
  | .cmpRm16Imm16 o v => .twoOperand .cmp (operandOfRm16 o) (.imm16 v) true
  | .cmpRm8Imm8S o v => .twoOperand .cmp (operandOfRm8 o) (.imm8 v) true
  | .cmpRm16SImm8 o v => .twoOperand .cmp (operandOfRm16 o) (.imm16 (v.signExtend 16)) true
  | .jo d => .branch .jo d
  | .jno d => .branch .jno d
  | .jb d => .branch .jb d
  | .jnb d => .branch .jnb d
  | .je d => .branch .je d
  | .jne d => .branch .jne d
  | .jbe d => .branch .jbe d
  | .ja d => .branch .ja d
  | .js d => .branch .js d
  | .jns d => .branch .jns d
  | .jp d => .branch .jp d
  | .jnp d => .branch .jnp d
  | .jl d => .branch .jl d
  | .jnl d => .branch .jnl d
  | .jle d => .branch .jle d
  | .jg d => .branch .jg d
  | .loopnz d => .branch .loopnz d
  | .loopz d => .branch .loopz d
  | .loop d => .branch .loop d
  | .jcxz d => .branch .jcxz d

/-! ### Operand text -/

/-- The text of a signed displacement that is always printed (30_encoding.md R133). -/
def signedText (x : Int) : Text := if 0 ≤ x then " + ".toList ++ dec x else " - ".toList ++ dec (-x)

/-- The text of a byte displacement: a zero is omitted (30_encoding.md R132). -/
def disp8Text (d : Byte) : Text := if d.toInt = 0 then [] else signedText d.toInt

/-- The text of a word displacement: a zero is printed (30_encoding.md R133). -/
def disp16Text (d : Word) : Text := signedText d.toInt

/-- The text of a memory operand (30_encoding.md R131 to R134). -/
def memText : MemOp → Text
  | .plain b => "[".toList ++ baseIndexText b ++ "]".toList
  | .direct a => "[".toList ++ dec a.toNat ++ "]".toList
  | .disp8 b d => "[".toList ++ baseIndexText b ++ disp8Text d ++ "]".toList
  | .disp16 b d => "[".toList ++ baseIndexText b ++ disp16Text d ++ "]".toList

/-- The text of an operand (30_encoding.md R130 to R135). -/
def operandText : Operand → Text
  | .reg8 r => nameOf8 r
  | .reg16 r => nameOf16 r
  | .mem _ m => memText m
  | .imm8 v => dec v.toInt
  | .imm16 v => dec v.toInt

/-- The size prefix of a memory destination of format F-IRM (30_encoding.md R136, D16). -/
def sizePrefixText (sizePrefix : Bool) : Operand → Text
  | .mem bytes _ => if sizePrefix then (if bytes = 1 then "byte ".toList else "word ".toList) else []
  | .reg8 _ => []
  | .reg16 _ => []
  | .imm8 _ => []
  | .imm16 _ => []

/-- The family's mnemonic (30_encoding.md R137). -/
def familyName : Family → Text
  | .mov => "mov".toList | .add => "add".toList | .sub => "sub".toList | .cmp => "cmp".toList

/-! ### Lines -/

/-- The displacement a branch line shows: in execute mode JNE alone has 2 added (30_encoding.md R139). -/
def branchShown (execute : Bool) (op : BranchOp) (d : Byte) : Int :=
  if execute ∧ op = .jne then d.toInt + 2 else d.toInt

/-- The plain line of a record (30_encoding.md R137, R139), without the execute-mode suffix. -/
def plainLine (execute : Bool) : Record → Text
  | .twoOperand f dst src pre =>
    familyName f ++ " ".toList ++ sizePrefixText pre dst ++ operandText dst ++ ", ".toList ++ operandText src
  | .branch op d => branchName op ++ " ".toList ++ dec (branchShown execute op d)

/-- The text that shows a register's value after the instruction (45_engine_and_listing.md R308, D17). -/
def valueText (name : Text) (v : Nat) : Text := " => ".toList ++ name ++ " ".toList ++ hex v

/-- The execute-mode suffix: the value of a register destination after the instruction, at its width; none for a
memory destination and none for a branch (45_engine_and_listing.md R308). -/
def suffix (post : State) : Record → Text
  | .twoOperand _ (.reg8 r) _ _ => valueText (nameOf8 r) (post.r8 r).toNat
  | .twoOperand _ (.reg16 r) _ _ => valueText (nameOf16 r) (post.r16 r).toNat
  | .twoOperand _ (.mem _ _) _ _ => []
  | .twoOperand _ (.imm8 _) _ _ => []
  | .twoOperand _ (.imm16 _) _ _ => []
  | .branch _ _ => []

/-- The line of an instruction, from the state after it (45_engine_and_listing.md R302, R307, R308). The mode is the
run's. -/
def render (i : Instr) (post : State) : Text :=
  if post.inputs.execute then plainLine true (recordOf i) ++ suffix post (recordOf i)
  else plainLine false (recordOf i)

/-! ### The end of a run -/

/-- One line of the register dump (45_engine_and_listing.md R309). -/
def dumpLine (s : State) (r : Reg16) : Text := nameOf16 r ++ ": ".toList ++ hex (s.r16 r).toNat

/-- The registers in the dump's order (45_engine_and_listing.md R309). -/
def dumpOrder : List Reg16 := [.ax, .bx, .cx, .dx, .sp, .bp, .si, .di]

/-- The last line of a normally ended execute-mode run (45_engine_and_listing.md R310). -/
def ipLine (s : State) : Text := "ip: ".toList ++ dec s.ip

end Sys2Proof.Machine
end

