-- ==== Sys2Proof/Machine/Engine.lean ====
section
/-! DEFINITION. The parts of one step (45_engine_and_listing.md R301): fetching, completing an instruction in either
mode, and the end of the run. -/

namespace Sys2Proof.Machine

/-- Completion: the line is emitted from the state `post` after the instruction's effect, then the cursor moves
(45_engine_and_listing.md R301, R306). -/
def State.retire (post : State) (i : Instr) (next : Nat) : State := (post.emit (render i post)).setIp next

/-- A MOV, ADD, SUB or CMP: in execute mode its effect, then completion, or the fault the effect raises, with no
effect at all (45_engine_and_listing.md R303); in decode-only mode completion alone (R302). -/
def perform (i : Instr) (effect : State → Except FaultKind State) (s : State) : Outcome :=
  if s.inputs.execute then
    match effect s with
    | .ok post => .next (post.retire i (s.ip + i.length))
    | .error k => .next (s.raise k)
  else .next (s.retire i (s.ip + i.length))

/-- A branch that does `ip <- p + 2` in both modes and nothing else (42_branch.md R272). -/
def passBy (i : Instr) (s : State) : Outcome := .next (s.retire i (s.ip + i.length))

/-- The target of a branch with displacement byte `d` (42_branch.md R271). -/
def State.branchTarget (s : State) (d : Byte) : Int := s.ip + 2 + d.toInt

/-- A taken branch: the cursor moves to a target in 0..N; any other target raises the fault (42_branch.md R271). -/
def takeBranch (i : Instr) (d : Byte) (s : State) : Outcome :=
  if 0 ≤ s.branchTarget d ∧ s.branchTarget d ≤ s.inputs.buf.length then
    .next (s.retire i (s.branchTarget d).toNat)
  else .next (s.raise .branchTargetOutOfRange)

/-- Decoding at the cursor: the input buffer alone is read (00_scope.md R14, 20_memory.md R88). -/
def State.fetch (s : State) : Except DecodeError (Instr × List Byte) := decode (s.inputs.buf.drop s.ip)

/-- The end of the run at a cursor `>= N` (45_engine_and_listing.md R301, R304): in execute mode the register dump
(R309) and the `ip:` line (R310), then status Done. -/
def State.endRun (s : State) : State :=
  if s.inputs.execute then
    (((dumpOrder.map (dumpLine s)).foldl State.emit s).emit (ipLine s)).setStatus .done
  else s.setStatus .done

/-- What the host persists at the end of a run, on every exit path: the whole Memory Bank when `DUMP` is true
(20_memory.md R91, 45_engine_and_listing.md R313). Writing the file is the host's act (00_scope.md R5). -/
def State.dumpImage (s : State) : Option (List Byte) := if s.inputs.dump then some s.mem.image else none

/-- The buffer with the bytes `new` from offset `p` on, padded with zeros where it ends before `p` (log entry 8). -/
def placeBytes (buf : List Byte) (p : Nat) (new : List Byte) : List Byte :=
  buf.take p ++ List.replicate (p - buf.length) 0 ++ new ++ buf.drop (p + new.length)

/-- `s` with the bytes placed in the input buffer at the cursor, and running (log entry 8). -/
def State.load (s : State) (new : List Byte) : State :=
  { s with
    status := .running
    inputs := { s.inputs with buf := placeBytes s.inputs.buf s.ip new } }

end Sys2Proof.Machine
end

