-- ==== Sys2Proof/Machine/Add.lean ====
section
/-! DEFINITION. The ADD family (41_arith.md R230 to R239): the sum modulo 2^W is stored and ZF is written (R220). -/

namespace Sys2Proof.Machine

/-- ADD r/m8, r8 (41_arith.md R230). -/
def execAddRm8R8 (dst : RM Reg8) (src : Reg8) (s : State) : Outcome :=
  perform (.addRm8R8 dst src) (fun s => s.alu8 .add dst (s.r8 src)) s

/-- ADD r/m16, r16 (41_arith.md R231). -/
def execAddRm16R16 (dst : RM Reg16) (src : Reg16) (s : State) : Outcome :=
  perform (.addRm16R16 dst src) (fun s => s.alu16 .add dst (s.r16 src)) s

/-- ADD r8, r/m8 (41_arith.md R232). -/
def execAddR8Rm8 (dst : Reg8) (src : RM Reg8) (s : State) : Outcome :=
  perform (.addR8Rm8 dst src) (fun s => s.aluFrom8 .add dst src) s

/-- ADD r16, r/m16 (41_arith.md R233). -/
def execAddR16Rm16 (dst : Reg16) (src : RM Reg16) (s : State) : Outcome :=
  perform (.addR16Rm16 dst src) (fun s => s.aluFrom16 .add dst src) s

/-- ADD AL, imm8 (41_arith.md R234). -/
def execAddAlImm8 (imm : Byte) (s : State) : Outcome :=
  perform (.addAlImm8 imm) (fun s => s.alu8 .add (.reg .al) imm) s

/-- ADD AX, imm16 (41_arith.md R235). -/
def execAddAxImm16 (imm : Word) (s : State) : Outcome :=
  perform (.addAxImm16 imm) (fun s => s.alu16 .add (.reg .ax) imm) s

/-- ADD r/m8, imm8, opcode 0x80 (41_arith.md R236). -/
def execAddRm8Imm8 (dst : RM Reg8) (imm : Byte) (s : State) : Outcome :=
  perform (.addRm8Imm8 dst imm) (fun s => s.alu8 .add dst imm) s

/-- ADD r/m16, imm16, opcode 0x81 (41_arith.md R237). -/
def execAddRm16Imm16 (dst : RM Reg16) (imm : Word) (s : State) : Outcome :=
  perform (.addRm16Imm16 dst imm) (fun s => s.alu16 .add dst imm) s

/-- ADD r/m8, imm8, opcode 0x82, which behaves as 0x80 (D4) (41_arith.md R238). -/
def execAddRm8Imm8S (dst : RM Reg8) (imm : Byte) (s : State) : Outcome :=
  perform (.addRm8Imm8S dst imm) (fun s => s.alu8 .add dst imm) s

/-- ADD r/m16, sign-extended imm8, opcode 0x83 (41_arith.md R239). -/
def execAddRm16SImm8 (dst : RM Reg16) (imm : Byte) (s : State) : Outcome :=
  perform (.addRm16SImm8 dst imm) (fun s => s.alu16 .add dst (signExtendImm imm)) s

end Sys2Proof.Machine
end

