-- ==== Sys2Proof/Machine/Cmp.lean ====
section
/-! DEFINITION. The CMP family (41_arith.md R250 to R259): ZF is written from the difference, which is discarded (R220). -/

namespace Sys2Proof.Machine

/-- CMP r/m8, r8 (41_arith.md R250). -/
def execCmpRm8R8 (dst : RM Reg8) (src : Reg8) (s : State) : Outcome :=
  perform (.cmpRm8R8 dst src) (fun s => s.alu8 .cmp dst (s.r8 src)) s

/-- CMP r/m16, r16 (41_arith.md R251). -/
def execCmpRm16R16 (dst : RM Reg16) (src : Reg16) (s : State) : Outcome :=
  perform (.cmpRm16R16 dst src) (fun s => s.alu16 .cmp dst (s.r16 src)) s

/-- CMP r8, r/m8 (41_arith.md R252). -/
def execCmpR8Rm8 (dst : Reg8) (src : RM Reg8) (s : State) : Outcome :=
  perform (.cmpR8Rm8 dst src) (fun s => s.aluFrom8 .cmp dst src) s

/-- CMP r16, r/m16 (41_arith.md R253). -/
def execCmpR16Rm16 (dst : Reg16) (src : RM Reg16) (s : State) : Outcome :=
  perform (.cmpR16Rm16 dst src) (fun s => s.aluFrom16 .cmp dst src) s

/-- CMP AL, imm8 (41_arith.md R254). -/
def execCmpAlImm8 (imm : Byte) (s : State) : Outcome :=
  perform (.cmpAlImm8 imm) (fun s => s.alu8 .cmp (.reg .al) imm) s

/-- CMP AX, imm16 (41_arith.md R255). -/
def execCmpAxImm16 (imm : Word) (s : State) : Outcome :=
  perform (.cmpAxImm16 imm) (fun s => s.alu16 .cmp (.reg .ax) imm) s

/-- CMP r/m8, imm8, opcode 0x80 (41_arith.md R256). -/
def execCmpRm8Imm8 (dst : RM Reg8) (imm : Byte) (s : State) : Outcome :=
  perform (.cmpRm8Imm8 dst imm) (fun s => s.alu8 .cmp dst imm) s

/-- CMP r/m16, imm16, opcode 0x81 (41_arith.md R257). -/
def execCmpRm16Imm16 (dst : RM Reg16) (imm : Word) (s : State) : Outcome :=
  perform (.cmpRm16Imm16 dst imm) (fun s => s.alu16 .cmp dst imm) s

/-- CMP r/m8, imm8, opcode 0x82, which behaves as 0x80 (D4) (41_arith.md R258). -/
def execCmpRm8Imm8S (dst : RM Reg8) (imm : Byte) (s : State) : Outcome :=
  perform (.cmpRm8Imm8S dst imm) (fun s => s.alu8 .cmp dst imm) s

/-- CMP r/m16, sign-extended imm8, opcode 0x83 (41_arith.md R259). -/
def execCmpRm16SImm8 (dst : RM Reg16) (imm : Byte) (s : State) : Outcome :=
  perform (.cmpRm16SImm8 dst imm) (fun s => s.alu16 .cmp dst (signExtendImm imm)) s

end Sys2Proof.Machine
end

