-- ==== Sys2Proof/Machine/Jump.lean ====
section
/-! DEFINITION. The conditional jumps (42_branch.md R276 to R291). JNE alone transfers control (R271); every other one only
advances, whatever the flags (R272). -/

namespace Sys2Proof.Machine

/-- JO rel8 (42_branch.md R276). -/
def execJo (disp : Byte) (s : State) : Outcome :=
  passBy (.jo disp) s

/-- JNO rel8 (42_branch.md R277). -/
def execJno (disp : Byte) (s : State) : Outcome :=
  passBy (.jno disp) s

/-- JB rel8 (42_branch.md R278). -/
def execJb (disp : Byte) (s : State) : Outcome :=
  passBy (.jb disp) s

/-- JNB rel8 (42_branch.md R279). -/
def execJnb (disp : Byte) (s : State) : Outcome :=
  passBy (.jnb disp) s

/-- JE rel8 (42_branch.md R280). -/
def execJe (disp : Byte) (s : State) : Outcome :=
  passBy (.je disp) s

/-- JNE rel8 (42_branch.md R271, R281): in execute mode taken when ZF is false. -/
def execJne (disp : Byte) (s : State) : Outcome :=
  if s.inputs.execute ∧ s.zf = false then takeBranch (.jne disp) disp s else passBy (.jne disp) s

/-- JBE rel8 (42_branch.md R282). -/
def execJbe (disp : Byte) (s : State) : Outcome :=
  passBy (.jbe disp) s

/-- JA rel8 (42_branch.md R283). -/
def execJa (disp : Byte) (s : State) : Outcome :=
  passBy (.ja disp) s

/-- JS rel8 (42_branch.md R284). -/
def execJs (disp : Byte) (s : State) : Outcome :=
  passBy (.js disp) s

/-- JNS rel8 (42_branch.md R285). -/
def execJns (disp : Byte) (s : State) : Outcome :=
  passBy (.jns disp) s

/-- JP rel8 (42_branch.md R286). -/
def execJp (disp : Byte) (s : State) : Outcome :=
  passBy (.jp disp) s

/-- JNP rel8 (42_branch.md R287). -/
def execJnp (disp : Byte) (s : State) : Outcome :=
  passBy (.jnp disp) s

/-- JL rel8 (42_branch.md R288). -/
def execJl (disp : Byte) (s : State) : Outcome :=
  passBy (.jl disp) s

/-- JNL rel8 (42_branch.md R289). -/
def execJnl (disp : Byte) (s : State) : Outcome :=
  passBy (.jnl disp) s

/-- JLE rel8 (42_branch.md R290). -/
def execJle (disp : Byte) (s : State) : Outcome :=
  passBy (.jle disp) s

/-- JG rel8 (42_branch.md R291). -/
def execJg (disp : Byte) (s : State) : Outcome :=
  passBy (.jg disp) s

end Sys2Proof.Machine
end

