-- ==== Sys2Proof/Machine/Loop.lean ====
section
/-! DEFINITION. The loop-class branches (42_branch.md R292 to R295): they only advance, and neither read nor decrement CX (R272). -/

namespace Sys2Proof.Machine

/-- LOOPNZ rel8 (42_branch.md R292). -/
def execLoopnz (disp : Byte) (s : State) : Outcome :=
  passBy (.loopnz disp) s

/-- LOOPZ rel8 (42_branch.md R293). -/
def execLoopz (disp : Byte) (s : State) : Outcome :=
  passBy (.loopz disp) s

/-- LOOP rel8 (42_branch.md R294). -/
def execLoop (disp : Byte) (s : State) : Outcome :=
  passBy (.loop disp) s

/-- JCXZ rel8 (42_branch.md R295). -/
def execJcxz (disp : Byte) (s : State) : Outcome :=
  passBy (.jcxz disp) s

end Sys2Proof.Machine
end

