-- ==== Sys2Proof/Machine/Mov.lean ====
section
/-! DEFINITION. The MOV family (40_mov.md R200 to R208): the source is copied, no flag is written. -/

namespace Sys2Proof.Machine

/-- MOV r/m8, r8 (40_mov.md R201). -/
def execMovRm8R8 (dst : RM Reg8) (src : Reg8) (s : State) : Outcome :=
  perform (.movRm8R8 dst src) (fun s => s.writeRm8 dst (s.r8 src)) s

/-- MOV r/m16, r16 (40_mov.md R202). -/
def execMovRm16R16 (dst : RM Reg16) (src : Reg16) (s : State) : Outcome :=
  perform (.movRm16R16 dst src) (fun s => s.writeRm16 dst (s.r16 src)) s

/-- MOV r8, r/m8 (40_mov.md R203). -/
def execMovR8Rm8 (dst : Reg8) (src : RM Reg8) (s : State) : Outcome :=
  perform (.movR8Rm8 dst src) (fun s => s.load8 dst src) s

/-- MOV r16, r/m16 (40_mov.md R204). -/
def execMovR16Rm16 (dst : Reg16) (src : RM Reg16) (s : State) : Outcome :=
  perform (.movR16Rm16 dst src) (fun s => s.load16 dst src) s

/-- MOV r/m8, imm8 (40_mov.md R205). -/
def execMovRm8Imm8 (dst : RM Reg8) (imm : Byte) (s : State) : Outcome :=
  perform (.movRm8Imm8 dst imm) (fun s => s.writeRm8 dst imm) s

/-- MOV r/m16, imm16 (40_mov.md R206). -/
def execMovRm16Imm16 (dst : RM Reg16) (imm : Word) (s : State) : Outcome :=
  perform (.movRm16Imm16 dst imm) (fun s => s.writeRm16 dst imm) s

/-- MOV r8, imm8 (40_mov.md R207). -/
def execMovR8Imm8 (dst : Reg8) (imm : Byte) (s : State) : Outcome :=
  perform (.movR8Imm8 dst imm) (fun s => .ok (s.setR8 dst imm)) s

/-- MOV r16, imm16 (40_mov.md R208). -/
def execMovR16Imm16 (dst : Reg16) (imm : Word) (s : State) : Outcome :=
  perform (.movR16Imm16 dst imm) (fun s => .ok (s.setR16 dst imm)) s

end Sys2Proof.Machine
end

