-- ==== Sys2Proof/Machine/Sub.lean ====
section
/-! DEFINITION. The SUB family (41_arith.md R240 to R249): the difference modulo 2^W is stored and ZF is written (R220). -/

namespace Sys2Proof.Machine

/-- SUB r/m8, r8 (41_arith.md R240). -/
def execSubRm8R8 (dst : RM Reg8) (src : Reg8) (s : State) : Outcome :=
  perform (.subRm8R8 dst src) (fun s => s.alu8 .sub dst (s.r8 src)) s

/-- SUB r/m16, r16 (41_arith.md R241). -/
def execSubRm16R16 (dst : RM Reg16) (src : Reg16) (s : State) : Outcome :=
  perform (.subRm16R16 dst src) (fun s => s.alu16 .sub dst (s.r16 src)) s

/-- SUB r8, r/m8 (41_arith.md R242). -/
def execSubR8Rm8 (dst : Reg8) (src : RM Reg8) (s : State) : Outcome :=
  perform (.subR8Rm8 dst src) (fun s => s.aluFrom8 .sub dst src) s

/-- SUB r16, r/m16 (41_arith.md R243). -/
def execSubR16Rm16 (dst : Reg16) (src : RM Reg16) (s : State) : Outcome :=
  perform (.subR16Rm16 dst src) (fun s => s.aluFrom16 .sub dst src) s

/-- SUB AL, imm8 (41_arith.md R244). -/
def execSubAlImm8 (imm : Byte) (s : State) : Outcome :=
  perform (.subAlImm8 imm) (fun s => s.alu8 .sub (.reg .al) imm) s

/-- SUB AX, imm16 (41_arith.md R245). -/
def execSubAxImm16 (imm : Word) (s : State) : Outcome :=
  perform (.subAxImm16 imm) (fun s => s.alu16 .sub (.reg .ax) imm) s

/-- SUB r/m8, imm8, opcode 0x80 (41_arith.md R246). -/
def execSubRm8Imm8 (dst : RM Reg8) (imm : Byte) (s : State) : Outcome :=
  perform (.subRm8Imm8 dst imm) (fun s => s.alu8 .sub dst imm) s

/-- SUB r/m16, imm16, opcode 0x81 (41_arith.md R247). -/
def execSubRm16Imm16 (dst : RM Reg16) (imm : Word) (s : State) : Outcome :=
  perform (.subRm16Imm16 dst imm) (fun s => s.alu16 .sub dst imm) s

/-- SUB r/m8, imm8, opcode 0x82, which behaves as 0x80 (D4) (41_arith.md R248). -/
def execSubRm8Imm8S (dst : RM Reg8) (imm : Byte) (s : State) : Outcome :=
  perform (.subRm8Imm8S dst imm) (fun s => s.alu8 .sub dst imm) s

/-- SUB r/m16, sign-extended imm8, opcode 0x83 (41_arith.md R249). -/
def execSubRm16SImm8 (dst : RM Reg16) (imm : Byte) (s : State) : Outcome :=
  perform (.subRm16SImm8 dst imm) (fun s => s.alu16 .sub dst (signExtendImm imm)) s

end Sys2Proof.Machine
end

