-- ==== Sys2Proof/Machine/Dispatch.lean ====
section
/-! DEFINITION. One arm per constructor of `Instr`, each a call of the instruction's own meaning. -/

namespace Sys2Proof.Machine

def exec (i : Instr) (s : State) : Host.Outcome State Fault Refusal :=
  match i with
  | .movRm8R8 dst src => Sys2Proof.Machine.execMovRm8R8 dst src s
  | .movRm16R16 dst src => Sys2Proof.Machine.execMovRm16R16 dst src s
  | .movR8Rm8 dst src => Sys2Proof.Machine.execMovR8Rm8 dst src s
  | .movR16Rm16 dst src => Sys2Proof.Machine.execMovR16Rm16 dst src s
  | .movRm8Imm8 dst imm => Sys2Proof.Machine.execMovRm8Imm8 dst imm s
  | .movRm16Imm16 dst imm => Sys2Proof.Machine.execMovRm16Imm16 dst imm s
  | .movR8Imm8 dst imm => Sys2Proof.Machine.execMovR8Imm8 dst imm s
  | .movR16Imm16 dst imm => Sys2Proof.Machine.execMovR16Imm16 dst imm s
  | .addRm8R8 dst src => Sys2Proof.Machine.execAddRm8R8 dst src s
  | .addRm16R16 dst src => Sys2Proof.Machine.execAddRm16R16 dst src s
  | .addR8Rm8 dst src => Sys2Proof.Machine.execAddR8Rm8 dst src s
  | .addR16Rm16 dst src => Sys2Proof.Machine.execAddR16Rm16 dst src s
  | .addAlImm8 imm => Sys2Proof.Machine.execAddAlImm8 imm s
  | .addAxImm16 imm => Sys2Proof.Machine.execAddAxImm16 imm s
  | .addRm8Imm8 dst imm => Sys2Proof.Machine.execAddRm8Imm8 dst imm s
  | .addRm16Imm16 dst imm => Sys2Proof.Machine.execAddRm16Imm16 dst imm s
  | .addRm8Imm8S dst imm => Sys2Proof.Machine.execAddRm8Imm8S dst imm s
  | .addRm16SImm8 dst imm => Sys2Proof.Machine.execAddRm16SImm8 dst imm s
  | .subRm8R8 dst src => Sys2Proof.Machine.execSubRm8R8 dst src s
  | .subRm16R16 dst src => Sys2Proof.Machine.execSubRm16R16 dst src s
  | .subR8Rm8 dst src => Sys2Proof.Machine.execSubR8Rm8 dst src s
  | .subR16Rm16 dst src => Sys2Proof.Machine.execSubR16Rm16 dst src s
  | .subAlImm8 imm => Sys2Proof.Machine.execSubAlImm8 imm s
  | .subAxImm16 imm => Sys2Proof.Machine.execSubAxImm16 imm s
  | .subRm8Imm8 dst imm => Sys2Proof.Machine.execSubRm8Imm8 dst imm s
  | .subRm16Imm16 dst imm => Sys2Proof.Machine.execSubRm16Imm16 dst imm s
  | .subRm8Imm8S dst imm => Sys2Proof.Machine.execSubRm8Imm8S dst imm s
  | .subRm16SImm8 dst imm => Sys2Proof.Machine.execSubRm16SImm8 dst imm s
  | .cmpRm8R8 dst src => Sys2Proof.Machine.execCmpRm8R8 dst src s
  | .cmpRm16R16 dst src => Sys2Proof.Machine.execCmpRm16R16 dst src s
  | .cmpR8Rm8 dst src => Sys2Proof.Machine.execCmpR8Rm8 dst src s
  | .cmpR16Rm16 dst src => Sys2Proof.Machine.execCmpR16Rm16 dst src s
  | .cmpAlImm8 imm => Sys2Proof.Machine.execCmpAlImm8 imm s
  | .cmpAxImm16 imm => Sys2Proof.Machine.execCmpAxImm16 imm s
  | .cmpRm8Imm8 dst imm => Sys2Proof.Machine.execCmpRm8Imm8 dst imm s
  | .cmpRm16Imm16 dst imm => Sys2Proof.Machine.execCmpRm16Imm16 dst imm s
  | .cmpRm8Imm8S dst imm => Sys2Proof.Machine.execCmpRm8Imm8S dst imm s
  | .cmpRm16SImm8 dst imm => Sys2Proof.Machine.execCmpRm16SImm8 dst imm s
  | .jo disp => Sys2Proof.Machine.execJo disp s
  | .jno disp => Sys2Proof.Machine.execJno disp s
  | .jb disp => Sys2Proof.Machine.execJb disp s
  | .jnb disp => Sys2Proof.Machine.execJnb disp s
  | .je disp => Sys2Proof.Machine.execJe disp s
  | .jne disp => Sys2Proof.Machine.execJne disp s
  | .jbe disp => Sys2Proof.Machine.execJbe disp s
  | .ja disp => Sys2Proof.Machine.execJa disp s
  | .js disp => Sys2Proof.Machine.execJs disp s
  | .jns disp => Sys2Proof.Machine.execJns disp s
  | .jp disp => Sys2Proof.Machine.execJp disp s
  | .jnp disp => Sys2Proof.Machine.execJnp disp s
  | .jl disp => Sys2Proof.Machine.execJl disp s
  | .jnl disp => Sys2Proof.Machine.execJnl disp s
  | .jle disp => Sys2Proof.Machine.execJle disp s
  | .jg disp => Sys2Proof.Machine.execJg disp s
  | .loopnz disp => Sys2Proof.Machine.execLoopnz disp s
  | .loopz disp => Sys2Proof.Machine.execLoopz disp s
  | .loop disp => Sys2Proof.Machine.execLoop disp s
  | .jcxz disp => Sys2Proof.Machine.execJcxz disp s

end Sys2Proof.Machine
end

