-- ==== Sys2Proof/Machine/Iterate.lean ====
section
/-! DEFINITION. The decode loop's one iteration (45_engine_and_listing.md R301). -/

namespace Sys2Proof.Machine

/-- One step from a state with status Running: at a cursor `>= N` the run ends (R304); else the bytes at the cursor
are decoded, and the instruction runs or the decoder's verdict is taken. An ended run has no step (log entry 4). -/
def iterate (s : State) : Outcome :=
  match s.status with
  | .running =>
    if s.inputs.buf.length ≤ s.ip then .next s.endRun
    else
      match s.fetch with
      | .ok (i, _) => exec i s
      | .error e => .next (s.rejectBytes e)
  | ended => .fault (.runEnded ended)

end Sys2Proof.Machine
end

