-- ==== Sys2Proof/Machine/Step.lean ====
section
/-! DEFINITION. The step of the machine, and the placing of a table word. -/

namespace Sys2Proof.Machine

/-- One step of the machine (45_engine_and_listing.md R301). -/
def step (s : State) : Host.Outcome State Fault Refusal := iterate s

/-- `s` with the instruction of a table word placed in the input buffer at the cursor, and running (log entry 8):
a program is loaded from outside the machine, and this stands for that load. -/
def State.withFetchWord (s : State) (nbits w : Nat) : State := s.load (tableBytes nbits w)

end Sys2Proof.Machine
end

