-- ==== Sys2Proof/Safety.lean ====
section
/-! DEFINITION. The terms in which claims about the machine are stated: what an operand names, what an instruction
writes and what it leaves, runs under fuel, and the invariant of a run. -/

namespace Sys2Proof.Machine

/-! ### What an operand names -/

/-- The access to the r/m operand is admitted: a register, or a byte inside the window (20_memory.md R78). -/
def State.Readable8 (s : State) : RM Reg8 → Prop
  | .reg _ => True
  | .mem m => inWindow (s.ea m) 1

/-- The access to the r/m operand is admitted: a register, or a word inside the window (20_memory.md R78). -/
def State.Readable16 (s : State) : RM Reg16 → Prop
  | .reg _ => True
  | .mem m => inWindow (s.ea m) 2

/-- The value of an admitted 8-bit r/m operand (30_encoding.md R120). -/
def State.value8 (s : State) : RM Reg8 → Byte
  | .reg r => s.r8 r
  | .mem m => s.mem.read (s.ea m).toNat

/-- The value of an admitted 16-bit r/m operand (30_encoding.md R120). -/
def State.value16 (s : State) : RM Reg16 → Word
  | .reg r => s.r16 r
  | .mem m => s.mem.readWord (s.ea m).toNat

/-- The memory operand that an operand of the record is, with its width in bytes. -/
def operandMemory : Operand → Option (MemOp × Nat)
  | .mem bytes m => some (m, bytes)
  | .reg8 _ => none
  | .reg16 _ => none
  | .imm8 _ => none
  | .imm16 _ => none

/-- The memory operand of an instruction that accesses memory, with the width of the access in bytes
(20_memory.md R76). -/
def memoryOperand (i : Instr) : Option (MemOp × Nat) :=
  match recordOf i with
  | .twoOperand _ dst src _ => (operandMemory dst).or (operandMemory src)
  | .branch _ _ => none

/-- The memory operand that a MOV, ADD or SUB stores to, with the width in bytes (20_memory.md R90). -/
def memoryDestination (i : Instr) : Option (MemOp × Nat) :=
  match recordOf i with
  | .twoOperand .cmp _ _ _ => none
  | .twoOperand _ dst _ _ => operandMemory dst
  | .branch _ _ => none

/-- The instruction is an ADD, SUB or CMP: the writers of ZF (10_state.md R40). -/
def isArithmetic (i : Instr) : Bool :=
  match recordOf i with
  | .twoOperand .mov _ _ _ => false
  | .twoOperand _ _ _ _ => true
  | .branch _ _ => false

/-! ### What an instruction writes and what it leaves -/

/-- Every general register is as before. -/
def SameRegs (s t : State) : Prop := ∀ r, t.r16 r = s.r16 r

/-- Every byte of the Memory Bank is as before. -/
def SameMem (s t : State) : Prop := ∀ a, t.mem.read a = s.mem.read a

/-- The view `r` holds `v`; every other view and every register but its parent is as before, and so is memory. -/
structure WritesReg8 (r : Reg8) (v : Byte) (s t : State) : Prop where
  value : t.r8 r = v
  views : ∀ q, q ≠ r → t.r8 q = s.r8 q
  regs : ∀ q, q ≠ r.parent → t.r16 q = s.r16 q
  mem : SameMem s t

/-- The register `r` holds `v`; every other register is as before, and so is memory. -/
structure WritesReg16 (r : Reg16) (v : Word) (s t : State) : Prop where
  value : t.r16 r = v
  regs : ∀ q, q ≠ r → t.r16 q = s.r16 q
  mem : SameMem s t

/-- The byte at `a` is `v`; every other byte is as before, and so is every register. -/
structure WritesByte (a : Nat) (v : Byte) (s t : State) : Prop where
  value : t.mem.read a = v
  bytes : ∀ b, b ≠ a → t.mem.read b = s.mem.read b
  regs : SameRegs s t

/-- The bytes at `a` and `a + 1` are the low and the high half of `v`; every other byte is as before, and so is every
register. -/
structure WritesWord (a : Nat) (v : Word) (s t : State) : Prop where
  low : t.mem.read a = v.extractLsb' 0 8
  high : t.mem.read (a + 1) = v.extractLsb' 8 8
  bytes : ∀ b, b ≠ a → b ≠ a + 1 → t.mem.read b = s.mem.read b
  regs : SameRegs s t

/-- The 8-bit r/m operand, a memory address taken in `s`, holds `v` in `t`, and nothing else of registers and memory
changed. -/
def Writes8 (o : RM Reg8) (v : Byte) (s t : State) : Prop :=
  match o with
  | .reg r => WritesReg8 r v s t
  | .mem m => WritesByte (s.ea m).toNat v s t

/-- The 16-bit r/m operand, a memory address taken in `s`, holds `v` in `t`, and nothing else of registers and memory
changed. -/
def Writes16 (o : RM Reg16) (v : Word) (s t : State) : Prop :=
  match o with
  | .reg r => WritesReg16 r v s t
  | .mem m => WritesWord (s.ea m).toNat v s t

/-- The instruction completed: the cursor is at `next`, one line was appended, rendered from the state `t` after the
instruction, and status and inputs are as before (45_engine_and_listing.md R301, R306). -/
structure Completed (i : Instr) (next : Nat) (s t : State) : Prop where
  ip : t.ip = next
  listing : t.listing = s.listing ++ render i t ++ ['\n']
  status : t.status = s.status
  inputs : t.inputs = s.inputs

/-- The MOV completed: it wrote what `writes` says, and ZF is as before (40_mov.md R200). -/
def MovDone (i : Instr) (writes : State → State → Prop) (s t : State) : Prop :=
  writes s t ∧ t.zf = s.zf ∧ Completed i (s.ip + i.length) s t

/-- The ADD or SUB completed with the result `r`: it wrote what `writes` says, and ZF tells whether `r` is zero
(41_arith.md R220). -/
def AluDone {w : Nat} (i : Instr) (r : BitVec w) (writes : State → State → Prop) (s t : State) : Prop :=
  writes s t ∧ (t.zf = true ↔ r = 0) ∧ Completed i (s.ip + i.length) s t

/-- The CMP of `a` with `b` completed: no register and no byte of memory changed, and ZF tells whether they are equal
(41_arith.md R220). -/
def CmpDone {w : Nat} (i : Instr) (a b : BitVec w) (s t : State) : Prop :=
  SameRegs s t ∧ SameMem s t ∧ (t.zf = true ↔ a = b) ∧ Completed i (s.ip + i.length) s t

/-! ### Runs -/

/-- The run under fuel: steps until one gives no next state or the fuel is spent (45_engine_and_listing.md R300,
R314). A run that is still Running after its fuel has not ended. -/
def run : Nat → State → State
  | 0, s => s
  | n + 1, s =>
    match step s with
    | .next t => run n t
    | .fault _ => s
    | .refused _ => s

/-! ### The invariant -/

/-- What holds of every state of a run: from engine construction on, and after every step. -/
structure Inv (s : State) : Prop where
  /-- The Memory Bank is in canonical form. -/
  canonical : s.mem.wf
  /-- No byte outside the window has been written (20_memory.md R79). -/
  window : ∀ c ∈ s.mem, c.1 < Config.windowSize
  /-- The cursor is at most one beyond the end of the buffer (45_engine_and_listing.md R304). -/
  cursor : s.ip ≤ s.inputs.buf.length + 1
  /-- It is beyond the end only with `SKIP_UNRECOGNIZED` (45_engine_and_listing.md R304). -/
  cursorExact : s.inputs.skipUnrecognized = false → s.ip ≤ s.inputs.buf.length
  /-- The listing opens with the header (45_engine_and_listing.md R305). -/
  header : Config.header <+: s.listing
  /-- A fault is at the cursor, inside the buffer (60_exceptions.md R407). -/
  faultAt : ∀ k p, s.status = .fault k p → p = s.ip ∧ s.ip < s.inputs.buf.length
  /-- A run that is Done ended at the buffer's end (45_engine_and_listing.md R304). -/
  doneAt : s.status = .done → s.inputs.buf.length ≤ s.ip
  /-- With `SKIP_UNRECOGNIZED` no unrecognized opcode ends a run (45_engine_and_listing.md R312). -/
  skipped : s.inputs.skipUnrecognized = true → ∀ p, s.status ≠ .fault .unrecognizedOpcode p
  /-- Decode-only mode writes no register, flag or byte (10_state.md R38, R40, R47). -/
  decodeOnly : s.inputs.execute = false → s.regs = .reset ∧ s.zf = s.inputs.zfReset ∧ s.mem = []
  /-- Decode-only mode raises no execution fault (20_memory.md R80, 42_branch.md R272). -/
  decodeOnlyFault : s.inputs.execute = false → ∀ p,
    s.status ≠ .fault .addressOutOfRange p ∧ s.status ≠ .fault .branchTargetOutOfRange p

end Sys2Proof.Machine
end

