-- ==== Sys2Proof/Certificates/Slice0/Obligations.lean ====
section
/-! DEFINITION. The statements for the provers. Each docstring cites the rules of spec/ it formalises; a `stated` one
states its rule whole, the others say where they rest on a decision of the spec (D<n>) or of the model (log entry). -/

open Sys2Proof Sys2Proof.Machine

/-- 10_state.md R39: every general register is zero at engine construction, whatever the inputs. -/
def Obligations.ResetZeroesEveryRegister : Prop :=
  ∀ inputs : Inputs, (∀ r, (State.resetWith inputs).r16 r = 0) ∧ ∀ r, (State.resetWith inputs).r8 r = 0

/-- 10_state.md R51, 70_reset_and_hazards.md R450. The spec leaves ZF_RESET and SKIP_UNRECOGNIZED as parameters with default false
(D6, D9). The empty buffer, EXECUTE true and DUMP false of `State.reset` are the model's choice (log entries 1, 2). -/
def Obligations.ResetLeavesTheRestAsTheSpecSays : Prop :=
  (∀ inputs : Inputs, (State.resetWith inputs).zf = inputs.zfReset ∧ (∀ a, (State.resetWith inputs).mem.read a = 0) ∧
      (State.resetWith inputs).ip = 0 ∧ (State.resetWith inputs).listing = "bits 16\n\n".toList ∧
      (State.resetWith inputs).status = .running ∧ (State.resetWith inputs).inputs = inputs) ∧
    State.reset = State.resetWith
      { buf := [], execute := true, dump := false, skipUnrecognized := false, zfReset := false }

/-- 10_state.md R34, with the code tables R32 and R33 written as codes: the parent of view code i is register code i mod 4. -/
def Obligations.HalfRegistersAliasTheirParent : Prop :=
  ∀ (s : State) (i : BitVec 3),
    s.r8 (Reg8.ofCode i) =
        (if i.toNat < 4 then (s.r16 (Reg16.ofCode (i &&& 3))).extractLsb' 0 8
         else (s.r16 (Reg16.ofCode (i &&& 3))).extractLsb' 8 8) ∧
    (∀ v : Byte,
      (s.setR8 (Reg8.ofCode i) v).r16 (Reg16.ofCode (i &&& 3)) =
        (if i.toNat < 4 then (s.r16 (Reg16.ofCode (i &&& 3))).extractLsb' 8 8 ++ v
         else v ++ (s.r16 (Reg16.ofCode (i &&& 3))).extractLsb' 0 8) ∧
      (∀ q, q ≠ Reg16.ofCode (i &&& 3) → (s.setR8 (Reg8.ofCode i) v).r16 q = s.r16 q) ∧
      (s.setR8 (Reg8.ofCode i) v).r8 (Reg8.ofCode i) = v) ∧
    (∀ v : Word, (s.setR16 (Reg16.ofCode (i &&& 3)) v).r8 (Reg8.ofCode i) =
      if i.toNat < 4 then v.extractLsb' 0 8 else v.extractLsb' 8 8)

/-- 20_memory.md R71. The two clauses are for the two widths; admitted is R78. -/
def Obligations.MemoryAccessesAreLittleEndian : Prop :=
  ∀ (s : State) (a : Int),
    (inWindow a 1 → s.memRead8 a = .ok (s.mem.read a.toNat) ∧
      ∀ v : Byte, ∃ t, s.memWrite8 a v = .ok t ∧ t.mem.read a.toNat = v ∧
        (∀ b, b ≠ a.toNat → t.mem.read b = s.mem.read b) ∧ t = { s with mem := t.mem }) ∧
    (inWindow a 2 → s.memRead16 a = .ok (s.mem.read (a.toNat + 1) ++ s.mem.read a.toNat) ∧
      ∀ v : Word, ∃ t, s.memWrite16 a v = .ok t ∧ t.mem.read a.toNat = v.extractLsb' 0 8 ∧
        t.mem.read (a.toNat + 1) = v.extractLsb' 8 8 ∧
        (∀ b, b ≠ a.toNat → b ≠ a.toNat + 1 → t.mem.read b = s.mem.read b) ∧ t = { s with mem := t.mem })

/-- 20_memory.md R73 (an inference the spec marks as derived from R71). -/
def Obligations.OverlappingAccessesSeeTheSameBytes : Prop :=
  ∀ (s : State) (a : Int), inWindow a 2 →
    (∀ (v : Word) (t : State), s.memWrite16 a v = .ok t →
      t.memRead8 a = .ok (v.extractLsb' 0 8) ∧ t.memRead8 (a + 1) = .ok (v.extractLsb' 8 8)) ∧
    (∀ (x y : Byte) (t u : State), s.memWrite8 a x = .ok t → t.memWrite8 (a + 1) y = .ok u →
      u.memRead16 a = .ok (y ++ x))

/-- 20_memory.md R78, the window of decision D7; no alignment condition (R74, D8). -/
def Obligations.AccessesOutsideTheWindowAreRefused : Prop :=
  ∀ (s : State) (a : Int) (b : Byte) (v : Word),
    (s.memRead8 a = .error .addressOutOfRange ↔ ¬ (0 ≤ a ∧ a + 1 ≤ 65536)) ∧
    (s.memRead16 a = .error .addressOutOfRange ↔ ¬ (0 ≤ a ∧ a + 2 ≤ 65536)) ∧
    (s.memWrite8 a b = .error .addressOutOfRange ↔ ¬ (0 ≤ a ∧ a + 1 ≤ 65536)) ∧
    (s.memWrite16 a v = .error .addressOutOfRange ↔ ¬ (0 ≤ a ∧ a + 2 ≤ 65536))

/-- 30_encoding.md R105, the whole table, and which operand a ModRM byte names by it, at either width. -/
def Obligations.BaseAndIndexFollowTheTable : Prop :=
  (∀ (ρ : Type) (ofCode : BitVec 3 → ρ) (m : Byte) (bs rest : List Byte) (o : RM ρ),
      resolve ofCode m bs = .ok (o, rest) → modField m ≠ 0b11 →
      if modField m = 0b00 ∧ rmField m = 0b110 then ∃ a, o = .mem (.direct a)
      else o = .mem (.plain (BaseIndex.ofCode (rmField m))) ∨ (∃ d, o = .mem (.disp8 (BaseIndex.ofCode (rmField m)) d)) ∨
        ∃ d, o = .mem (.disp16 (BaseIndex.ofCode (rmField m)) d)) ∧
    ∀ s : State,
    let row := fun (c : BitVec 3) (sum : Nat) (text : String) =>
      s.baseIndex (BaseIndex.ofCode c) = sum ∧ baseIndexText (BaseIndex.ofCode c) = text.toList
    row 0b000 ((s.r16 .bx).toNat + (s.r16 .si).toNat) "bx + si" ∧
    row 0b001 ((s.r16 .bx).toNat + (s.r16 .di).toNat) "bx + di" ∧
    row 0b010 ((s.r16 .bp).toNat + (s.r16 .si).toNat) "bp + si" ∧
    row 0b011 ((s.r16 .bp).toNat + (s.r16 .di).toNat) "bp + di" ∧
    row 0b100 (s.r16 .si).toNat "si" ∧ row 0b101 (s.r16 .di).toNat "di" ∧
    row 0b110 (s.r16 .bp).toNat "bp" ∧ row 0b111 (s.r16 .bx).toNat "bx"

/-- 20_memory.md R77; that the sum is not reduced modulo 2^16 is decision D7. -/
def Obligations.EffectiveAddressIsTheIntegerSum : Prop :=
  ∀ (s : State) (b : BaseIndex) (d : Byte) (e : Word),
    s.ea (.plain b) = s.baseIndex b ∧ s.ea (.direct e) = e.toNat ∧
    s.ea (.disp8 b d) = s.baseIndex b + (if d.toNat < 128 then (d.toNat : Int) else d.toNat - 256) ∧
    s.ea (.disp16 b e) = s.baseIndex b + (if e.toNat < 32768 then (e.toNat : Int) else e.toNat - 65536) ∧
    ∀ m, -32768 ≤ s.ea m ∧ s.ea m ≤ 0x27FFD

/-- 10_state.md R47. -/
def Obligations.MemoryBankIsOneMebibyteOfBytes : Prop :=
  (∀ m : Memory, m.image.length = 1048576 ∧ ∀ a < 1048576, m.image[a]? = some (m.read a)) ∧
    (∀ inputs : Inputs, (State.resetWith inputs).mem.image = List.replicate 1048576 0) ∧
    (∀ s t a, step s = .next t → t.mem.read a ≠ s.mem.read a → s.inputs.execute = true) ∧
    (∀ (inputs : Inputs) n a, inputs.execute = false → (run n (.resetWith inputs)).mem.read a = 0)

/-- 20_memory.md R79 (an inference the spec marks as derived from R78 and R47). -/
def Obligations.UpperBankIsNeverTouched : Prop :=
  ∀ s t a, step s = .next t → 0x10000 ≤ a → t.mem.read a = s.mem.read a

/-- 30_encoding.md R101, R102, R104 to R108, R110, R112, R119: no bit of an encoding is dropped. The opcode and register code values are the
spec's general-knowledge passages (log entry 11). -/
def Obligations.EncodedInstructionsDecodeToThemselves : Prop :=
  ∀ i : Instr, i.wf = true → ∀ rest : List Byte, decode (encode i ++ rest) = .ok (i, rest)

/-- 30_encoding.md R119, R123: the decoder accepts nothing but the encodings of the opcode table. -/
def Obligations.DecodedBytesAreTheInstructionsEncoding : Prop :=
  ∀ (bs rest : List Byte) (i : Instr), decode bs = .ok (i, rest) → i.wf = true ∧ bs = encode i ++ rest

/-- 30_encoding.md R116, R117, with the length L of R118. -/
def Obligations.TruncatedInstructionsAreReported : Prop :=
  ∀ (i : Instr) (n : Nat), i.wf = true → n < i.length → decode ((encode i).take n) = .error .truncatedInstruction

/-- 30_encoding.md R115 (decisions D2, D3, D5). -/
def Obligations.RecognizedFirstBytes : Prop :=
  (∀ b : Byte, (classify b).isSome = true ↔
      (b ≤ 0x05 ∨ (0x28 ≤ b ∧ b ≤ 0x2D) ∨ (0x38 ≤ b ∧ b ≤ 0x3D) ∨ (0x70 ≤ b ∧ b ≤ 0x7F) ∨ (0x80 ≤ b ∧ b ≤ 0x83) ∨
       (0x88 ≤ b ∧ b ≤ 0x8B) ∨ (0xB0 ≤ b ∧ b ≤ 0xBF) ∨ (0xC6 ≤ b ∧ b ≤ 0xC7) ∨ (0xE0 ≤ b ∧ b ≤ 0xE3))) ∧
    ((List.range 256).filter fun n => (classify (BitVec.ofNat 8 n)).isSome).length = 64

/-- 30_encoding.md R114, R117 (decisions D2, D3; R117 is an inference the spec marks). -/
def Obligations.UnrecognizedVerdictsComeBeforeTruncation : Prop :=
  (∀ (b : Byte) (rest : List Byte), classify b = none → decode (b :: rest) = .error .unrecognizedOpcode) ∧
    (∀ (b m : Byte) (rest : List Byte), b ∈ [0x80, 0x81, 0x82, 0x83] → regField m ∉ [0b000, 0b101, 0b111] →
      decode (b :: m :: rest) = .error .unrecognizedOpcode) ∧
    (∀ (b m : Byte) (rest : List Byte), b ∈ [0xC6, 0xC7] → regField m ≠ 0b000 →
      decode (b :: m :: rest) = .error .unrecognizedOpcode) ∧
    (∀ b : Byte, b ∈ [0x80, 0x81, 0x82, 0x83, 0xC6, 0xC7] → decode [b] = .error .truncatedInstruction)

/-- 95_test_vectors.md S1, S3, S4, X15, X24, X33, X34, X36, P2. The branch opcodes are 30_encoding.md R140, with the
opcode of each name from decision D1. -/
def Obligations.OpcodeWordsOfTheTable : Prop :=
  ∀ row ∈ ([
        ([0x89, 0xD9], .movRm16R16 (.reg .cx) .bx),
        ([0x8A, 0x60, 0x04], .movR8Rm8 .ah (.mem (.disp8 .bxSi 4))),
        ([0x8B, 0x2E, 0x05, 0x00], .movR16Rm16 .bp (.mem (.direct 5))),
        ([0xC7, 0x85, 0x85, 0x03, 0x5B, 0x01], .movRm16Imm16 (.mem (.disp16 .di 901)) 347),
        ([0xB5, 0xF4], .movR8Imm8 .ch 0xF4),
        ([0x83, 0x82, 0xE8, 0x03, 0x1D], .addRm16SImm8 (.mem (.disp16 .bpSi 1000)) 29),
        ([0x2C, 0x01], .subAlImm8 1),
        ([0x3B, 0x18], .cmpR16Rm16 .bx (.mem (.plain .bxSi))),
        ([0x75, 0xF8], .jne 0xF8),
        ([0xE2, 0xDE], .loop 0xDE),
        ([0x70, 0x80], .jo 0x80), ([0x71, 0x80], .jno 0x80), ([0x72, 0x80], .jb 0x80), ([0x73, 0x80], .jnb 0x80),
        ([0x74, 0x80], .je 0x80), ([0x75, 0x80], .jne 0x80), ([0x76, 0x80], .jbe 0x80), ([0x77, 0x80], .ja 0x80),
        ([0x78, 0x80], .js 0x80), ([0x79, 0x80], .jns 0x80), ([0x7A, 0x80], .jp 0x80), ([0x7B, 0x80], .jnp 0x80),
        ([0x7C, 0x80], .jl 0x80), ([0x7D, 0x80], .jnl 0x80), ([0x7E, 0x80], .jle 0x80), ([0x7F, 0x80], .jg 0x80),
        ([0xE0, 0x80], .loopnz 0x80), ([0xE1, 0x80], .loopz 0x80), ([0xE2, 0x80], .loop 0x80), ([0xE3, 0x80], .jcxz 0x80)]
      : List (List Byte × Instr)),
      decode row.1 = .ok (row.2, [])

/-- 40_mov.md R200, R201, R202, R205, R206; the stored bytes are at the effective address taken before the instruction (20_memory.md R77). -/
def Obligations.MovToRmCopiesTheSource : Prop :=
  ∀ s : State, s.inputs.execute = true →
    (∀ dst src, s.Readable8 dst → ∃ t, exec (.movRm8R8 dst src) s = .next t ∧
      MovDone (.movRm8R8 dst src) (Writes8 dst (s.r8 src)) s t) ∧
    (∀ dst src, s.Readable16 dst → ∃ t, exec (.movRm16R16 dst src) s = .next t ∧
      MovDone (.movRm16R16 dst src) (Writes16 dst (s.r16 src)) s t) ∧
    (∀ dst imm, s.Readable8 dst → ∃ t, exec (.movRm8Imm8 dst imm) s = .next t ∧
      MovDone (.movRm8Imm8 dst imm) (Writes8 dst imm) s t) ∧
    (∀ dst imm, s.Readable16 dst → ∃ t, exec (.movRm16Imm16 dst imm) s = .next t ∧
      MovDone (.movRm16Imm16 dst imm) (Writes16 dst imm) s t)

/-- 40_mov.md R200, R203, R204, R207, R208. -/
def Obligations.MovToRegisterCopiesTheSource : Prop :=
  ∀ s : State, s.inputs.execute = true →
    (∀ dst src, s.Readable8 src → ∃ t, exec (.movR8Rm8 dst src) s = .next t ∧
      MovDone (.movR8Rm8 dst src) (WritesReg8 dst (s.value8 src)) s t) ∧
    (∀ dst src, s.Readable16 src → ∃ t, exec (.movR16Rm16 dst src) s = .next t ∧
      MovDone (.movR16Rm16 dst src) (WritesReg16 dst (s.value16 src)) s t) ∧
    (∀ dst imm, ∃ t, exec (.movR8Imm8 dst imm) s = .next t ∧
      MovDone (.movR8Imm8 dst imm) (WritesReg8 dst imm) s t) ∧
    (∀ dst imm, ∃ t, exec (.movR16Imm16 dst imm) s = .next t ∧
      MovDone (.movR16Imm16 dst imm) (WritesReg16 dst imm) s t)

/-- 41_arith.md R220, R221, R230, R231, R236 to R239. -/
def Obligations.AddToRmStoresTheSum : Prop :=
  ∀ s : State, s.inputs.execute = true →
    (∀ dst src, s.Readable8 dst → ∃ t, exec (.addRm8R8 dst src) s = .next t ∧
      AluDone (.addRm8R8 dst src) (s.value8 dst + s.r8 src) (Writes8 dst (s.value8 dst + s.r8 src)) s t) ∧
    (∀ dst src, s.Readable16 dst → ∃ t, exec (.addRm16R16 dst src) s = .next t ∧
      AluDone (.addRm16R16 dst src) (s.value16 dst + s.r16 src) (Writes16 dst (s.value16 dst + s.r16 src)) s t) ∧
    (∀ dst imm, s.Readable8 dst → ∃ t, exec (.addRm8Imm8 dst imm) s = .next t ∧
      AluDone (.addRm8Imm8 dst imm) (s.value8 dst + imm) (Writes8 dst (s.value8 dst + imm)) s t) ∧
    (∀ dst imm, s.Readable16 dst → ∃ t, exec (.addRm16Imm16 dst imm) s = .next t ∧
      AluDone (.addRm16Imm16 dst imm) (s.value16 dst + imm) (Writes16 dst (s.value16 dst + imm)) s t) ∧
    (∀ dst imm, s.Readable8 dst → ∃ t, exec (.addRm8Imm8S dst imm) s = .next t ∧
      AluDone (.addRm8Imm8S dst imm) (s.value8 dst + imm) (Writes8 dst (s.value8 dst + imm)) s t) ∧
    (∀ dst imm, s.Readable16 dst → ∃ t, exec (.addRm16SImm8 dst imm) s = .next t ∧
      AluDone (.addRm16SImm8 dst imm) (s.value16 dst + imm.signExtend 16)
        (Writes16 dst (s.value16 dst + imm.signExtend 16)) s t)

/-- 41_arith.md R220, R232 to R235. -/
def Obligations.AddToRegisterStoresTheSum : Prop :=
  ∀ s : State, s.inputs.execute = true →
    (∀ dst src, s.Readable8 src → ∃ t, exec (.addR8Rm8 dst src) s = .next t ∧
      AluDone (.addR8Rm8 dst src) (s.r8 dst + s.value8 src) (WritesReg8 dst (s.r8 dst + s.value8 src)) s t) ∧
    (∀ dst src, s.Readable16 src → ∃ t, exec (.addR16Rm16 dst src) s = .next t ∧
      AluDone (.addR16Rm16 dst src) (s.r16 dst + s.value16 src) (WritesReg16 dst (s.r16 dst + s.value16 src)) s t) ∧
    (∀ imm, ∃ t, exec (.addAlImm8 imm) s = .next t ∧
      AluDone (.addAlImm8 imm) (s.r8 .al + imm) (WritesReg8 .al (s.r8 .al + imm)) s t) ∧
    (∀ imm, ∃ t, exec (.addAxImm16 imm) s = .next t ∧
      AluDone (.addAxImm16 imm) (s.r16 .ax + imm) (WritesReg16 .ax (s.r16 .ax + imm)) s t)

/-- 41_arith.md R220, R221, R240, R241, R246 to R249. -/
def Obligations.SubToRmStoresTheDifference : Prop :=
  ∀ s : State, s.inputs.execute = true →
    (∀ dst src, s.Readable8 dst → ∃ t, exec (.subRm8R8 dst src) s = .next t ∧
      AluDone (.subRm8R8 dst src) (s.value8 dst - s.r8 src) (Writes8 dst (s.value8 dst - s.r8 src)) s t) ∧
    (∀ dst src, s.Readable16 dst → ∃ t, exec (.subRm16R16 dst src) s = .next t ∧
      AluDone (.subRm16R16 dst src) (s.value16 dst - s.r16 src) (Writes16 dst (s.value16 dst - s.r16 src)) s t) ∧
    (∀ dst imm, s.Readable8 dst → ∃ t, exec (.subRm8Imm8 dst imm) s = .next t ∧
      AluDone (.subRm8Imm8 dst imm) (s.value8 dst - imm) (Writes8 dst (s.value8 dst - imm)) s t) ∧
    (∀ dst imm, s.Readable16 dst → ∃ t, exec (.subRm16Imm16 dst imm) s = .next t ∧
      AluDone (.subRm16Imm16 dst imm) (s.value16 dst - imm) (Writes16 dst (s.value16 dst - imm)) s t) ∧
    (∀ dst imm, s.Readable8 dst → ∃ t, exec (.subRm8Imm8S dst imm) s = .next t ∧
      AluDone (.subRm8Imm8S dst imm) (s.value8 dst - imm) (Writes8 dst (s.value8 dst - imm)) s t) ∧
    (∀ dst imm, s.Readable16 dst → ∃ t, exec (.subRm16SImm8 dst imm) s = .next t ∧
      AluDone (.subRm16SImm8 dst imm) (s.value16 dst - imm.signExtend 16)
        (Writes16 dst (s.value16 dst - imm.signExtend 16)) s t)

/-- 41_arith.md R220, R242 to R245. -/
def Obligations.SubToRegisterStoresTheDifference : Prop :=
  ∀ s : State, s.inputs.execute = true →
    (∀ dst src, s.Readable8 src → ∃ t, exec (.subR8Rm8 dst src) s = .next t ∧
      AluDone (.subR8Rm8 dst src) (s.r8 dst - s.value8 src) (WritesReg8 dst (s.r8 dst - s.value8 src)) s t) ∧
    (∀ dst src, s.Readable16 src → ∃ t, exec (.subR16Rm16 dst src) s = .next t ∧
      AluDone (.subR16Rm16 dst src) (s.r16 dst - s.value16 src) (WritesReg16 dst (s.r16 dst - s.value16 src)) s t) ∧
    (∀ imm, ∃ t, exec (.subAlImm8 imm) s = .next t ∧
      AluDone (.subAlImm8 imm) (s.r8 .al - imm) (WritesReg8 .al (s.r8 .al - imm)) s t) ∧
    (∀ imm, ∃ t, exec (.subAxImm16 imm) s = .next t ∧
      AluDone (.subAxImm16 imm) (s.r16 .ax - imm) (WritesReg16 .ax (s.r16 .ax - imm)) s t)

/-- 41_arith.md R220, R221, R250, R251, R256 to R259. -/
def Obligations.CmpOfRmTestsEquality : Prop :=
  ∀ s : State, s.inputs.execute = true →
    (∀ dst src, s.Readable8 dst → ∃ t, exec (.cmpRm8R8 dst src) s = .next t ∧
      CmpDone (.cmpRm8R8 dst src) (s.value8 dst) (s.r8 src) s t) ∧
    (∀ dst src, s.Readable16 dst → ∃ t, exec (.cmpRm16R16 dst src) s = .next t ∧
      CmpDone (.cmpRm16R16 dst src) (s.value16 dst) (s.r16 src) s t) ∧
    (∀ dst imm, s.Readable8 dst → ∃ t, exec (.cmpRm8Imm8 dst imm) s = .next t ∧
      CmpDone (.cmpRm8Imm8 dst imm) (s.value8 dst) imm s t) ∧
    (∀ dst imm, s.Readable16 dst → ∃ t, exec (.cmpRm16Imm16 dst imm) s = .next t ∧
      CmpDone (.cmpRm16Imm16 dst imm) (s.value16 dst) imm s t) ∧
    (∀ dst imm, s.Readable8 dst → ∃ t, exec (.cmpRm8Imm8S dst imm) s = .next t ∧
      CmpDone (.cmpRm8Imm8S dst imm) (s.value8 dst) imm s t) ∧
    (∀ dst imm, s.Readable16 dst → ∃ t, exec (.cmpRm16SImm8 dst imm) s = .next t ∧
      CmpDone (.cmpRm16SImm8 dst imm) (s.value16 dst) (imm.signExtend 16) s t)

/-- 41_arith.md R220, R252 to R255. -/
def Obligations.CmpOfRegisterTestsEquality : Prop :=
  ∀ s : State, s.inputs.execute = true →
    (∀ dst src, s.Readable8 src → ∃ t, exec (.cmpR8Rm8 dst src) s = .next t ∧
      CmpDone (.cmpR8Rm8 dst src) (s.r8 dst) (s.value8 src) s t) ∧
    (∀ dst src, s.Readable16 src → ∃ t, exec (.cmpR16Rm16 dst src) s = .next t ∧
      CmpDone (.cmpR16Rm16 dst src) (s.r16 dst) (s.value16 src) s t) ∧
    (∀ imm, ∃ t, exec (.cmpAlImm8 imm) s = .next t ∧ CmpDone (.cmpAlImm8 imm) (s.r8 .al) imm s t) ∧
    (∀ imm, ∃ t, exec (.cmpAxImm16 imm) s = .next t ∧ CmpDone (.cmpAxImm16 imm) (s.r16 .ax) imm s t)

/-- 41_arith.md R220, the values written as natural-number arithmetic modulo 2^W. -/
def Obligations.ArithmeticWritesDestinationAndZeroFlag : Prop :=
  ∀ (s : State) (op : AluOp),
    (∀ dst (b : Byte), s.Readable8 dst → ∃ t, s.alu8 op dst b = .ok t ∧
      t.ip = s.ip ∧ t.listing = s.listing ∧ t.status = s.status ∧ t.inputs = s.inputs ∧
      match op with
      | .add => Writes8 dst (BitVec.ofNat 8 (((s.value8 dst).toNat + b.toNat) % 256)) s t ∧
          (t.zf = true ↔ ((s.value8 dst).toNat + b.toNat) % 256 = 0)
      | .sub => Writes8 dst (BitVec.ofNat 8 (((s.value8 dst).toNat + 256 - b.toNat) % 256)) s t ∧
          (t.zf = true ↔ ((s.value8 dst).toNat + 256 - b.toNat) % 256 = 0)
      | .cmp => SameRegs s t ∧ SameMem s t ∧ (t.zf = true ↔ s.value8 dst = b)) ∧
    (∀ dst (b : Word), s.Readable16 dst → ∃ t, s.alu16 op dst b = .ok t ∧
      t.ip = s.ip ∧ t.listing = s.listing ∧ t.status = s.status ∧ t.inputs = s.inputs ∧
      match op with
      | .add => Writes16 dst (BitVec.ofNat 16 (((s.value16 dst).toNat + b.toNat) % 65536)) s t ∧
          (t.zf = true ↔ ((s.value16 dst).toNat + b.toNat) % 65536 = 0)
      | .sub => Writes16 dst (BitVec.ofNat 16 (((s.value16 dst).toNat + 65536 - b.toNat) % 65536)) s t ∧
          (t.zf = true ↔ ((s.value16 dst).toNat + 65536 - b.toNat) % 65536 = 0)
      | .cmp => SameRegs s t ∧ SameMem s t ∧ (t.zf = true ↔ s.value16 dst = b))

/-- 60_exceptions.md R403, R407 (decisions D7, D19, D20); 20_memory.md R78. -/
def Obligations.MemoryFormsTrapOutsideTheWindow : Prop :=
  ∀ (i : Instr) (m : MemOp) (n : Nat) (s : State), s.inputs.execute = true → memoryOperand i = some (m, n) →
    ¬ (0 ≤ s.ea m ∧ s.ea m + n ≤ 0x10000) →
    exec i s = .next { s with status := .fault .addressOutOfRange s.ip }

/-- 45_engine_and_listing.md R302. It holds for every instruction and every state, so no effective address enters. -/
def Obligations.DecodeOnlyModeRendersAndAdvances : Prop :=
  ∀ (i : Instr) (s : State), s.inputs.execute = false →
    exec i s = .next { s with
      listing := s.listing ++ plainLine false (recordOf i) ++ ['\n']
      ip := s.ip + i.length } ∧
    ∀ op d, recordOf i = .branch op d → plainLine false (recordOf i) = branchName op ++ [' '] ++ dec d.toInt

/-- 42_branch.md R270: no register but the cursor is read or written, no memory read, no flag written (JNE reads ZF, R271). -/
def Obligations.BranchesTouchNothingButTheCursor : Prop :=
  ∀ (op : BranchOp) (d : Byte) (s t : State),
    (∃ b : Byte, BranchOp.ofByte b = some op ∧ encode (op.instr d) = [b, d] ∧
      ∀ rest, decode (b :: d :: rest) = .ok (op.instr d, rest)) ∧
    (exec (op.instr d) s = .next t → t.regs = s.regs ∧ t.zf = s.zf ∧ t.mem = s.mem ∧
      ∀ (R : Regs) (M : Memory),
        exec (op.instr d) { s with regs := R, mem := M } = .next { t with regs := R, mem := M })

/-- 42_branch.md R272, R275 to R280, R282 to R295 (decision D12); the line is 30_encoding.md R139, R140 (decisions D11, D14), each
mnemonic written out. -/
def Obligations.BranchesOtherThanJneOnlyAdvance : Prop :=
  ∀ (d : Byte) (s : State),
    let line := fun (i : Instr) (name : String) => exec i s = .next { s with
      listing := s.listing ++ (name.toList ++ [' '] ++ dec d.toInt) ++ ['\n']
      ip := s.ip + 2 }
    line (.jo d) "jo" ∧ line (.jno d) "jno" ∧ line (.jb d) "jb" ∧ line (.jnb d) "jnb" ∧
    line (.je d) "je" ∧ line (.jbe d) "jbe" ∧ line (.ja d) "ja" ∧ line (.js d) "js" ∧
    line (.jns d) "jns" ∧ line (.jp d) "jp" ∧ line (.jnp d) "jnp" ∧ line (.jl d) "jl" ∧
    line (.jnl d) "jnl" ∧ line (.jle d) "jle" ∧ line (.jg d) "jg" ∧ line (.loopnz d) "loopnz" ∧
    line (.loopz d) "loopz" ∧ line (.loop d) "loop" ∧ line (.jcxz d) "jcxz"

/-- 42_branch.md R271, R281; the line is 30_encoding.md R139 (decision D14). -/
def Obligations.JneNotTakenAdvances : Prop :=
  ∀ (d : Byte) (s : State), s.inputs.execute = true → s.zf = true →
    exec (.jne d) s = .next { s with
      listing := s.listing ++ ("jne ".toList ++ dec (d.toInt + 2)) ++ ['\n']
      ip := s.ip + 2 }

/-- 42_branch.md R271, R281 (the bound 0..N is decision D13); C2 settles the single advance. -/
def Obligations.JneTakenJumpsRelativeToItsEnd : Prop :=
  ∀ (d : Byte) (s : State) (p : Nat), s.inputs.execute = true → s.zf = false →
    (p : Int) = s.ip + 2 + (if d.toNat < 128 then (d.toNat : Int) else d.toNat - 256) → p ≤ s.inputs.buf.length →
    exec (.jne d) s = .next { s with
      listing := s.listing ++ ("jne ".toList ++ dec (d.toInt + 2)) ++ ['\n']
      ip := p }

/-- 42_branch.md R271, 60_exceptions.md R404, R407 (decision D13). -/
def Obligations.JneOutsideTheBufferFaults : Prop :=
  ∀ (d : Byte) (s : State), s.inputs.execute = true → s.zf = false →
    (s.ip + 2 + d.toInt < 0 ∨ (s.inputs.buf.length : Int) < s.ip + 2 + d.toInt) →
    exec (.jne d) s = .next { s with status := .fault .branchTargetOutOfRange s.ip }

/-- The model's choice in two points: fault entry is a next state (log entry 5, DEDUCED from 60_exceptions.md R407 and
10_state.md R50), and `exec` does not look at the run status (log entry 7, DESIGN CHOICE: 45_engine_and_listing.md R301
gives no step in an ended state). From the spec: no encoding executes but the 58 instructions (30_encoding.md R123), the
fault kinds are those of 60_exceptions.md R400, and a decoded instruction raises at most one of two of them, which is the
spec's own inference (60_exceptions.md R410, marked derived). -/
def Obligations.EveryInstructionHasANextState : Prop :=
  ∀ (i : Instr) (s : State), ∃ t, exec i s = .next t ∧
    (t.status = s.status ∨ (s.inputs.execute = true ∧
      (t.status = .fault .addressOutOfRange s.ip ∧ (memoryOperand i).isSome = true ∨
       t.status = .fault .branchTargetOutOfRange s.ip ∧ ∃ d, i = .jne d)))

/-- 45_engine_and_listing.md R301. -/
def Obligations.StepRunsTheDecodedInstruction : Prop :=
  ∀ (s : State) (i : Instr) (rest : List Byte), s.status = .running → s.ip < s.inputs.buf.length →
    decode (s.inputs.buf.drop s.ip) = .ok (i, rest) → step s = exec i s

/-- 45_engine_and_listing.md R311, R312, 60_exceptions.md R401, R402, R407 (decisions D6, D19, D20). -/
def Obligations.DecoderVerdictsFaultOrSkip : Prop :=
  ∀ s : State, s.status = .running → s.ip < s.inputs.buf.length →
    (decode (s.inputs.buf.drop s.ip) = .error .truncatedInstruction →
      step s = .next { s with status := .fault .truncatedInstruction s.ip }) ∧
    (decode (s.inputs.buf.drop s.ip) = .error .unrecognizedOpcode → s.inputs.skipUnrecognized = false →
      step s = .next { s with status := .fault .unrecognizedOpcode s.ip }) ∧
    (decode (s.inputs.buf.drop s.ip) = .error .unrecognizedOpcode → s.inputs.skipUnrecognized = true →
      step s = .next { s with ip := s.ip + 2 })

/-- 45_engine_and_listing.md R304. -/
def Obligations.RunsEndAtTheBuffersEnd : Prop :=
  (∀ s : State, s.status = .running → s.inputs.buf.length ≤ s.ip → ∃ t, step s = .next t ∧ t.status = .done) ∧
    (∀ s t : State, s.status = .running → s.ip < s.inputs.buf.length → step s = .next t →
      (t.status = .running ∨ ∃ k, t.status = .fault k s.ip) ∧
      (s.inputs.buf.length < t.ip → s.inputs.skipUnrecognized = true ∧ s.ip + 1 = s.inputs.buf.length ∧
        decode (s.inputs.buf.drop s.ip) = .error .unrecognizedOpcode)) ∧
    (∀ inputs : Inputs, inputs.buf = [] → ∃ t, step (.resetWith inputs) = .next t ∧ t.status = .done)

/-- 45_engine_and_listing.md R301, R309, R310 (decision D18). -/
def Obligations.EndOfRunPrintsDumpAndCursor : Prop :=
  ∀ s : State, s.status = .running → s.inputs.buf.length ≤ s.ip →
    step s = .next { s with
      status := .done
      listing :=
        if s.inputs.execute then
          s.listing ++ "ax: ".toList ++ hex (s.r16 .ax).toNat ++ "\nbx: ".toList ++ hex (s.r16 .bx).toNat ++
            "\ncx: ".toList ++ hex (s.r16 .cx).toNat ++ "\ndx: ".toList ++ hex (s.r16 .dx).toNat ++
            "\nsp: ".toList ++ hex (s.r16 .sp).toNat ++ "\nbp: ".toList ++ hex (s.r16 .bp).toNat ++
            "\nsi: ".toList ++ hex (s.r16 .si).toNat ++ "\ndi: ".toList ++ hex (s.r16 .di).toNat ++
            "\nip: ".toList ++ dec s.ip ++ ['\n']
        else s.listing }

/-- The model's choice (log entry 4): 45_engine_and_listing.md R301 gives a step only "from a state with status `Running`". -/
def Obligations.EndedRunsTakeNoStep : Prop :=
  ∀ s : State, s.status ≠ .running → step s = .fault (.runEnded s.status)

/-- 60_exceptions.md R407, 45_engine_and_listing.md R303, R311 (decisions D19, D20). -/
def Obligations.FaultEntryIsPrecise : Prop :=
  ∀ (s t : State) (k : FaultKind) (p : Nat), step s = .next t → t.status = .fault k p →
    p = s.ip ∧ s.ip < s.inputs.buf.length ∧ t = { s with status := .fault k p }

/-- 10_state.md R46. It holds at every offset: there is no alignment condition. -/
def Obligations.NextCursorValue : Prop :=
  ∀ s t : State, s.status = .running → s.ip < s.inputs.buf.length → step s = .next t → t.status = .running →
    (∀ i rest, decode (s.inputs.buf.drop s.ip) = .ok (i, rest) →
      (∀ d, i = .jne d → s.inputs.execute = true → s.zf = false → (t.ip : Int) = s.ip + 2 + d.toInt) ∧
      ((∀ d, i ≠ .jne d) ∨ s.inputs.execute = false ∨ s.zf = true → t.ip = s.ip + i.length)) ∧
    (decode (s.inputs.buf.drop s.ip) = .error .unrecognizedOpcode → t.ip = s.ip + 2) ∧
    decode (s.inputs.buf.drop s.ip) ≠ .error .truncatedInstruction

/-- 42_branch.md R271, R272, R274. -/
def Obligations.OnlyJneTransfersControl : Prop :=
  ∀ (i : Instr) (s t : State), s.status = .running → exec i s = .next t → t.status = .running → t.ip ≠ s.ip + i.length →
    (∃ d, i = .jne d) ∧ s.inputs.execute = true ∧ s.zf = false

/-- 10_state.md R40 (ADD writes ZF: C1). -/
def Obligations.OnlyArithmeticWritesTheZeroFlag : Prop :=
  ∀ s t : State, step s = .next t → t.zf ≠ s.zf → s.inputs.execute = true ∧
    ∃ i rest, decode (s.inputs.buf.drop s.ip) = .ok (i, rest) ∧ isArithmetic i = true

/-- 10_state.md R40, R42. -/
def Obligations.OnlyJneReadsTheZeroFlag : Prop :=
  ∀ (i : Instr) (s t : State) (b : Bool), (∀ d, i ≠ .jne d) → exec i s = .next t →
    exec i { s with zf := b } = .next t ∨
      (t.zf = s.zf ∧ exec i { s with zf := b } = .next { t with zf := b })

/-- 20_memory.md R76, R90 (decision D10). -/
def Obligations.OnlyMemoryDestinationsStore : Prop :=
  ∀ (s t : State) (a : Nat), step s = .next t → t.mem.read a ≠ s.mem.read a → s.inputs.execute = true ∧
    ∃ i rest m n, decode (s.inputs.buf.drop s.ip) = .ok (i, rest) ∧ memoryDestination i = some (m, n) ∧
      s.ea m ≤ a ∧ (a : Int) < s.ea m + n ∧ 0 ≤ s.ea m ∧ s.ea m + n ≤ 0x10000

/-- 10_state.md R38. -/
def Obligations.DecodeOnlyStepsWriteNoRegister : Prop :=
  (∀ s t : State, step s = .next t → t.regs ≠ s.regs → s.inputs.execute = true) ∧
    (∀ (s : State) (n : Nat), s.inputs.execute = false → (run n s).regs = s.regs)

/-- 45_engine_and_listing.md R305. -/
def Obligations.HeaderOpensTheListing : Prop :=
  (∀ inputs : Inputs, (State.resetWith inputs).listing = "bits 16\n\n".toList) ∧
    (∀ (s : State) (n : Nat), "bits 16\n\n".toList <+: s.listing → "bits 16\n\n".toList <+: (run n s).listing)

/-- 45_engine_and_listing.md R306 (decision D23). -/
def Obligations.ListingGrowsByOneLine : Prop :=
  ∀ s t : State, s.status = .running → s.ip < s.inputs.buf.length → step s = .next t →
    if t.status = .running ∧ (decode (s.inputs.buf.drop s.ip)).isOk = true then
      ∃ line, '\n' ∉ line ∧ t.listing = s.listing ++ line ++ ['\n']
    else t.listing = s.listing

/-- Safety.lean, `Inv`, whose fields cite their rules. The canonical form of memory is the model's own (log entry 6). -/
def Obligations.StepKeepsTheInvariant : Prop :=
  ∀ s t : State, Inv s → step s = .next t → Inv t

/-- 70_reset_and_hazards.md R450. -/
def Obligations.ResetSatisfiesTheInvariant : Prop :=
  (∀ inputs : Inputs, Inv (.resetWith inputs)) ∧ Inv .reset

/-- 10_state.md R30, R43, R48; 20_memory.md R88 (decision D22). That they stand in State is the model's form (log entry 3). -/
def Obligations.InputsOfARunNeverChange : Prop :=
  (∀ s t : State, step s = .next t → t.inputs = s.inputs) ∧
    ∀ (s t : State) (M : Memory) (i : Instr), exec i s = .next t →
      ({ t with mem := M } : State).fetch = decode (s.inputs.buf.drop t.ip)

/-- 45_engine_and_listing.md R315; 20_memory.md R91. -/
def Obligations.DumpChangesNothing : Prop :=
  ∀ (s : State) (b : Bool) (n : Nat),
    run n { s with inputs := { s.inputs with dump := b } } =
      { run n s with inputs := { (run n s).inputs with dump := b } }

/-- 45_engine_and_listing.md R315. -/
def Obligations.DecodeOnlyRunsDependOnTheBufferOnly : Prop :=
  ∀ (s u : State) (n : Nat), s.inputs.execute = false → u.inputs.execute = false → s.inputs.buf = u.inputs.buf →
    s.inputs.skipUnrecognized = u.inputs.skipUnrecognized → s.ip = u.ip → s.listing = u.listing →
    s.status = u.status →
    (run n s).ip = (run n u).ip ∧ (run n s).listing = (run n u).listing ∧ (run n s).status = (run n u).status

/-- 45_engine_and_listing.md R302, R304, with 30_encoding.md R118: every step that does not end the run moves the cursor by at least 2. -/
def Obligations.DecodeOnlyRunsEnd : Prop :=
  ∀ (s : State) (n : Nat), s.inputs.execute = false → 0 < n → s.inputs.buf.length < s.ip + n →
    (run n s).status ≠ .running

/-- 20_memory.md R91 (decision D24). -/
def Obligations.DumpImageIsTheWholeBank : Prop :=
  ∀ s : State, (s.inputs.dump = true → ∃ bytes, s.dumpImage = some bytes ∧ bytes.length = 1048576 ∧
      ∀ a < 1048576, bytes[a]? = some (s.mem.read a)) ∧ (s.inputs.dump = false → s.dumpImage = none)

/-- 30_encoding.md R132. -/
def Obligations.ByteDisplacementText : Prop :=
  ∀ (b : BaseIndex) (d : Byte),
    memText (.plain b) = ['['] ++ baseIndexText b ++ [']'] ∧
    (d.toInt = 0 → memText (.disp8 b d) = ['['] ++ baseIndexText b ++ [']']) ∧
    (0 < d.toInt → memText (.disp8 b d) = ['['] ++ baseIndexText b ++ " + ".toList ++ dec d.toInt ++ [']']) ∧
    (d.toInt < 0 → memText (.disp8 b d) = ['['] ++ baseIndexText b ++ " - ".toList ++ dec (-d.toInt) ++ [']'])

/-- 30_encoding.md R133. -/
def Obligations.WordDisplacementText : Prop :=
  ∀ (b : BaseIndex) (d : Word),
    (0 ≤ d.toInt → memText (.disp16 b d) = ['['] ++ baseIndexText b ++ " + ".toList ++ dec d.toInt ++ [']']) ∧
    (d.toInt < 0 → memText (.disp16 b d) = ['['] ++ baseIndexText b ++ " - ".toList ++ dec (-d.toInt) ++ [']']) ∧
    memText (.disp16 b 0) = ['['] ++ baseIndexText b ++ " + 0]".toList ∧
    memText (.disp16 b 0x8000) = ['['] ++ baseIndexText b ++ " - 32768]".toList

/-- 00_scope.md R16 (the spelling of hex is decision D17). Digit values are the characters' places after 0 and a. -/
def Obligations.NumeralsReadBack : Prop :=
  let digit := fun c : Char => if c.toNat < 58 then c.toNat - 48 else c.toNat - 87
    let value := fun (base : Nat) (text : Text) => text.foldl (fun n c => n * base + digit c) 0
    (∀ n : Nat, value 10 (decNat n) = n ∧ (∀ c ∈ decNat n, '0' ≤ c ∧ c ≤ '9') ∧
      (n ≠ 0 → (decNat n).head? ≠ some '0') ∧ dec n = decNat n ∧ (n ≠ 0 → dec (-n) = '-' :: decNat n)) ∧
    (∀ n : Nat, ∃ text, hex n = '0' :: 'x' :: text ∧ value 16 text = n ∧
      (∀ c ∈ text, ('0' ≤ c ∧ c ≤ '9') ∨ ('a' ≤ c ∧ c ≤ 'f')) ∧ (n ≠ 0 → text.head? ≠ some '0')) ∧
    decNat 0 = ['0'] ∧ hex 0 = "0x0".toList

/-- 45_engine_and_listing.md R308, 42_branch.md R275, 30_encoding.md R139 (decisions D14, D17). The record of each instruction and
the names are those of OperandTextsAndRecords. -/
def Obligations.ExecuteModeLinesShowTheDestination : Prop :=
  ∀ (i : Instr) (post : State), post.inputs.execute = true →
    (∀ f r src pre, recordOf i = .twoOperand f (.reg8 r) src pre →
      render i post = plainLine false (recordOf i) ++ " => ".toList ++ nameOf8 r ++ [' '] ++ hex (post.r8 r).toNat) ∧
    (∀ f r src pre, recordOf i = .twoOperand f (.reg16 r) src pre →
      render i post = plainLine false (recordOf i) ++ " => ".toList ++ nameOf16 r ++ [' '] ++ hex (post.r16 r).toNat) ∧
    (∀ f n m src pre, recordOf i = .twoOperand f (.mem n m) src pre → render i post = plainLine false (recordOf i)) ∧
    (∀ op d, recordOf i = .branch op d →
      render i post = branchName op ++ [' '] ++ dec (if op = .jne then d.toInt + 2 else d.toInt)) ∧
    (∀ f v src pre, recordOf i ≠ .twoOperand f (.imm8 v) src pre) ∧
    (∀ f v src pre, recordOf i ≠ .twoOperand f (.imm16 v) src pre)

/-- 30_encoding.md R136, R137 (decisions D16, D30). The record of each instruction and the texts are those of
OperandTextsAndRecords. -/
def Obligations.SizePrefixOnlyOnImmediateToMemory : Prop :=
  ∀ (i : Instr) (execute : Bool) f dst src pre, recordOf i = .twoOperand f dst src pre →
    (∀ n m, dst = .mem n m → (n = 1 ∨ n = 2) ∧
      plainLine execute (recordOf i) = familyName f ++ [' '] ++
        (match src with
         | .imm8 _ => if n = 1 then "byte ".toList else "word ".toList
         | .imm16 _ => if n = 1 then "byte ".toList else "word ".toList
         | _ => []) ++ memText m ++ ", ".toList ++ operandText src) ∧
    ((∀ n m, dst ≠ .mem n m) →
      plainLine execute (recordOf i) = familyName f ++ [' '] ++ operandText dst ++ ", ".toList ++ operandText src)

/-- 30_encoding.md R130, R134, R135, R137, R138, R140, with the names of 10_state.md R32, R33 (decisions D1, D11, D15). F-IRM is the format
of R136. Texts of displacements are R132 and R133, in their own statements. -/
def Obligations.OperandTextsAndRecords : Prop :=
  (
    let reg := fun (code : BitVec 3) (r16 : Reg16) (name16 : String) (r8 : Reg8) (name8 : String) =>
      Reg16.ofCode code = r16 ∧ operandText (.reg16 r16) = name16.toList ∧ nameOf16 r16 = name16.toList ∧
        Reg8.ofCode code = r8 ∧ operandText (.reg8 r8) = name8.toList ∧ nameOf8 r8 = name8.toList
    reg 0b000 .ax "ax" .al "al" ∧ reg 0b001 .cx "cx" .cl "cl" ∧ reg 0b010 .dx "dx" .dl "dl" ∧
      reg 0b011 .bx "bx" .bl "bl" ∧ reg 0b100 .sp "sp" .ah "ah" ∧ reg 0b101 .bp "bp" .ch "ch" ∧
      reg 0b110 .si "si" .dh "dh" ∧ reg 0b111 .di "di" .bh "bh") ∧
    (∀ (n : Nat) (m : MemOp), operandText (.mem n m) = memText m) ∧
    (∀ a : Word, memText (.direct a) = ['['] ++ dec a.toNat ++ [']']) ∧
    (∀ v : Byte, operandText (.imm8 v) = dec (if v.toNat < 128 then (v.toNat : Int) else v.toNat - 256)) ∧
    (∀ v : Word, operandText (.imm16 v) = dec (if v.toNat < 32768 then (v.toNat : Int) else v.toNat - 65536)) ∧
    (∀ v : Byte, operandText (.imm16 (v.signExtend 16)) = operandText (.imm8 v)) ∧
    (familyName .mov = "mov".toList ∧ familyName .add = "add".toList ∧ familyName .sub = "sub".toList ∧
      familyName .cmp = "cmp".toList) ∧
    (∀ r m, operandOfRm8 (.reg r) = .reg8 r ∧ operandOfRm8 (.mem m) = .mem 1 m) ∧
    (∀ r m, operandOfRm16 (.reg r) = .reg16 r ∧ operandOfRm16 (.mem m) = .mem 2 m) ∧
    (∀ (o8 : RM Reg8) (o16 : RM Reg16) (r8 : Reg8) (r16 : Reg16) (v8 : Byte) (v16 : Word),
      let two := fun (i : Instr) (f : Family) (dst src : Operand) (irm : Bool) =>
        recordOf i = .twoOperand f dst src irm
      two (.movRm8R8 o8 r8) .mov (operandOfRm8 o8) (.reg8 r8) false ∧
      two (.movRm16R16 o16 r16) .mov (operandOfRm16 o16) (.reg16 r16) false ∧
      two (.movR8Rm8 r8 o8) .mov (.reg8 r8) (operandOfRm8 o8) false ∧
      two (.movR16Rm16 r16 o16) .mov (.reg16 r16) (operandOfRm16 o16) false ∧
      two (.movRm8Imm8 o8 v8) .mov (operandOfRm8 o8) (.imm8 v8) true ∧
      two (.movRm16Imm16 o16 v16) .mov (operandOfRm16 o16) (.imm16 v16) true ∧
      two (.movR8Imm8 r8 v8) .mov (.reg8 r8) (.imm8 v8) false ∧
      two (.movR16Imm16 r16 v16) .mov (.reg16 r16) (.imm16 v16) false ∧
      two (.addRm8R8 o8 r8) .add (operandOfRm8 o8) (.reg8 r8) false ∧
      two (.addRm16R16 o16 r16) .add (operandOfRm16 o16) (.reg16 r16) false ∧
      two (.addR8Rm8 r8 o8) .add (.reg8 r8) (operandOfRm8 o8) false ∧
      two (.addR16Rm16 r16 o16) .add (.reg16 r16) (operandOfRm16 o16) false ∧
      two (.addAlImm8 v8) .add (.reg8 .al) (.imm8 v8) false ∧
      two (.addAxImm16 v16) .add (.reg16 .ax) (.imm16 v16) false ∧
      two (.addRm8Imm8 o8 v8) .add (operandOfRm8 o8) (.imm8 v8) true ∧
      two (.addRm16Imm16 o16 v16) .add (operandOfRm16 o16) (.imm16 v16) true ∧
      two (.addRm8Imm8S o8 v8) .add (operandOfRm8 o8) (.imm8 v8) true ∧
      two (.addRm16SImm8 o16 v8) .add (operandOfRm16 o16) (.imm16 (v8.signExtend 16)) true ∧
      two (.subRm8R8 o8 r8) .sub (operandOfRm8 o8) (.reg8 r8) false ∧
      two (.subRm16R16 o16 r16) .sub (operandOfRm16 o16) (.reg16 r16) false ∧
      two (.subR8Rm8 r8 o8) .sub (.reg8 r8) (operandOfRm8 o8) false ∧
      two (.subR16Rm16 r16 o16) .sub (.reg16 r16) (operandOfRm16 o16) false ∧
      two (.subAlImm8 v8) .sub (.reg8 .al) (.imm8 v8) false ∧
      two (.subAxImm16 v16) .sub (.reg16 .ax) (.imm16 v16) false ∧
      two (.subRm8Imm8 o8 v8) .sub (operandOfRm8 o8) (.imm8 v8) true ∧
      two (.subRm16Imm16 o16 v16) .sub (operandOfRm16 o16) (.imm16 v16) true ∧
      two (.subRm8Imm8S o8 v8) .sub (operandOfRm8 o8) (.imm8 v8) true ∧
      two (.subRm16SImm8 o16 v8) .sub (operandOfRm16 o16) (.imm16 (v8.signExtend 16)) true ∧
      two (.cmpRm8R8 o8 r8) .cmp (operandOfRm8 o8) (.reg8 r8) false ∧
      two (.cmpRm16R16 o16 r16) .cmp (operandOfRm16 o16) (.reg16 r16) false ∧
      two (.cmpR8Rm8 r8 o8) .cmp (.reg8 r8) (operandOfRm8 o8) false ∧
      two (.cmpR16Rm16 r16 o16) .cmp (.reg16 r16) (operandOfRm16 o16) false ∧
      two (.cmpAlImm8 v8) .cmp (.reg8 .al) (.imm8 v8) false ∧
      two (.cmpAxImm16 v16) .cmp (.reg16 .ax) (.imm16 v16) false ∧
      two (.cmpRm8Imm8 o8 v8) .cmp (operandOfRm8 o8) (.imm8 v8) true ∧
      two (.cmpRm16Imm16 o16 v16) .cmp (operandOfRm16 o16) (.imm16 v16) true ∧
      two (.cmpRm8Imm8S o8 v8) .cmp (operandOfRm8 o8) (.imm8 v8) true ∧
      two (.cmpRm16SImm8 o16 v8) .cmp (operandOfRm16 o16) (.imm16 (v8.signExtend 16)) true) ∧
    ∀ d : Byte,
      let branch := fun (i : Instr) (op : BranchOp) (name : String) =>
        recordOf i = .branch op d ∧ branchName op = name.toList
      branch (.jo d) .jo "jo" ∧ branch (.jno d) .jno "jno" ∧ branch (.jb d) .jb "jb" ∧
      branch (.jnb d) .jnb "jnb" ∧ branch (.je d) .je "je" ∧ branch (.jne d) .jne "jne" ∧
      branch (.jbe d) .jbe "jbe" ∧ branch (.ja d) .ja "ja" ∧ branch (.js d) .js "js" ∧
      branch (.jns d) .jns "jns" ∧ branch (.jp d) .jp "jp" ∧ branch (.jnp d) .jnp "jnp" ∧
      branch (.jl d) .jl "jl" ∧ branch (.jnl d) .jnl "jnl" ∧ branch (.jle d) .jle "jle" ∧
      branch (.jg d) .jg "jg" ∧ branch (.loopnz d) .loopnz "loopnz" ∧ branch (.loopz d) .loopz "loopz" ∧
      branch (.loop d) .loop "loop" ∧ branch (.jcxz d) .jcxz "jcxz"
end

