-- ==== Sys2Proof/Laws/State.lean ====
section
/-! SUPPORT. One lemma per field of State per update, so that no later proof unfolds a record update. -/

namespace Sys2Proof.Machine

variable (s : State)

/-! ### setR16 -/

@[simp] theorem State.setR16_regs (r : Reg16) (v : Word) : (s.setR16 r v).regs = s.regs.set r v := rfl

@[simp] theorem State.setR16_zf (r : Reg16) (v : Word) : (s.setR16 r v).zf = s.zf := rfl

@[simp] theorem State.setR16_mem (r : Reg16) (v : Word) : (s.setR16 r v).mem = s.mem := rfl

@[simp] theorem State.setR16_ip (r : Reg16) (v : Word) : (s.setR16 r v).ip = s.ip := rfl

@[simp] theorem State.setR16_listing (r : Reg16) (v : Word) : (s.setR16 r v).listing = s.listing := rfl

@[simp] theorem State.setR16_status (r : Reg16) (v : Word) : (s.setR16 r v).status = s.status := rfl

@[simp] theorem State.setR16_inputs (r : Reg16) (v : Word) : (s.setR16 r v).inputs = s.inputs := rfl

/-! ### setR8 -/

@[simp] theorem State.setR8_regs (r : Reg8) (v : Byte) : (s.setR8 r v).regs = s.regs.set r.parent (r.putInto v (s.r16 r.parent)) := rfl

@[simp] theorem State.setR8_zf (r : Reg8) (v : Byte) : (s.setR8 r v).zf = s.zf := rfl

@[simp] theorem State.setR8_mem (r : Reg8) (v : Byte) : (s.setR8 r v).mem = s.mem := rfl

@[simp] theorem State.setR8_ip (r : Reg8) (v : Byte) : (s.setR8 r v).ip = s.ip := rfl

@[simp] theorem State.setR8_listing (r : Reg8) (v : Byte) : (s.setR8 r v).listing = s.listing := rfl

@[simp] theorem State.setR8_status (r : Reg8) (v : Byte) : (s.setR8 r v).status = s.status := rfl

@[simp] theorem State.setR8_inputs (r : Reg8) (v : Byte) : (s.setR8 r v).inputs = s.inputs := rfl

/-! ### setZf -/

@[simp] theorem State.setZf_regs (b : Bool) : (s.setZf b).regs = s.regs := rfl

@[simp] theorem State.setZf_zf (b : Bool) : (s.setZf b).zf = b := rfl

@[simp] theorem State.setZf_mem (b : Bool) : (s.setZf b).mem = s.mem := rfl

@[simp] theorem State.setZf_ip (b : Bool) : (s.setZf b).ip = s.ip := rfl

@[simp] theorem State.setZf_listing (b : Bool) : (s.setZf b).listing = s.listing := rfl

@[simp] theorem State.setZf_status (b : Bool) : (s.setZf b).status = s.status := rfl

@[simp] theorem State.setZf_inputs (b : Bool) : (s.setZf b).inputs = s.inputs := rfl

/-! ### setIp -/

@[simp] theorem State.setIp_regs (p : Nat) : (s.setIp p).regs = s.regs := rfl

@[simp] theorem State.setIp_zf (p : Nat) : (s.setIp p).zf = s.zf := rfl

@[simp] theorem State.setIp_mem (p : Nat) : (s.setIp p).mem = s.mem := rfl

@[simp] theorem State.setIp_ip (p : Nat) : (s.setIp p).ip = p := rfl

@[simp] theorem State.setIp_listing (p : Nat) : (s.setIp p).listing = s.listing := rfl

@[simp] theorem State.setIp_status (p : Nat) : (s.setIp p).status = s.status := rfl

@[simp] theorem State.setIp_inputs (p : Nat) : (s.setIp p).inputs = s.inputs := rfl

/-! ### emit -/

@[simp] theorem State.emit_regs (line : Text) : (s.emit line).regs = s.regs := rfl

@[simp] theorem State.emit_zf (line : Text) : (s.emit line).zf = s.zf := rfl

@[simp] theorem State.emit_mem (line : Text) : (s.emit line).mem = s.mem := rfl

@[simp] theorem State.emit_ip (line : Text) : (s.emit line).ip = s.ip := rfl

@[simp] theorem State.emit_listing (line : Text) : (s.emit line).listing = s.listing ++ line ++ ['\n'] := rfl

@[simp] theorem State.emit_status (line : Text) : (s.emit line).status = s.status := rfl

@[simp] theorem State.emit_inputs (line : Text) : (s.emit line).inputs = s.inputs := rfl

/-! ### setStatus -/

@[simp] theorem State.setStatus_regs (st : Status) : (s.setStatus st).regs = s.regs := rfl

@[simp] theorem State.setStatus_zf (st : Status) : (s.setStatus st).zf = s.zf := rfl

@[simp] theorem State.setStatus_mem (st : Status) : (s.setStatus st).mem = s.mem := rfl

@[simp] theorem State.setStatus_ip (st : Status) : (s.setStatus st).ip = s.ip := rfl

@[simp] theorem State.setStatus_listing (st : Status) : (s.setStatus st).listing = s.listing := rfl

@[simp] theorem State.setStatus_status (st : Status) : (s.setStatus st).status = st := rfl

@[simp] theorem State.setStatus_inputs (st : Status) : (s.setStatus st).inputs = s.inputs := rfl

/-! ### raise -/

@[simp] theorem State.raise_regs (k : FaultKind) : (s.raise k).regs = s.regs := rfl

@[simp] theorem State.raise_zf (k : FaultKind) : (s.raise k).zf = s.zf := rfl

@[simp] theorem State.raise_mem (k : FaultKind) : (s.raise k).mem = s.mem := rfl

@[simp] theorem State.raise_ip (k : FaultKind) : (s.raise k).ip = s.ip := rfl

@[simp] theorem State.raise_listing (k : FaultKind) : (s.raise k).listing = s.listing := rfl

@[simp] theorem State.raise_status (k : FaultKind) : (s.raise k).status = .fault k s.ip := rfl

@[simp] theorem State.raise_inputs (k : FaultKind) : (s.raise k).inputs = s.inputs := rfl

/-! ### retire -/

@[simp] theorem State.retire_regs (i : Instr) (p : Nat) : (s.retire i p).regs = s.regs := rfl

@[simp] theorem State.retire_zf (i : Instr) (p : Nat) : (s.retire i p).zf = s.zf := rfl

@[simp] theorem State.retire_mem (i : Instr) (p : Nat) : (s.retire i p).mem = s.mem := rfl

@[simp] theorem State.retire_ip (i : Instr) (p : Nat) : (s.retire i p).ip = p := rfl

@[simp] theorem State.retire_listing (i : Instr) (p : Nat) : (s.retire i p).listing = s.listing ++ render i s ++ ['\n'] := rfl

@[simp] theorem State.retire_status (i : Instr) (p : Nat) : (s.retire i p).status = s.status := rfl

@[simp] theorem State.retire_inputs (i : Instr) (p : Nat) : (s.retire i p).inputs = s.inputs := rfl

end Sys2Proof.Machine
end

