-- ==== Sys2Proof/Laws/Registers.lean ====
section
/-! SUPPORT. The Register File: read after write, and the halves of a word. -/

namespace Sys2Proof

@[simp] theorem lowByte_wordOfBytes (lo hi : Byte) : lowByte (wordOfBytes lo hi) = lo := by
  apply BitVec.eq_of_getLsbD_eq
  intro k hk
  simp only [wordOfBytes, lowByte, BitVec.getLsbD_append, BitVec.getLsbD_extractLsb']
  simp [hk]

@[simp] theorem highByte_wordOfBytes (lo hi : Byte) : highByte (wordOfBytes lo hi) = hi := by
  apply BitVec.eq_of_getLsbD_eq
  intro k hk
  simp only [wordOfBytes, highByte, BitVec.getLsbD_append, BitVec.getLsbD_extractLsb']
  simp [hk]

@[simp] theorem wordOfBytes_low_high (v : Word) : wordOfBytes (lowByte v) (highByte v) = v := by
  apply BitVec.eq_of_getLsbD_eq
  intro k hk
  simp only [wordOfBytes, lowByte, highByte, BitVec.getLsbD_append, BitVec.getLsbD_extractLsb']
  by_cases h : k < 8
  · simp [h]
  · have : k - 8 < 8 := by omega
    simp [h, this, show 8 + (k - 8) = k by omega]

/-- A view shows what was put into its half. -/
@[simp] theorem Reg8.viewOf_putInto (r : Reg8) (b : Byte) (v : Word) : r.viewOf (r.putInto b v) = b := by
  cases r <;> simp [viewOf, putInto, isHigh]

/-- Putting a view's half leaves the other view of the same parent. -/
theorem Reg8.viewOf_putInto_other {q r : Reg8} (h : q ≠ r) (hp : q.parent = r.parent) (b : Byte) (v : Word) :
    q.viewOf (r.putInto b v) = q.viewOf v := by
  revert h hp
  cases q <;> cases r <;> simp [viewOf, putInto, isHigh, parent]

namespace Machine

@[simp] theorem Regs.get_set_self (R : Regs) (r : Reg16) (v : Word) : (R.set r v).get r = v := by
  cases r <;> rfl

theorem Regs.get_set_other (R : Regs) {q r : Reg16} (h : q ≠ r) (v : Word) : (R.set r v).get q = R.get q := by
  cases q <;> cases r <;> first | rfl | exact absurd rfl h

/-- Two Register Files with the same values are equal. -/
theorem Regs.ext_get {R S : Regs} (h : ∀ r, R.get r = S.get r) : R = S := by
  have hax := h .ax; have hbx := h .bx; have hcx := h .cx; have hdx := h .dx
  have hsp := h .sp; have hbp := h .bp; have hsi := h .si; have hdi := h .di
  cases R; cases S
  simp_all [Regs.get]

@[simp] theorem Regs.get_reset (r : Reg16) : Regs.reset.get r = 0 := by cases r <;> rfl

variable (s : State)

@[simp] theorem State.r16_setR16_self (r : Reg16) (v : Word) : (s.setR16 r v).r16 r = v := by simp [State.r16]

theorem State.r16_setR16_other {q r : Reg16} (h : q ≠ r) (v : Word) : (s.setR16 r v).r16 q = s.r16 q := by
  simp [State.r16, Regs.get_set_other _ h]

@[simp] theorem State.r16_setR8_parent (r : Reg8) (b : Byte) :
    (s.setR8 r b).r16 r.parent = r.putInto b (s.r16 r.parent) := by simp [State.r16]

theorem State.r16_setR8_other {q : Reg16} {r : Reg8} (h : q ≠ r.parent) (b : Byte) : (s.setR8 r b).r16 q = s.r16 q := by
  simp [State.r16, Regs.get_set_other _ h]

@[simp] theorem State.r8_setR8_self (r : Reg8) (b : Byte) : (s.setR8 r b).r8 r = b := by simp [State.r8]

theorem State.r8_setR8_other {q r : Reg8} (h : q ≠ r) (b : Byte) : (s.setR8 r b).r8 q = s.r8 q := by
  by_cases hp : q.parent = r.parent
  · rw [State.r8, State.r8, hp, State.r16_setR8_parent, Reg8.viewOf_putInto_other h hp]
  · rw [State.r8, State.r8, State.r16_setR8_other s hp]

/-- A register reads from the Register File alone. -/
theorem State.r16_congr {s t : State} (h : t.regs = s.regs) (r : Reg16) : t.r16 r = s.r16 r := by
  simp [State.r16, h]

/-- A view reads from the Register File alone. -/
theorem State.r8_congr {s t : State} (h : t.regs = s.regs) (r : Reg8) : t.r8 r = s.r8 r := by
  simp [State.r8, State.r16, h]

end Machine

end Sys2Proof
end

