-- ==== Sys2Proof/Laws/Decode.lean ====
section
/-! SUPPORT. The decoder and the encoder, part by part: codes, the ModRM byte, the resolver, the classifier and the
parse of a form, each against the bytes the encoder writes. -/

namespace Sys2Proof

/-! ### Codes -/

@[simp] theorem Reg16.ofCode_code (r : Reg16) : Reg16.ofCode r.code = r := by cases r <;> rfl

@[simp] theorem Reg8.ofCode_code (r : Reg8) : Reg8.ofCode r.code = r := by cases r <;> rfl

@[simp] theorem BaseIndex.ofCode_code (b : BaseIndex) : BaseIndex.ofCode b.code = b := by cases b <;> rfl

@[simp] theorem Reg16.code_ofCode (c : BitVec 3) : (Reg16.ofCode c).code = c := by revert c; decide

@[simp] theorem Reg8.code_ofCode (c : BitVec 3) : (Reg8.ofCode c).code = c := by revert c; decide

@[simp] theorem BaseIndex.code_ofCode (c : BitVec 3) : (BaseIndex.ofCode c).code = c := by revert c; decide

@[simp] theorem AluOp.ofCode_code (op : AluOp) : AluOp.ofCode op.code = some op := by cases op <;> rfl

theorem AluOp.code_of_ofCode {c : BitVec 3} {op : AluOp} (h : AluOp.ofCode c = some op) : op.code = c := by
  revert c op; decide

/-! ### The ModRM byte -/

@[simp] theorem modField_modrmByte (mod : BitVec 2) (reg rm : BitVec 3) : modField (modrmByte mod reg rm) = mod := by
  revert mod reg rm; decide

@[simp] theorem regField_modrmByte (mod : BitVec 2) (reg rm : BitVec 3) : regField (modrmByte mod reg rm) = reg := by
  revert mod reg rm; decide

@[simp] theorem rmField_modrmByte (mod : BitVec 2) (reg rm : BitVec 3) : rmField (modrmByte mod reg rm) = rm := by
  revert mod reg rm; decide

@[simp] theorem modrmByte_fields (m : Byte) : modrmByte (modField m) (regField m) (rmField m) = m := by
  revert m; decide

/-! ### Words -/

@[simp] theorem wordBytes_wordOfBytes (lo hi : Byte) : wordBytes (wordOfBytes lo hi) = [lo, hi] := by
  simp [wordBytes]

@[simp] theorem fetch16_wordBytes (v : Word) (rest : List Byte) : fetch16 (wordBytes v ++ rest) = .ok (v, rest) := by
  simp [wordBytes, fetch16]

theorem fetch16_ok {bs rest : List Byte} {v : Word} (h : fetch16 bs = .ok (v, rest)) : bs = wordBytes v ++ rest := by
  match bs, h with
  | lo :: hi :: t, h =>
    obtain ⟨rfl, rfl⟩ := Prod.mk.inj (Except.ok.inj h)
    simp

theorem fetch8_ok {bs rest : List Byte} {v : Byte} (h : fetch8 bs = .ok (v, rest)) : bs = v :: rest := by
  match bs, h with
  | b :: t, h => obtain ⟨rfl, rfl⟩ := Prod.mk.inj (Except.ok.inj h); rfl

theorem fetch16_short {bs : List Byte} (h : bs.length < 2) : fetch16 bs = .error .truncatedInstruction := by
  match bs, h with
  | [], _ => rfl
  | [_], _ => rfl

/-- A mapped result is a success only of a success. -/
theorem Except.map_ok {ε α β : Type} {f : α → β} {x : Except ε α} {y : β} (h : x.map f = .ok y) :
    ∃ a, x = .ok a ∧ y = f a := by
  cases x with
  | ok a => exact ⟨a, rfl, (Except.ok.inj h).symm⟩
  | error e => cases h

/-! ### The resolver -/

section
variable {ρ : Type} {ofCode : BitVec 3 → ρ} {code : ρ → BitVec 3}

/-- The ModRM byte of an operand. -/
def RM.modrm (code : ρ → BitVec 3) (reg : BitVec 3) : RM ρ → Byte
  | .reg r => modrmByte 0b11 reg (code r)
  | .mem m => modrmByte m.modCode reg m.rmCode

/-- The bytes after the ModRM byte of an operand. -/
def RM.tail : RM ρ → List Byte
  | .reg _ => []
  | .mem m => m.dispBytes

theorem RM.bytes_eq (reg : BitVec 3) (o : RM ρ) : o.bytes code reg = o.modrm code reg :: o.tail := by
  cases o <;> rfl

@[simp] theorem RM.regField_modrm (reg : BitVec 3) (o : RM ρ) : regField (o.modrm code reg) = reg := by
  cases o <;> simp [RM.modrm]

@[simp] theorem RM.length_tail (o : RM ρ) : o.tail.length = o.dispLen := by
  cases o with
  | reg r => rfl
  | mem m => cases m <;> rfl

theorem RM.dispLen_le (o : RM ρ) : o.dispLen ≤ 2 := by
  cases o with
  | reg r => exact Nat.zero_le _
  | mem m => cases m <;> simp [RM.dispLen, MemOp.dispLen]

/-- `resolve`, case by case of the mode. -/
theorem resolve_modrmByte (mod : BitVec 2) (reg rm : BitVec 3) (bs : List Byte) :
    resolve ofCode (modrmByte mod reg rm) bs =
      if mod = 0b11 then .ok (.reg (ofCode rm), bs)
      else if mod = 0b00 then
        if rm = 0b110 then (fetch16 bs).map fun r => (.mem (.direct r.1), r.2)
        else .ok (.mem (.plain (BaseIndex.ofCode rm)), bs)
      else if mod = 0b01 then (fetch8 bs).map fun r => (.mem (.disp8 (BaseIndex.ofCode rm) r.1), r.2)
      else (fetch16 bs).map fun r => (.mem (.disp16 (BaseIndex.ofCode rm) r.1), r.2) := by
  simp only [resolve, modField_modrmByte, rmField_modrmByte]

/-- The resolver reads back the operand the encoder wrote. -/
theorem resolve_bytes (hc : ∀ r, ofCode (code r) = r) {o : RM ρ} (h : o.wf = true) (reg : BitVec 3)
    (rest : List Byte) : resolve ofCode (o.modrm code reg) (o.tail ++ rest) = .ok (o, rest) := by
  cases o with
  | reg r => simp [RM.modrm, RM.tail, resolve_modrmByte, hc]
  | mem m =>
    cases m with
    | plain b =>
      have hb : b.code ≠ 0b110 := by
        intro hb
        obtain rfl : b = .bp := by rw [← BaseIndex.ofCode_code b, hb]; rfl
        cases h
      have hb : b.code ≠ 6#3 := hb
      simp [RM.modrm, RM.tail, resolve_modrmByte, MemOp.modCode, MemOp.rmCode, MemOp.dispBytes, hb]
    | direct a => simp [RM.modrm, RM.tail, resolve_modrmByte, MemOp.modCode, MemOp.rmCode, MemOp.dispBytes, Except.map]
    | disp8 b d =>
      simp [RM.modrm, RM.tail, resolve_modrmByte, MemOp.modCode, MemOp.rmCode, MemOp.dispBytes, fetch8, Except.map]
    | disp16 b d =>
      simp [RM.modrm, RM.tail, resolve_modrmByte, MemOp.modCode, MemOp.rmCode, MemOp.dispBytes, Except.map]

/-- The resolver reads nothing but encodings. -/
theorem resolve_ok (hc : ∀ c, code (ofCode c) = c) {m : Byte} {bs rest : List Byte} {o : RM ρ}
    (h : resolve ofCode m bs = .ok (o, rest)) :
    o.wf = true ∧ m = o.modrm code (regField m) ∧ bs = o.tail ++ rest := by
  obtain ⟨mod, reg, rm, rfl⟩ : ∃ mod reg rm, m = modrmByte mod reg rm := ⟨_, _, _, (modrmByte_fields m).symm⟩
  rw [resolve_modrmByte] at h
  rw [regField_modrmByte]
  split_ifs at h with h1 h2 h3 h4
  · obtain ⟨rfl, rfl⟩ := Prod.mk.inj (Except.ok.inj h)
    exact ⟨rfl, by rw [RM.modrm, hc, h1], rfl⟩
  · obtain ⟨⟨a, t⟩, ha, he⟩ := Except.map_ok h
    obtain ⟨rfl, rfl⟩ := Prod.mk.inj he
    exact ⟨rfl, by rw [RM.modrm, h2, h3]; rfl, fetch16_ok ha⟩
  · obtain ⟨rfl, rfl⟩ := Prod.mk.inj (Except.ok.inj h)
    refine ⟨?_, by rw [RM.modrm, h2, MemOp.modCode, MemOp.rmCode, BaseIndex.code_ofCode], rfl⟩
    clear h
    show (MemOp.plain (BaseIndex.ofCode rm)).wf = true
    revert rm; decide
  · obtain ⟨⟨a, t⟩, ha, he⟩ := Except.map_ok h
    obtain ⟨rfl, rfl⟩ := Prod.mk.inj he
    exact ⟨rfl, by rw [RM.modrm, h4, MemOp.modCode, MemOp.rmCode, BaseIndex.code_ofCode], fetch8_ok ha⟩
  · obtain ⟨⟨a, t⟩, ha, he⟩ := Except.map_ok h
    obtain ⟨rfl, rfl⟩ := Prod.mk.inj he
    have : mod = 0b10 := by revert h1 h2 h4; revert mod; decide
    exact ⟨rfl, by rw [RM.modrm, this, MemOp.modCode, MemOp.rmCode, BaseIndex.code_ofCode], fetch16_ok ha⟩

/-- On fewer bytes than the operand has, the resolver reports a truncation. -/
theorem resolve_short {o : RM ρ} (h : o.wf = true) (reg : BitVec 3) {n : Nat} (hn : n < o.dispLen) :
    resolve ofCode (o.modrm code reg) (o.tail.take n) = .error .truncatedInstruction := by
  cases o with
  | reg r => exact absurd hn (Nat.not_lt_zero _)
  | mem m =>
    cases m with
    | plain b => exact absurd hn (Nat.not_lt_zero _)
    | direct a =>
      have := fetch16_short (bs := (wordBytes a).take n) (by simp [wordBytes]; exact Nat.le_of_lt_succ hn)
      simp [RM.modrm, RM.tail, resolve_modrmByte, MemOp.modCode, MemOp.rmCode, MemOp.dispBytes, this, Except.map]
    | disp8 b d =>
      obtain rfl : n = 0 := Nat.lt_one_iff.1 hn
      simp [RM.modrm, RM.tail, resolve_modrmByte, MemOp.modCode, MemOp.rmCode, fetch8, Except.map]
    | disp16 b d =>
      have := fetch16_short (bs := (wordBytes d).take n) (by simp [wordBytes]; exact Nat.le_of_lt_succ hn)
      simp [RM.modrm, RM.tail, resolve_modrmByte, MemOp.modCode, MemOp.rmCode, MemOp.dispBytes, this, Except.map]

/-! ### Formats -/

theorem parseRmReg_bytes (hc : ∀ r, ofCode (code r) = r) (mk : RM ρ → ρ → Instr) {o : RM ρ} (h : o.wf = true) (r : ρ)
    (rest : List Byte) : parseRmReg ofCode mk (o.bytes code (code r) ++ rest) = .ok (mk o r, rest) := by
  rw [RM.bytes_eq, List.cons_append, parseRmReg]
  simp [resolve_bytes hc h, hc, Except.map]

theorem parseRmReg_ok (hc : ∀ c, code (ofCode c) = c) {mk : RM ρ → ρ → Instr} {bs rest : List Byte} {i : Instr}
    (h : parseRmReg ofCode mk bs = .ok (i, rest)) :
    ∃ o r, i = mk o r ∧ o.wf = true ∧ bs = o.bytes code (code r) ++ rest := by
  cases bs with
  | nil => cases h
  | cons m t =>
    obtain ⟨⟨o, u⟩, ho, he⟩ := Except.map_ok h
    obtain ⟨rfl, rfl⟩ := Prod.mk.inj he
    obtain ⟨hw, hm, rfl⟩ := resolve_ok hc ho
    exact ⟨o, _, rfl, hw, by rw [RM.bytes_eq, hc, ← hm]; rfl⟩

theorem parseRmReg_short (mk : RM ρ → ρ → Instr) {o : RM ρ} (h : o.wf = true) (reg : BitVec 3) {n : Nat}
    (hn : n < 1 + o.dispLen) : parseRmReg ofCode mk ((o.bytes code reg).take n) = .error .truncatedInstruction := by
  cases n with
  | zero => rfl
  | succ n =>
    rw [RM.bytes_eq, List.take_succ_cons, parseRmReg, resolve_short h reg (by omega)]
    rfl

theorem parseRmImm8_bytes (hc : ∀ r, ofCode (code r) = r) (mk : RM ρ → Byte → Instr) {o : RM ρ} (h : o.wf = true)
    (reg : BitVec 3) (v : Byte) (rest : List Byte) :
    parseRmImm8 ofCode mk (o.modrm code reg) (o.tail ++ v :: rest) = .ok (mk o v, rest) := by
  rw [parseRmImm8, resolve_bytes hc h]
  rfl

theorem parseRmImm8_ok (hc : ∀ c, code (ofCode c) = c) {mk : RM ρ → Byte → Instr} {m : Byte} {bs rest : List Byte}
    {i : Instr} (h : parseRmImm8 ofCode mk m bs = .ok (i, rest)) :
    ∃ o v, i = mk o v ∧ o.wf = true ∧ m :: bs = o.bytes code (regField m) ++ v :: rest := by
  rw [parseRmImm8] at h
  split at h
  · cases h
  · next o t ho =>
    obtain ⟨⟨v, u⟩, hv, he⟩ := Except.map_ok h
    obtain ⟨rfl, rfl⟩ := Prod.mk.inj he
    obtain ⟨hw, hm, rfl⟩ := resolve_ok hc ho
    exact ⟨o, v, rfl, hw, by rw [RM.bytes_eq, ← hm, fetch8_ok hv]; rfl⟩

theorem parseRmImm8_short (hc : ∀ r, ofCode (code r) = r) (mk : RM ρ → Byte → Instr) {o : RM ρ} (h : o.wf = true)
    (reg : BitVec 3) (v : Byte) {n : Nat} (hn : n < o.dispLen + 1) :
    parseRmImm8 ofCode mk (o.modrm code reg) ((o.tail ++ [v]).take n) = .error .truncatedInstruction := by
  rw [parseRmImm8, List.take_append_of_le_length (by simp; omega)]
  by_cases hd : n < o.dispLen
  · rw [resolve_short h reg hd]
  · rw [List.take_of_length_le (by simp; omega), ← List.append_nil o.tail, resolve_bytes hc h]
    rfl

theorem parseRmImm16_bytes (hc : ∀ r, ofCode (code r) = r) (mk : RM ρ → Word → Instr) {o : RM ρ} (h : o.wf = true)
    (reg : BitVec 3) (v : Word) (rest : List Byte) :
    parseRmImm16 ofCode mk (o.modrm code reg) (o.tail ++ (wordBytes v ++ rest)) = .ok (mk o v, rest) := by
  rw [parseRmImm16, resolve_bytes hc h]
  simp [Except.map]

theorem parseRmImm16_ok (hc : ∀ c, code (ofCode c) = c) {mk : RM ρ → Word → Instr} {m : Byte} {bs rest : List Byte}
    {i : Instr} (h : parseRmImm16 ofCode mk m bs = .ok (i, rest)) :
    ∃ o v, i = mk o v ∧ o.wf = true ∧ m :: bs = o.bytes code (regField m) ++ (wordBytes v ++ rest) := by
  rw [parseRmImm16] at h
  split at h
  · cases h
  · next o t ho =>
    obtain ⟨⟨v, u⟩, hv, he⟩ := Except.map_ok h
    obtain ⟨rfl, rfl⟩ := Prod.mk.inj he
    obtain ⟨hw, hm, rfl⟩ := resolve_ok hc ho
    exact ⟨o, v, rfl, hw, by rw [RM.bytes_eq, ← hm, ← fetch16_ok hv]; rfl⟩

theorem parseRmImm16_short (hc : ∀ r, ofCode (code r) = r) (mk : RM ρ → Word → Instr) {o : RM ρ} (h : o.wf = true)
    (reg : BitVec 3) (v : Word) {n : Nat} (hn : n < o.dispLen + 2) :
    parseRmImm16 ofCode mk (o.modrm code reg) ((o.tail ++ wordBytes v).take n) = .error .truncatedInstruction := by
  rw [parseRmImm16]
  by_cases hd : n < o.dispLen
  · rw [List.take_append_of_le_length (by simp; omega), resolve_short h reg hd]
  · rw [List.take_append, List.take_of_length_le (by simp; omega), resolve_bytes hc h]
    simp only [fetch16_short (bs := (wordBytes v).take (n - o.tail.length)) (by simp; omega)]
    rfl
end

/-! ### The classifier -/

/-- The opcode byte of a form (30_encoding.md R101, R112). -/
def Form.opcode : Form → Byte
  | .branch op => (encode (op.instr 0)).headD 0
  | .movRmImm w => (0b1100011 : BitVec 7) ++ BitVec.ofBool w
  | .aluAccImm op w => (0b00 : BitVec 2) ++ op.code ++ (0b10 : BitVec 2) ++ BitVec.ofBool w
  | .movRmReg d w => (0b100010 : BitVec 6) ++ BitVec.ofBool d ++ BitVec.ofBool w
  | .aluRmImm s w => (0b100000 : BitVec 6) ++ BitVec.ofBool s ++ BitVec.ofBool w
  | .movRegImm w r => (0b1011 : BitVec 4) ++ BitVec.ofBool w ++ r
  | .aluRmReg op d w => (0b00 : BitVec 2) ++ op.code ++ (0b0 : BitVec 1) ++ BitVec.ofBool d ++ BitVec.ofBool w

/-- A form's opcode byte is classified as that form: no earlier pattern takes it. -/
theorem classify_opcode (f : Form) : classify f.opcode = some f := by
  cases f with
  | branch op => cases op <;> decide
  | movRmImm w => cases w <;> decide
  | aluAccImm op w => cases op <;> cases w <;> decide
  | movRmReg d w => cases d <;> cases w <;> decide
  | aluRmImm s w => cases s <;> cases w <;> decide
  | movRegImm w r => cases w <;> revert r <;> decide
  | aluRmReg op d w => cases op <;> cases d <;> cases w <;> decide

/-- A byte is classified as a form only if it is the form's opcode byte. -/
theorem opcode_of_classify {b : Byte} {f : Form} (h : classify b = some f) : f.opcode = b := by
  have all : ∀ b : Byte, (classify b).all (fun f => f.opcode == b) = true := by decide +kernel
  have := all b
  rw [h] at this
  simpa using this

/-- Decoding after an opcode byte is the parse of its form. -/
theorem decode_opcode {b : Byte} {f : Form} (h : f.opcode = b) (bs : List Byte) : decode (b :: bs) = f.parse bs := by
  rw [decode, ← h, classify_opcode]

end Sys2Proof
end

