-- ==== Sys2Proof/Laws/Memory.lean ====
section
/-! SUPPORT. The Memory Bank: read after write, and the canonical form that every operation keeps. -/

namespace Sys2Proof.Machine

theorem Memory.read_cons (c : Host.Cell) (m : Memory) (a : Nat) :
    Memory.read (c :: m) a = if c.1 = a then c.2 else m.read a := rfl

@[simp] theorem Memory.read_nil (a : Nat) : Memory.read [] a = 0 := rfl

theorem Memory.read_erase (m : Memory) (a b : Nat) :
    (m.erase a).read b = if b = a then 0 else m.read b := by
  induction m with
  | nil => simp [Memory.erase]
  | cons c m ih =>
    have ih : Memory.read (m.filter fun c => c.1 != a) b = if b = a then 0 else Memory.read m b := ih
    rw [Memory.read_cons]
    by_cases hc : c.1 = a
    · rw [Memory.erase, List.filter_cons_of_neg (by simp [hc]), ih]
      split_ifs <;> simp_all
    · rw [Memory.erase, List.filter_cons_of_pos (by simp [hc]), Memory.read_cons, ih]
      split_ifs <;> simp_all

theorem Memory.read_insert (m : Memory) (a b : Nat) (v : Byte) (hm : ∀ c ∈ m, c.1 ≠ a) :
    (m.insert a v).read b = if b = a then v else m.read b := by
  induction m with
  | nil => simp [Memory.insert, Memory.read_cons, eq_comm]
  | cons c m ih =>
    have hc : c.1 ≠ a := hm c (by simp)
    have ih := ih fun d hd => hm d (by simp [hd])
    by_cases hlt : a < c.1
    · rw [Memory.insert, if_pos hlt, Memory.read_cons]
      simp [eq_comm]
    · rw [Memory.insert, if_neg hlt, Memory.read_cons, ih, Memory.read_cons]
      split_ifs <;> simp_all

theorem Memory.mem_erase {m : Memory} {a : Nat} {c : Host.Cell} : c ∈ m.erase a ↔ c ∈ m ∧ c.1 ≠ a := by
  simp [Memory.erase]

theorem Memory.mem_insert {m : Memory} {a : Nat} {v : Byte} {c : Host.Cell} :
    c ∈ m.insert a v ↔ c = (a, v) ∨ c ∈ m := by
  induction m with
  | nil => simp [Memory.insert]
  | cons d m ih =>
    rw [Memory.insert]
    split_ifs
    · simp
    · simp only [List.mem_cons, ih]
      tauto

/-- Reading after a write, in every memory: the byte written, and every other byte as before. -/
theorem Memory.read_write (m : Memory) (a b : Nat) (v : Byte) :
    (m.write a v).read b = if b = a then v else m.read b := by
  rw [Memory.write]
  split_ifs with hv hb hb
  · rw [Memory.read_erase, if_pos hb, hv]; rfl
  · rw [Memory.read_erase, if_neg hb]
  · rw [Memory.read_insert _ _ _ _ fun c hc => (Memory.mem_erase.1 hc).2, if_pos hb]
  · rw [Memory.read_insert _ _ _ _ fun c hc => (Memory.mem_erase.1 hc).2, if_neg hb, Memory.read_erase, if_neg hb]

@[simp] theorem Memory.read_write_self (m : Memory) (a : Nat) (v : Byte) : (m.write a v).read a = v := by
  simp [Memory.read_write]

theorem Memory.read_write_other (m : Memory) {a b : Nat} (h : b ≠ a) (v : Byte) : (m.write a v).read b = m.read b := by
  simp [Memory.read_write, h]

theorem Memory.read_writeWord_low (m : Memory) (a : Nat) (v : Word) : (m.writeWord a v).read a = lowByte v := by
  simp [Memory.writeWord, Memory.read_write]

theorem Memory.read_writeWord_high (m : Memory) (a : Nat) (v : Word) :
    (m.writeWord a v).read (a + 1) = highByte v := by simp [Memory.writeWord]

theorem Memory.read_writeWord_other (m : Memory) {a b : Nat} (h : b ≠ a) (h' : b ≠ a + 1) (v : Word) :
    (m.writeWord a v).read b = m.read b := by simp [Memory.writeWord, Memory.read_write, h, h']

@[simp] theorem Memory.readWord_writeWord (m : Memory) (a : Nat) (v : Word) : (m.writeWord a v).readWord a = v := by
  rw [Memory.readWord, Memory.read_writeWord_low, Memory.read_writeWord_high, wordOfBytes_low_high]

/-! ### The canonical form -/

theorem Memory.erase_wf {m : Memory} (h : m.wf) (a : Nat) : (m.erase a).wf :=
  ⟨h.1.filter _, fun c hc => h.2 c (Memory.mem_erase.1 hc).1⟩

theorem Memory.insert_wf {m : Memory} (h : m.wf) {a : Nat} {v : Byte} (hv : v ≠ Config.resetByte)
    (ha : ∀ c ∈ m, c.1 ≠ a) : (m.insert a v).wf := by
  refine ⟨?_, fun c hc => ?_⟩
  · have hp := h.1
    clear h
    induction m with
    | nil => simp [Memory.insert]
    | cons d m ih =>
      have hd : d.1 ≠ a := ha d (by simp)
      rw [List.pairwise_cons] at hp
      rw [Memory.insert]
      split_ifs with hlt
      · refine List.pairwise_cons.2 ⟨fun c hc => ?_, List.pairwise_cons.2 hp⟩
        rcases List.mem_cons.1 hc with rfl | hc
        · exact hlt
        · exact Nat.lt_trans hlt (hp.1 c hc)
      · refine List.pairwise_cons.2 ⟨fun c hc => ?_, ih (fun c hc => ha c (by simp [hc])) hp.2⟩
        rcases Memory.mem_insert.1 hc with rfl | hc
        · exact Nat.lt_of_le_of_ne (Nat.le_of_not_lt hlt) hd
        · exact hp.1 c hc
  · rcases Memory.mem_insert.1 hc with rfl | hc
    · exact hv
    · exact h.2 c hc

/-- A byte write keeps the canonical form. -/
theorem Memory.write_wf {m : Memory} (h : m.wf) (a : Nat) (v : Byte) : (m.write a v).wf := by
  rw [Memory.write]
  split_ifs with hv
  · exact Memory.erase_wf h a
  · exact Memory.insert_wf (Memory.erase_wf h a) hv fun c hc => (Memory.mem_erase.1 hc).2

/-- A word write keeps the canonical form. -/
theorem Memory.writeWord_wf {m : Memory} (h : m.wf) (a : Nat) (v : Word) : (m.writeWord a v).wf :=
  Memory.write_wf (Memory.write_wf h a _) _ _

/-- The bank at reset is in canonical form. -/
theorem Memory.reset_wf (inputs : Inputs) : (State.resetWith inputs).mem.wf := by simp [State.resetWith, Memory.wf]

/-- An address that a byte write lists is the one written or was listed before. -/
theorem Memory.mem_write {m : Memory} {a : Nat} {v : Byte} {c : Host.Cell} (h : c ∈ m.write a v) :
    c.1 = a ∨ c ∈ m := by
  rw [Memory.write] at h
  split_ifs at h
  · exact .inr (Memory.mem_erase.1 h).1
  · rcases Memory.mem_insert.1 h with rfl | h
    · exact .inl rfl
    · exact .inr (Memory.mem_erase.1 h).1

/-- An address that a word write lists is one of the two written or was listed before. -/
theorem Memory.mem_writeWord {m : Memory} {a : Nat} {v : Word} {c : Host.Cell} (h : c ∈ m.writeWord a v) :
    c.1 = a ∨ c.1 = a + 1 ∨ c ∈ m := by
  rcases Memory.mem_write h with h | h
  · exact .inr (.inl h)
  · rcases Memory.mem_write h with h | h
    · exact .inl h
    · exact .inr (.inr h)

/-! ### Canonical memories with the same bytes are equal -/

theorem Memory.read_of_lt {m : Memory} {a : Nat} (h : ∀ c ∈ m, a < c.1) : m.read a = 0 := by
  induction m with
  | nil => rfl
  | cons c m ih =>
    rw [Memory.read_cons, if_neg (Nat.ne_of_gt (h c (by simp))), ih fun d hd => h d (by simp [hd])]

theorem Memory.wf_tail {c : Host.Cell} {m : Memory} (h : Memory.wf (c :: m)) : m.wf :=
  ⟨(List.pairwise_cons.1 h.1).2, fun d hd => h.2 d (by simp [hd])⟩

/-- The canonical form names a bank: two memories in that form that read alike are the same list. -/
theorem Memory.ext_read {m n : Memory} (hm : m.wf) (hn : n.wf) (h : ∀ a, m.read a = n.read a) : m = n := by
  induction m generalizing n with
  | nil =>
    cases n with
    | nil => rfl
    | cons d n =>
      have := h d.1
      rw [Memory.read_nil, Memory.read_cons, if_pos rfl] at this
      exact absurd this.symm (hn.2 d (by simp))
  | cons c m ih =>
    cases n with
    | nil =>
      have := h c.1
      rw [Memory.read_nil, Memory.read_cons, if_pos rfl] at this
      exact absurd this (hm.2 c (by simp))
    | cons d n =>
      have hcm := (List.pairwise_cons.1 hm.1).1
      have hdn := (List.pairwise_cons.1 hn.1).1
      have hcd : c.1 = d.1 := by
        by_contra hne
        rcases Nat.lt_or_gt_of_ne hne with hlt | hlt
        · have := h c.1
          rw [Memory.read_cons, if_pos rfl, Memory.read_of_lt (m := d :: n)] at this
          · exact hm.2 c (by simp) this
          · intro e he
            rcases List.mem_cons.1 he with rfl | he
            · exact hlt
            · exact Nat.lt_trans hlt (hdn e he)
        · have := h d.1
          rw [Memory.read_cons d, if_pos rfl, Memory.read_of_lt (m := c :: m)] at this
          · exact hn.2 d (by simp) this.symm
          · intro e he
            rcases List.mem_cons.1 he with rfl | he
            · exact hlt
            · exact Nat.lt_trans hlt (hcm e he)
      have hv : c.2 = d.2 := by
        have := h c.1
        rwa [Memory.read_cons, if_pos rfl, Memory.read_cons, if_pos hcd.symm] at this
      have hceq : c = d := Prod.ext hcd hv
      subst hceq
      congr 1
      refine ih (Memory.wf_tail hm) (Memory.wf_tail hn) fun a => ?_
      by_cases ha : c.1 = a
      · rw [Memory.read_of_lt fun e he => ha ▸ hcm e he, Memory.read_of_lt fun e he => ha ▸ hdn e he]
      · have := h a
        rwa [Memory.read_cons, if_neg ha, Memory.read_cons, if_neg ha] at this

end Sys2Proof.Machine
end

