-- ==== Sys2Proof/Laws/Operands.lean ====
section
/-! SUPPORT. What the operand operations do on admitted operands and on the others: one lemma per operation. -/

namespace Sys2Proof.Machine

variable (s : State)

/-! ### Reads -/

theorem State.readRm8_ok {o : RM Reg8} (h : s.Readable8 o) : s.readRm8 o = .ok (s.value8 o) := by
  cases o with
  | reg r => rfl
  | mem m => exact if_pos h

theorem State.readRm16_ok {o : RM Reg16} (h : s.Readable16 o) : s.readRm16 o = .ok (s.value16 o) := by
  cases o with
  | reg r => rfl
  | mem m => exact if_pos h

theorem State.readRm8_error {m : MemOp} (h : ¬ inWindow (s.ea m) 1) :
    s.readRm8 (.mem m) = .error .addressOutOfRange := if_neg h

theorem State.readRm16_error {m : MemOp} (h : ¬ inWindow (s.ea m) 2) :
    s.readRm16 (.mem m) = .error .addressOutOfRange := if_neg h

/-! ### Writes -/

/-- The state after a write to an 8-bit r/m operand. -/
def State.put8 (o : RM Reg8) (v : Byte) : State :=
  match o with
  | .reg r => s.setR8 r v
  | .mem m => { s with mem := s.mem.write (s.ea m).toNat v }

/-- The state after a write to a 16-bit r/m operand. -/
def State.put16 (o : RM Reg16) (v : Word) : State :=
  match o with
  | .reg r => s.setR16 r v
  | .mem m => { s with mem := s.mem.writeWord (s.ea m).toNat v }

theorem State.writeRm8_ok {o : RM Reg8} (h : s.Readable8 o) (v : Byte) : s.writeRm8 o v = .ok (s.put8 o v) := by
  cases o with
  | reg r => rfl
  | mem m => exact if_pos h

theorem State.writeRm16_ok {o : RM Reg16} (h : s.Readable16 o) (v : Word) :
    s.writeRm16 o v = .ok (s.put16 o v) := by
  cases o with
  | reg r => rfl
  | mem m => exact if_pos h

theorem State.writeRm8_error {m : MemOp} (h : ¬ inWindow (s.ea m) 1) (v : Byte) :
    s.writeRm8 (.mem m) v = .error .addressOutOfRange := if_neg h

theorem State.writeRm16_error {m : MemOp} (h : ¬ inWindow (s.ea m) 2) (v : Word) :
    s.writeRm16 (.mem m) v = .error .addressOutOfRange := if_neg h

section
variable (o : RM Reg8) (q : RM Reg16) (v : Byte) (w : Word)

@[simp] theorem State.put8_zf : (s.put8 o v).zf = s.zf := by cases o <;> rfl
@[simp] theorem State.put8_ip : (s.put8 o v).ip = s.ip := by cases o <;> rfl
@[simp] theorem State.put8_listing : (s.put8 o v).listing = s.listing := by cases o <;> rfl
@[simp] theorem State.put8_status : (s.put8 o v).status = s.status := by cases o <;> rfl
@[simp] theorem State.put8_inputs : (s.put8 o v).inputs = s.inputs := by cases o <;> rfl
@[simp] theorem State.put16_zf : (s.put16 q w).zf = s.zf := by cases q <;> rfl
@[simp] theorem State.put16_ip : (s.put16 q w).ip = s.ip := by cases q <;> rfl
@[simp] theorem State.put16_listing : (s.put16 q w).listing = s.listing := by cases q <;> rfl
@[simp] theorem State.put16_status : (s.put16 q w).status = s.status := by cases q <;> rfl
@[simp] theorem State.put16_inputs : (s.put16 q w).inputs = s.inputs := by cases q <;> rfl
end

/-- A write of the view writes the view and nothing else, in any state with the same registers and memory. -/
theorem WritesReg8.of_set {r : Reg8} {v : Byte} {t : State} (hr : t.regs = (s.setR8 r v).regs) (hm : t.mem = s.mem) :
    WritesReg8 r v s t where
  value := by rw [State.r8_congr hr, State.r8_setR8_self]
  views q hq := by rw [State.r8_congr hr, State.r8_setR8_other s hq]
  regs q hq := by rw [State.r16_congr hr, State.r16_setR8_other s hq]
  mem a := by rw [hm]

/-- A write of the register writes the register and nothing else, in any state with the same registers and memory. -/
theorem WritesReg16.of_set {r : Reg16} {v : Word} {t : State} (hr : t.regs = (s.setR16 r v).regs)
    (hm : t.mem = s.mem) : WritesReg16 r v s t where
  value := by rw [State.r16_congr hr, State.r16_setR16_self]
  regs q hq := by rw [State.r16_congr hr, State.r16_setR16_other s hq]
  mem a := by rw [hm]

/-- What `put8` did, in any state with its registers and memory. -/
theorem Writes8.of_put {o : RM Reg8} {v : Byte} {t : State} (hr : t.regs = (s.put8 o v).regs)
    (hm : t.mem = (s.put8 o v).mem) : Writes8 o v s t := by
  cases o with
  | reg r => exact .of_set s hr hm
  | mem m =>
    exact {
      value := by rw [hm]; exact Memory.read_write_self _ _ _
      bytes := fun b hb => by rw [hm]; exact Memory.read_write_other _ hb _
      regs := fun r => State.r16_congr (s := s) hr r }

/-- What `put16` did, in any state with its registers and memory. -/
theorem Writes16.of_put {o : RM Reg16} {v : Word} {t : State} (hr : t.regs = (s.put16 o v).regs)
    (hm : t.mem = (s.put16 o v).mem) : Writes16 o v s t := by
  cases o with
  | reg r => exact .of_set s hr hm
  | mem m =>
    exact {
      low := by rw [hm]; exact Memory.read_writeWord_low _ _ _
      high := by rw [hm]; exact Memory.read_writeWord_high _ _ _
      bytes := fun b hb hb' => by rw [hm]; exact Memory.read_writeWord_other _ hb hb' _
      regs := fun r => State.r16_congr (s := s) hr r }

/-! ### Arithmetic -/

/-- The state after the shared operation on an 8-bit destination. -/
def State.aluPut8 (op : AluOp) (o : RM Reg8) (b : Byte) : State :=
  (if op.stores then s.put8 o (op.result (s.value8 o) b) else s).setZf (zeroFlag (op.result (s.value8 o) b))

/-- The state after the shared operation on a 16-bit destination. -/
def State.aluPut16 (op : AluOp) (o : RM Reg16) (b : Word) : State :=
  (if op.stores then s.put16 o (op.result (s.value16 o) b) else s).setZf (zeroFlag (op.result (s.value16 o) b))

theorem State.alu8_ok {o : RM Reg8} (h : s.Readable8 o) (op : AluOp) (b : Byte) :
    s.alu8 op o b = .ok (s.aluPut8 op o b) := by
  rw [State.alu8, s.readRm8_ok h, State.aluPut8]
  cases op <;> simp [AluOp.stores, s.writeRm8_ok h, Except.map]

theorem State.alu16_ok {o : RM Reg16} (h : s.Readable16 o) (op : AluOp) (b : Word) :
    s.alu16 op o b = .ok (s.aluPut16 op o b) := by
  rw [State.alu16, s.readRm16_ok h, State.aluPut16]
  cases op <;> simp [AluOp.stores, s.writeRm16_ok h, Except.map]

theorem State.alu8_error {m : MemOp} (h : ¬ inWindow (s.ea m) 1) (op : AluOp) (b : Byte) :
    s.alu8 op (.mem m) b = .error .addressOutOfRange := by rw [State.alu8, s.readRm8_error h]

theorem State.alu16_error {m : MemOp} (h : ¬ inWindow (s.ea m) 2) (op : AluOp) (b : Word) :
    s.alu16 op (.mem m) b = .error .addressOutOfRange := by rw [State.alu16, s.readRm16_error h]

theorem State.aluFrom8_ok {o : RM Reg8} (h : s.Readable8 o) (op : AluOp) (r : Reg8) :
    s.aluFrom8 op r o = .ok (s.aluPut8 op (.reg r) (s.value8 o)) := by
  rw [State.aluFrom8, s.readRm8_ok h]
  exact s.alu8_ok (o := .reg r) trivial op _

theorem State.aluFrom16_ok {o : RM Reg16} (h : s.Readable16 o) (op : AluOp) (r : Reg16) :
    s.aluFrom16 op r o = .ok (s.aluPut16 op (.reg r) (s.value16 o)) := by
  rw [State.aluFrom16, s.readRm16_ok h]
  exact s.alu16_ok (o := .reg r) trivial op _

theorem State.aluFrom8_error {m : MemOp} (h : ¬ inWindow (s.ea m) 1) (op : AluOp) (r : Reg8) :
    s.aluFrom8 op r (.mem m) = .error .addressOutOfRange := by rw [State.aluFrom8, s.readRm8_error h]

theorem State.aluFrom16_error {m : MemOp} (h : ¬ inWindow (s.ea m) 2) (op : AluOp) (r : Reg16) :
    s.aluFrom16 op r (.mem m) = .error .addressOutOfRange := by rw [State.aluFrom16, s.readRm16_error h]

theorem State.load8_ok {o : RM Reg8} (h : s.Readable8 o) (r : Reg8) : s.load8 r o = .ok (s.setR8 r (s.value8 o)) := by
  rw [State.load8, s.readRm8_ok h, Except.map]

theorem State.load16_ok {o : RM Reg16} (h : s.Readable16 o) (r : Reg16) :
    s.load16 r o = .ok (s.setR16 r (s.value16 o)) := by
  rw [State.load16, s.readRm16_ok h, Except.map]

theorem State.load8_error {m : MemOp} (h : ¬ inWindow (s.ea m) 1) (r : Reg8) :
    s.load8 r (.mem m) = .error .addressOutOfRange := by rw [State.load8, s.readRm8_error h, Except.map]

theorem State.load16_error {m : MemOp} (h : ¬ inWindow (s.ea m) 2) (r : Reg16) :
    s.load16 r (.mem m) = .error .addressOutOfRange := by rw [State.load16, s.readRm16_error h, Except.map]

section
variable (op : AluOp) (o : RM Reg8) (q : RM Reg16) (v : Byte) (w : Word)

@[simp] theorem State.aluPut8_zf : (s.aluPut8 op o v).zf = zeroFlag (op.result (s.value8 o) v) := rfl
@[simp] theorem State.aluPut16_zf : (s.aluPut16 op q w).zf = zeroFlag (op.result (s.value16 q) w) := rfl
@[simp] theorem State.aluPut8_ip : (s.aluPut8 op o v).ip = s.ip := by cases op <;> simp [aluPut8, AluOp.stores]
@[simp] theorem State.aluPut16_ip : (s.aluPut16 op q w).ip = s.ip := by cases op <;> simp [aluPut16, AluOp.stores]
@[simp] theorem State.aluPut8_listing : (s.aluPut8 op o v).listing = s.listing := by
  cases op <;> simp [aluPut8, AluOp.stores]
@[simp] theorem State.aluPut16_listing : (s.aluPut16 op q w).listing = s.listing := by
  cases op <;> simp [aluPut16, AluOp.stores]
@[simp] theorem State.aluPut8_status : (s.aluPut8 op o v).status = s.status := by
  cases op <;> simp [aluPut8, AluOp.stores]
@[simp] theorem State.aluPut16_status : (s.aluPut16 op q w).status = s.status := by
  cases op <;> simp [aluPut16, AluOp.stores]
@[simp] theorem State.aluPut8_inputs : (s.aluPut8 op o v).inputs = s.inputs := by
  cases op <;> simp [aluPut8, AluOp.stores]
@[simp] theorem State.aluPut16_inputs : (s.aluPut16 op q w).inputs = s.inputs := by
  cases op <;> simp [aluPut16, AluOp.stores]
end

@[simp] theorem zeroFlag_eq_true {w : Nat} (r : BitVec w) : zeroFlag r = true ↔ r = 0 := by simp [zeroFlag]

end Sys2Proof.Machine
end

