-- ==== Sys2Proof/Laws/Engine.lean ====
section
/-! SUPPORT. What an instruction can do, said once: the inversion lemma of `exec`, from the lemmas of the shared
operations. -/

namespace Sys2Proof.Machine

/-- A line is a function of the record, the mode and, for the suffix, the registers after the instruction. -/
theorem render_congr (i : Instr) {s t : State} (hr : t.regs = s.regs)
    (he : t.inputs.execute = s.inputs.execute) : render i t = render i s := by
  have h8 := State.r8_congr hr
  have h16 := State.r16_congr hr
  have : suffix t (recordOf i) = suffix s (recordOf i) := by
    cases recordOf i with
    | branch op d => rfl
    | twoOperand f dst src pre => cases dst <;> simp [suffix, h8, h16]
  rw [render, render, he, this]

/-- An effect that succeeds in execute mode completes the instruction. -/
theorem perform_next {i : Instr} {s post : State} {effect : State → Except FaultKind State}
    (hx : exec i s = perform i effect s) (he : s.inputs.execute = true) (h : effect s = .ok post) :
    exec i s = .next (post.retire i (s.ip + i.length)) := by
  rw [hx, perform, if_pos he, h]

/-- Completion leaves what the effect left and adds the line and the cursor. -/
theorem Completed.of_retire {i : Instr} {s post : State} (next : Nat) (hl : post.listing = s.listing)
    (hs : post.status = s.status) (hi : post.inputs = s.inputs) : Completed i next s (post.retire i next) where
  ip := rfl
  listing := by rw [State.retire_listing, hl, render_congr i (s := post) (t := post.retire i next) rfl rfl]
  status := hs
  inputs := hi

/-- What the effect of a completed instruction may have done to the state before completion. -/
structure Effect (i : Instr) (s post : State) : Prop where
  ip : post.ip = s.ip
  listing : post.listing = s.listing
  status : post.status = s.status
  inputs : post.inputs = s.inputs
  zf : post.zf = s.zf ∨ isArithmetic i = true
  mem : post.mem = s.mem ∨
    (∃ m v, memoryDestination i = some (m, 1) ∧ inWindow (s.ea m) 1 ∧ post.mem = s.mem.write (s.ea m).toNat v) ∨
    ∃ m v, memoryDestination i = some (m, 2) ∧ inWindow (s.ea m) 2 ∧ post.mem = s.mem.writeWord (s.ea m).toNat v

/-- The memory access of the instruction, where it has one, is inside the window. -/
def Admitted (i : Instr) (s : State) : Prop := ∀ m n, memoryOperand i = some (m, n) → inWindow (s.ea m) n

/-- Everything `exec` can do: complete in execute mode after an effect; take AddressOutOfRange; complete in
decode-only mode; or, for JNE alone, jump or take BranchTargetOutOfRange. -/
inductive ExecCase (i : Instr) (s : State) : Prop
  | effect (post : State) (he : s.inputs.execute = true) (h : Effect i s post) (ha : Admitted i s)
      (hj : ∀ d, i = .jne d → s.zf = true) (hx : exec i s = .next (post.retire i (s.ip + i.length)))
  | outside (m : MemOp) (n : Nat) (he : s.inputs.execute = true) (hm : memoryOperand i = some (m, n))
      (hw : ¬ inWindow (s.ea m) n) (hx : exec i s = .next (s.raise .addressOutOfRange))
  | decodeOnly (he : s.inputs.execute = false) (hx : exec i s = .next (s.retire i (s.ip + i.length)))
  | jump (d : Byte) (hi : i = .jne d) (he : s.inputs.execute = true) (hz : s.zf = false) (h0 : 0 ≤ s.branchTarget d)
      (hN : s.branchTarget d ≤ s.inputs.buf.length) (hx : exec i s = .next (s.retire i (s.branchTarget d).toNat))
  | jumpOutside (d : Byte) (hi : i = .jne d) (he : s.inputs.execute = true) (hz : s.zf = false)
      (h : ¬ (0 ≤ s.branchTarget d ∧ s.branchTarget d ≤ s.inputs.buf.length))
      (hx : exec i s = .next (s.raise .branchTargetOutOfRange))

/-- The effect that changes nothing. -/
theorem Effect.refl (i : Instr) (s : State) : Effect i s s := ⟨rfl, rfl, rfl, rfl, .inl rfl, .inl rfl⟩

/-- An effect on the flag and registers alone. -/
theorem Effect.of_put8 {i : Instr} {s : State} {o : RM Reg8} (v : Byte) (hw : s.Readable8 o)
    (hd : ∀ m, o = .mem m → memoryDestination i = some (m, 1)) : Effect i s (s.put8 o v) := by
  refine ⟨by simp, by simp, by simp, by simp, .inl (by simp), ?_⟩
  cases o with
  | reg r => exact .inl rfl
  | mem m => exact .inr (.inl ⟨m, v, hd m rfl, hw, rfl⟩)

theorem Effect.of_put16 {i : Instr} {s : State} {o : RM Reg16} (v : Word) (hw : s.Readable16 o)
    (hd : ∀ m, o = .mem m → memoryDestination i = some (m, 2)) : Effect i s (s.put16 o v) := by
  refine ⟨by simp, by simp, by simp, by simp, .inl (by simp), ?_⟩
  cases o with
  | reg r => exact .inl rfl
  | mem m => exact .inr (.inr ⟨m, v, hd m rfl, hw, rfl⟩)

/-- Writing the flag after an effect of an arithmetic instruction. -/
theorem Effect.setZf {i : Instr} {s post : State} (h : Effect i s post) (ha : isArithmetic i = true) (b : Bool) :
    Effect i s (post.setZf b) := ⟨h.ip, h.listing, h.status, h.inputs, .inr ha, h.mem⟩

theorem Effect.of_alu8 {i : Instr} {s : State} {op : AluOp} {o : RM Reg8} (v : Byte) (hw : s.Readable8 o)
    (ha : isArithmetic i = true) (hd : op.stores = true → ∀ m, o = .mem m → memoryDestination i = some (m, 1)) :
    Effect i s (s.aluPut8 op o v) := by
  rw [State.aluPut8]
  refine Effect.setZf ?_ ha _
  split_ifs with hs
  · exact .of_put8 _ hw (hd hs)
  · exact .refl i s

theorem Effect.of_alu16 {i : Instr} {s : State} {op : AluOp} {o : RM Reg16} (v : Word) (hw : s.Readable16 o)
    (ha : isArithmetic i = true) (hd : op.stores = true → ∀ m, o = .mem m → memoryDestination i = some (m, 2)) :
    Effect i s (s.aluPut16 op o v) := by
  rw [State.aluPut16]
  refine Effect.setZf ?_ ha _
  split_ifs with hs
  · exact .of_put16 _ hw (hd hs)
  · exact .refl i s

/-- The outcome of `perform`, in the three cases it has. -/
theorem ExecCase.of_perform {i : Instr} {s : State} {effect : State → Except FaultKind State}
    (hx : exec i s = perform i effect s) (hj : ∀ d, i ≠ .jne d)
    (h : (∃ post, effect s = .ok post ∧ Effect i s post ∧ Admitted i s) ∨
      ∃ m n, effect s = .error .addressOutOfRange ∧ memoryOperand i = some (m, n) ∧ ¬ inWindow (s.ea m) n) :
    ExecCase i s := by
  rw [perform] at hx
  by_cases he : s.inputs.execute = true
  · rw [if_pos he] at hx
    rcases h with ⟨post, hp, h, ha⟩ | ⟨m, n, hp, hm, hw⟩
    · exact .effect post he h ha (fun d hd => absurd hd (hj d)) (by rw [hx, hp])
    · exact .outside m n he hm hw (by rw [hx, hp])
  · rw [if_neg he] at hx
    exact .decodeOnly (by simpa using he) hx

/-- An instruction without memory operand is admitted. -/
theorem Admitted.of_none {i : Instr} {s : State} (h : memoryOperand i = none) : Admitted i s := by
  intro m n hm
  rw [h] at hm
  cases hm

theorem Admitted.of_rm8 {i : Instr} {s : State} {o : RM Reg8} (ho : memoryOperand i = operandMemory (operandOfRm8 o))
    (hw : s.Readable8 o) : Admitted i s := by
  intro m n hm
  rw [ho] at hm
  cases o with
  | reg r => cases hm
  | mem m => cases hm; exact hw

theorem Admitted.of_rm16 {i : Instr} {s : State} {o : RM Reg16}
    (ho : memoryOperand i = operandMemory (operandOfRm16 o)) (hw : s.Readable16 o) : Admitted i s := by
  intro m n hm
  rw [ho] at hm
  cases o with
  | reg r => cases hm
  | mem m => cases hm; exact hw

/-- A branch that only advances. -/
theorem ExecCase.of_passBy {i : Instr} {s : State} (hx : exec i s = passBy i s) (hm : memoryOperand i = none)
    (hj : ∀ d, i = .jne d → ¬ (s.inputs.execute = true ∧ s.zf = false)) : ExecCase i s := by
  by_cases he : s.inputs.execute = true
  · exact .effect s he (.refl i s) (.of_none hm) (fun d hd => by simpa [he] using hj d hd) hx
  · exact .decodeOnly (by simpa using he) hx

section
variable {i : Instr} {s : State}

theorem ExecCase.of_write8 {o : RM Reg8} (v : State → Byte)
    (hx : exec i s = perform i (fun s => s.writeRm8 o (v s)) s)
    (hd : ∀ m, o = .mem m → memoryDestination i = some (m, 1))
    (ho : memoryOperand i = operandMemory (operandOfRm8 o)) (hj : ∀ d, i ≠ .jne d) : ExecCase i s := by
  refine .of_perform hx hj ?_
  by_cases hw : s.Readable8 o
  · exact .inl ⟨_, s.writeRm8_ok hw _, .of_put8 _ hw hd, .of_rm8 ho hw⟩
  · cases o with
    | reg r => exact absurd trivial hw
    | mem m => exact .inr ⟨m, 1, s.writeRm8_error hw _, ho, hw⟩

theorem ExecCase.of_write16 {o : RM Reg16} (v : State → Word)
    (hx : exec i s = perform i (fun s => s.writeRm16 o (v s)) s)
    (hd : ∀ m, o = .mem m → memoryDestination i = some (m, 2))
    (ho : memoryOperand i = operandMemory (operandOfRm16 o)) (hj : ∀ d, i ≠ .jne d) : ExecCase i s := by
  refine .of_perform hx hj ?_
  by_cases hw : s.Readable16 o
  · exact .inl ⟨_, s.writeRm16_ok hw _, .of_put16 _ hw hd, .of_rm16 ho hw⟩
  · cases o with
    | reg r => exact absurd trivial hw
    | mem m => exact .inr ⟨m, 2, s.writeRm16_error hw _, ho, hw⟩

theorem ExecCase.of_load8 {o : RM Reg8} {r : Reg8} (hx : exec i s = perform i (fun s => s.load8 r o) s)
    (ho : memoryOperand i = operandMemory (operandOfRm8 o)) (hj : ∀ d, i ≠ .jne d) : ExecCase i s := by
  refine .of_perform hx hj ?_
  by_cases hw : s.Readable8 o
  · exact .inl ⟨_, s.load8_ok hw _, .of_put8 (o := .reg r) _ trivial (by simp), .of_rm8 ho hw⟩
  · cases o with
    | reg r => exact absurd trivial hw
    | mem m => exact .inr ⟨m, 1, s.load8_error hw _, ho, hw⟩

theorem ExecCase.of_load16 {o : RM Reg16} {r : Reg16} (hx : exec i s = perform i (fun s => s.load16 r o) s)
    (ho : memoryOperand i = operandMemory (operandOfRm16 o)) (hj : ∀ d, i ≠ .jne d) : ExecCase i s := by
  refine .of_perform hx hj ?_
  by_cases hw : s.Readable16 o
  · exact .inl ⟨_, s.load16_ok hw _, .of_put16 (o := .reg r) _ trivial (by simp), .of_rm16 ho hw⟩
  · cases o with
    | reg r => exact absurd trivial hw
    | mem m => exact .inr ⟨m, 2, s.load16_error hw _, ho, hw⟩

theorem ExecCase.of_set8 {r : Reg8} (v : Byte) (hx : exec i s = perform i (fun s => .ok (s.setR8 r v)) s)
    (hm : memoryOperand i = none) (hj : ∀ d, i ≠ .jne d) : ExecCase i s :=
  .of_perform hx hj (.inl ⟨_, rfl, .of_put8 (o := .reg r) _ trivial (by simp), .of_none hm⟩)

theorem ExecCase.of_set16 {r : Reg16} (v : Word) (hx : exec i s = perform i (fun s => .ok (s.setR16 r v)) s)
    (hm : memoryOperand i = none) (hj : ∀ d, i ≠ .jne d) : ExecCase i s :=
  .of_perform hx hj (.inl ⟨_, rfl, .of_put16 (o := .reg r) _ trivial (by simp), .of_none hm⟩)

theorem ExecCase.of_alu8 {op : AluOp} {o : RM Reg8} (v : State → Byte)
    (hx : exec i s = perform i (fun s => s.alu8 op o (v s)) s) (ha : isArithmetic i = true)
    (hd : op.stores = true → ∀ m, o = .mem m → memoryDestination i = some (m, 1))
    (ho : memoryOperand i = operandMemory (operandOfRm8 o)) (hj : ∀ d, i ≠ .jne d) : ExecCase i s := by
  refine .of_perform hx hj ?_
  by_cases hw : s.Readable8 o
  · exact .inl ⟨_, s.alu8_ok hw _ _, .of_alu8 _ hw ha hd, .of_rm8 ho hw⟩
  · cases o with
    | reg r => exact absurd trivial hw
    | mem m => exact .inr ⟨m, 1, s.alu8_error hw _ _, ho, hw⟩

theorem ExecCase.of_alu16 {op : AluOp} {o : RM Reg16} (v : State → Word)
    (hx : exec i s = perform i (fun s => s.alu16 op o (v s)) s) (ha : isArithmetic i = true)
    (hd : op.stores = true → ∀ m, o = .mem m → memoryDestination i = some (m, 2))
    (ho : memoryOperand i = operandMemory (operandOfRm16 o)) (hj : ∀ d, i ≠ .jne d) : ExecCase i s := by
  refine .of_perform hx hj ?_
  by_cases hw : s.Readable16 o
  · exact .inl ⟨_, s.alu16_ok hw _ _, .of_alu16 _ hw ha hd, .of_rm16 ho hw⟩
  · cases o with
    | reg r => exact absurd trivial hw
    | mem m => exact .inr ⟨m, 2, s.alu16_error hw _ _, ho, hw⟩

theorem ExecCase.of_aluFrom8 {op : AluOp} {o : RM Reg8} {r : Reg8}
    (hx : exec i s = perform i (fun s => s.aluFrom8 op r o) s) (ha : isArithmetic i = true)
    (ho : memoryOperand i = operandMemory (operandOfRm8 o)) (hj : ∀ d, i ≠ .jne d) : ExecCase i s := by
  refine .of_perform hx hj ?_
  by_cases hw : s.Readable8 o
  · exact .inl ⟨_, s.aluFrom8_ok hw _ _, .of_alu8 (o := .reg r) _ trivial ha (by simp), .of_rm8 ho hw⟩
  · cases o with
    | reg r => exact absurd trivial hw
    | mem m => exact .inr ⟨m, 1, s.aluFrom8_error hw _ _, ho, hw⟩

theorem ExecCase.of_aluFrom16 {op : AluOp} {o : RM Reg16} {r : Reg16}
    (hx : exec i s = perform i (fun s => s.aluFrom16 op r o) s) (ha : isArithmetic i = true)
    (ho : memoryOperand i = operandMemory (operandOfRm16 o)) (hj : ∀ d, i ≠ .jne d) : ExecCase i s := by
  refine .of_perform hx hj ?_
  by_cases hw : s.Readable16 o
  · exact .inl ⟨_, s.aluFrom16_ok hw _ _, .of_alu16 (o := .reg r) _ trivial ha (by simp), .of_rm16 ho hw⟩
  · cases o with
    | reg r => exact absurd trivial hw
    | mem m => exact .inr ⟨m, 2, s.aluFrom16_error hw _ _, ho, hw⟩

theorem ExecCase.of_jne (d : Byte) : ExecCase (.jne d) s := by
  by_cases h : s.inputs.execute = true ∧ s.zf = false
  · have hx : exec (.jne d) s = takeBranch (.jne d) d s := if_pos h
    rw [takeBranch] at hx
    by_cases ht : 0 ≤ s.branchTarget d ∧ s.branchTarget d ≤ s.inputs.buf.length
    · exact .jump d rfl h.1 h.2 ht.1 ht.2 (by rw [hx, if_pos ht])
    · exact .jumpOutside d rfl h.1 h.2 ht (by rw [hx, if_neg ht])
  · exact .of_passBy (show execJne d s = _ from if_neg h) rfl fun _ _ => h

end

/-- Every instruction in every state does one of the five things. -/
theorem exec_cases (i : Instr) (s : State) : ExecCase i s := by
  cases i with
  | movRm8R8 o r => exact .of_write8 (fun s => s.r8 r) rfl (by rintro m rfl; rfl) (by cases o <;> rfl) nofun
  | movRm16R16 o r => exact .of_write16 (fun s => s.r16 r) rfl (by rintro m rfl; rfl) (by cases o <;> rfl) nofun
  | movR8Rm8 r o => exact .of_load8 rfl (by cases o <;> rfl) nofun
  | movR16Rm16 r o => exact .of_load16 rfl (by cases o <;> rfl) nofun
  | movRm8Imm8 o v => exact .of_write8 (fun _ => v) rfl (by rintro m rfl; rfl) (by cases o <;> rfl) nofun
  | movRm16Imm16 o v => exact .of_write16 (fun _ => v) rfl (by rintro m rfl; rfl) (by cases o <;> rfl) nofun
  | movR8Imm8 r v => exact .of_set8 v rfl rfl nofun
  | movR16Imm16 r v => exact .of_set16 v rfl rfl nofun
  | addRm8R8 o r | subRm8R8 o r =>
    exact .of_alu8 (fun s => s.r8 r) rfl rfl (by rintro - m rfl; rfl) (by cases o <;> rfl) nofun
  | cmpRm8R8 o r => exact .of_alu8 (fun s => s.r8 r) rfl rfl (by rintro ⟨⟩) (by cases o <;> rfl) nofun
  | addRm16R16 o r | subRm16R16 o r =>
    exact .of_alu16 (fun s => s.r16 r) rfl rfl (by rintro - m rfl; rfl) (by cases o <;> rfl) nofun
  | cmpRm16R16 o r => exact .of_alu16 (fun s => s.r16 r) rfl rfl (by rintro ⟨⟩) (by cases o <;> rfl) nofun
  | addR8Rm8 r o | subR8Rm8 r o | cmpR8Rm8 r o => exact .of_aluFrom8 rfl rfl (by cases o <;> rfl) nofun
  | addR16Rm16 r o | subR16Rm16 r o | cmpR16Rm16 r o => exact .of_aluFrom16 rfl rfl (by cases o <;> rfl) nofun
  | addAlImm8 v =>
    exact .of_alu8 (op := .add) (o := .reg .al) (fun _ => v) rfl rfl (by rintro - m ⟨⟩) rfl nofun
  | subAlImm8 v =>
    exact .of_alu8 (op := .sub) (o := .reg .al) (fun _ => v) rfl rfl (by rintro - m ⟨⟩) rfl nofun
  | cmpAlImm8 v =>
    exact .of_alu8 (op := .cmp) (o := .reg .al) (fun _ => v) rfl rfl (by rintro - m ⟨⟩) rfl nofun
  | addAxImm16 v =>
    exact .of_alu16 (op := .add) (o := .reg .ax) (fun _ => v) rfl rfl (by rintro - m ⟨⟩) rfl nofun
  | subAxImm16 v =>
    exact .of_alu16 (op := .sub) (o := .reg .ax) (fun _ => v) rfl rfl (by rintro - m ⟨⟩) rfl nofun
  | cmpAxImm16 v =>
    exact .of_alu16 (op := .cmp) (o := .reg .ax) (fun _ => v) rfl rfl (by rintro - m ⟨⟩) rfl nofun
  | addRm8Imm8 o v | subRm8Imm8 o v | addRm8Imm8S o v | subRm8Imm8S o v =>
    exact .of_alu8 (fun _ => v) rfl rfl (by rintro - m rfl; rfl) (by cases o <;> rfl) nofun
  | cmpRm8Imm8 o v | cmpRm8Imm8S o v =>
    exact .of_alu8 (fun _ => v) rfl rfl (by rintro ⟨⟩) (by cases o <;> rfl) nofun
  | addRm16Imm16 o v | subRm16Imm16 o v =>
    exact .of_alu16 (fun _ => v) rfl rfl (by rintro - m rfl; rfl) (by cases o <;> rfl) nofun
  | cmpRm16Imm16 o v => exact .of_alu16 (fun _ => v) rfl rfl (by rintro ⟨⟩) (by cases o <;> rfl) nofun
  | addRm16SImm8 o v | subRm16SImm8 o v =>
    exact .of_alu16 (fun _ => signExtendImm v) rfl rfl (by rintro - m rfl; rfl) (by cases o <;> rfl) nofun
  | cmpRm16SImm8 o v => exact .of_alu16 (fun _ => signExtendImm v) rfl rfl (by rintro ⟨⟩) (by cases o <;> rfl) nofun
  | jne d => exact .of_jne d
  | jo d | jno d | jb d | jnb d | je d | jbe d | ja d | js d | jns d | jp d | jnp d | jl d | jnl d | jle d | jg d
  | loopnz d | loopz d | loop d | jcxz d => exact .of_passBy rfl rfl nofun

end Sys2Proof.Machine
end

