-- ==== Sys2Proof/Laws/PerInstr.lean ====
section
/-! SUPPORT. Statements made per instruction: an encoding has the length that 30_encoding.md R118 gives, 2 to 6
bytes. -/

namespace Sys2Proof.Laws.EncodedLength

/-- 30_encoding.md R118. -/
def Statement (i : Instr) : Prop := (encode i).length = i.length ∧ 2 ≤ i.length ∧ i.length ≤ Config.maxLength

/-- The length of an r/m operand's bytes. -/
theorem length_bytes {ρ : Type} (code : ρ → BitVec 3) (reg : BitVec 3) (o : RM ρ) :
    (o.bytes code reg).length = 1 + o.dispLen := by
  rw [RM.bytes_eq, List.length_cons, RM.length_tail, Nat.add_comm]

/-- Opcode and r/m operand, with an immediate of `k` bytes. -/
theorem of_rm {ρ : Type} {i : Instr} {code : ρ → BitVec 3} {reg : BitVec 3} {o : RM ρ} {b : Byte} {imm : List Byte}
    (k : Nat) (hk : k ≤ 2) (he : (encode i).length = (b :: o.bytes code reg ++ imm).length) (hi : imm.length = k)
    (hl : i.length = 2 + o.dispLen + k) : Statement i := by
  have := o.dispLen_le
  simp only [List.cons_append, List.length_cons, List.length_append, length_bytes, hi] at he
  exact ⟨by omega, by omega, by rw [Config.maxLength]; omega⟩

/-- An encoding whose length its constructor alone fixes. -/
theorem of_fixed {i : Instr} (k : Nat) (hk : 2 ≤ k ∧ k ≤ 3) (he : (encode i).length = k) (hl : i.length = k) :
    Statement i := ⟨by rw [he, hl], by omega, by rw [Config.maxLength]; omega⟩

theorem movRm8R8 (dst : RM Reg8) (src : Reg8) : Statement (.movRm8R8 dst src) :=
  of_rm (imm := []) 0 (by decide) (by rw [List.append_nil]; rfl) rfl rfl

theorem movRm16R16 (dst : RM Reg16) (src : Reg16) : Statement (.movRm16R16 dst src) :=
  of_rm (imm := []) 0 (by decide) (by rw [List.append_nil]; rfl) rfl rfl

theorem movR8Rm8 (dst : Reg8) (src : RM Reg8) : Statement (.movR8Rm8 dst src) :=
  of_rm (imm := []) 0 (by decide) (by rw [List.append_nil]; rfl) rfl rfl

theorem movR16Rm16 (dst : Reg16) (src : RM Reg16) : Statement (.movR16Rm16 dst src) :=
  of_rm (imm := []) 0 (by decide) (by rw [List.append_nil]; rfl) rfl rfl

theorem movRm8Imm8 (dst : RM Reg8) (imm : Byte) : Statement (.movRm8Imm8 dst imm) :=
  of_rm 1 (by decide) rfl rfl rfl

theorem movRm16Imm16 (dst : RM Reg16) (imm : Word) : Statement (.movRm16Imm16 dst imm) :=
  of_rm 2 (by decide) rfl rfl rfl

theorem movR8Imm8 (dst : Reg8) (imm : Byte) : Statement (.movR8Imm8 dst imm) :=
  of_fixed 2 (by decide) rfl rfl

theorem movR16Imm16 (dst : Reg16) (imm : Word) : Statement (.movR16Imm16 dst imm) :=
  of_fixed 3 (by decide) rfl rfl

theorem addRm8R8 (dst : RM Reg8) (src : Reg8) : Statement (.addRm8R8 dst src) :=
  of_rm (imm := []) 0 (by decide) (by rw [List.append_nil]; rfl) rfl rfl

theorem addRm16R16 (dst : RM Reg16) (src : Reg16) : Statement (.addRm16R16 dst src) :=
  of_rm (imm := []) 0 (by decide) (by rw [List.append_nil]; rfl) rfl rfl

theorem addR8Rm8 (dst : Reg8) (src : RM Reg8) : Statement (.addR8Rm8 dst src) :=
  of_rm (imm := []) 0 (by decide) (by rw [List.append_nil]; rfl) rfl rfl

theorem addR16Rm16 (dst : Reg16) (src : RM Reg16) : Statement (.addR16Rm16 dst src) :=
  of_rm (imm := []) 0 (by decide) (by rw [List.append_nil]; rfl) rfl rfl

theorem addAlImm8 (imm : Byte) : Statement (.addAlImm8 imm) :=
  of_fixed 2 (by decide) rfl rfl

theorem addAxImm16 (imm : Word) : Statement (.addAxImm16 imm) :=
  of_fixed 3 (by decide) rfl rfl

theorem addRm8Imm8 (dst : RM Reg8) (imm : Byte) : Statement (.addRm8Imm8 dst imm) :=
  of_rm 1 (by decide) rfl rfl rfl

theorem addRm16Imm16 (dst : RM Reg16) (imm : Word) : Statement (.addRm16Imm16 dst imm) :=
  of_rm 2 (by decide) rfl rfl rfl

theorem addRm8Imm8S (dst : RM Reg8) (imm : Byte) : Statement (.addRm8Imm8S dst imm) :=
  of_rm 1 (by decide) rfl rfl rfl

theorem addRm16SImm8 (dst : RM Reg16) (imm : Byte) : Statement (.addRm16SImm8 dst imm) :=
  of_rm 1 (by decide) rfl rfl rfl

theorem subRm8R8 (dst : RM Reg8) (src : Reg8) : Statement (.subRm8R8 dst src) :=
  of_rm (imm := []) 0 (by decide) (by rw [List.append_nil]; rfl) rfl rfl

theorem subRm16R16 (dst : RM Reg16) (src : Reg16) : Statement (.subRm16R16 dst src) :=
  of_rm (imm := []) 0 (by decide) (by rw [List.append_nil]; rfl) rfl rfl

theorem subR8Rm8 (dst : Reg8) (src : RM Reg8) : Statement (.subR8Rm8 dst src) :=
  of_rm (imm := []) 0 (by decide) (by rw [List.append_nil]; rfl) rfl rfl

theorem subR16Rm16 (dst : Reg16) (src : RM Reg16) : Statement (.subR16Rm16 dst src) :=
  of_rm (imm := []) 0 (by decide) (by rw [List.append_nil]; rfl) rfl rfl

theorem subAlImm8 (imm : Byte) : Statement (.subAlImm8 imm) :=
  of_fixed 2 (by decide) rfl rfl

theorem subAxImm16 (imm : Word) : Statement (.subAxImm16 imm) :=
  of_fixed 3 (by decide) rfl rfl

theorem subRm8Imm8 (dst : RM Reg8) (imm : Byte) : Statement (.subRm8Imm8 dst imm) :=
  of_rm 1 (by decide) rfl rfl rfl

theorem subRm16Imm16 (dst : RM Reg16) (imm : Word) : Statement (.subRm16Imm16 dst imm) :=
  of_rm 2 (by decide) rfl rfl rfl

theorem subRm8Imm8S (dst : RM Reg8) (imm : Byte) : Statement (.subRm8Imm8S dst imm) :=
  of_rm 1 (by decide) rfl rfl rfl

theorem subRm16SImm8 (dst : RM Reg16) (imm : Byte) : Statement (.subRm16SImm8 dst imm) :=
  of_rm 1 (by decide) rfl rfl rfl

theorem cmpRm8R8 (dst : RM Reg8) (src : Reg8) : Statement (.cmpRm8R8 dst src) :=
  of_rm (imm := []) 0 (by decide) (by rw [List.append_nil]; rfl) rfl rfl

theorem cmpRm16R16 (dst : RM Reg16) (src : Reg16) : Statement (.cmpRm16R16 dst src) :=
  of_rm (imm := []) 0 (by decide) (by rw [List.append_nil]; rfl) rfl rfl

theorem cmpR8Rm8 (dst : Reg8) (src : RM Reg8) : Statement (.cmpR8Rm8 dst src) :=
  of_rm (imm := []) 0 (by decide) (by rw [List.append_nil]; rfl) rfl rfl

theorem cmpR16Rm16 (dst : Reg16) (src : RM Reg16) : Statement (.cmpR16Rm16 dst src) :=
  of_rm (imm := []) 0 (by decide) (by rw [List.append_nil]; rfl) rfl rfl

theorem cmpAlImm8 (imm : Byte) : Statement (.cmpAlImm8 imm) :=
  of_fixed 2 (by decide) rfl rfl

theorem cmpAxImm16 (imm : Word) : Statement (.cmpAxImm16 imm) :=
  of_fixed 3 (by decide) rfl rfl

theorem cmpRm8Imm8 (dst : RM Reg8) (imm : Byte) : Statement (.cmpRm8Imm8 dst imm) :=
  of_rm 1 (by decide) rfl rfl rfl

theorem cmpRm16Imm16 (dst : RM Reg16) (imm : Word) : Statement (.cmpRm16Imm16 dst imm) :=
  of_rm 2 (by decide) rfl rfl rfl

theorem cmpRm8Imm8S (dst : RM Reg8) (imm : Byte) : Statement (.cmpRm8Imm8S dst imm) :=
  of_rm 1 (by decide) rfl rfl rfl

theorem cmpRm16SImm8 (dst : RM Reg16) (imm : Byte) : Statement (.cmpRm16SImm8 dst imm) :=
  of_rm 1 (by decide) rfl rfl rfl

theorem jo (disp : Byte) : Statement (.jo disp) :=
  of_fixed 2 (by decide) rfl rfl

theorem jno (disp : Byte) : Statement (.jno disp) :=
  of_fixed 2 (by decide) rfl rfl

theorem jb (disp : Byte) : Statement (.jb disp) :=
  of_fixed 2 (by decide) rfl rfl

theorem jnb (disp : Byte) : Statement (.jnb disp) :=
  of_fixed 2 (by decide) rfl rfl

theorem je (disp : Byte) : Statement (.je disp) :=
  of_fixed 2 (by decide) rfl rfl

theorem jne (disp : Byte) : Statement (.jne disp) :=
  of_fixed 2 (by decide) rfl rfl

theorem jbe (disp : Byte) : Statement (.jbe disp) :=
  of_fixed 2 (by decide) rfl rfl

theorem ja (disp : Byte) : Statement (.ja disp) :=
  of_fixed 2 (by decide) rfl rfl

theorem js (disp : Byte) : Statement (.js disp) :=
  of_fixed 2 (by decide) rfl rfl

theorem jns (disp : Byte) : Statement (.jns disp) :=
  of_fixed 2 (by decide) rfl rfl

theorem jp (disp : Byte) : Statement (.jp disp) :=
  of_fixed 2 (by decide) rfl rfl

theorem jnp (disp : Byte) : Statement (.jnp disp) :=
  of_fixed 2 (by decide) rfl rfl

theorem jl (disp : Byte) : Statement (.jl disp) :=
  of_fixed 2 (by decide) rfl rfl

theorem jnl (disp : Byte) : Statement (.jnl disp) :=
  of_fixed 2 (by decide) rfl rfl

theorem jle (disp : Byte) : Statement (.jle disp) :=
  of_fixed 2 (by decide) rfl rfl

theorem jg (disp : Byte) : Statement (.jg disp) :=
  of_fixed 2 (by decide) rfl rfl

theorem loopnz (disp : Byte) : Statement (.loopnz disp) :=
  of_fixed 2 (by decide) rfl rfl

theorem loopz (disp : Byte) : Statement (.loopz disp) :=
  of_fixed 2 (by decide) rfl rfl

theorem loop (disp : Byte) : Statement (.loop disp) :=
  of_fixed 2 (by decide) rfl rfl

theorem jcxz (disp : Byte) : Statement (.jcxz disp) :=
  of_fixed 2 (by decide) rfl rfl

end Sys2Proof.Laws.EncodedLength
end

