-- ==== Sys2Proof/Laws/Step.lean ====
section
/-! SUPPORT. What a step can do, said once: the end of the run, the verdicts of the decoder, and the inversion lemma
of `step`. -/

namespace Sys2Proof.Machine

/-! ### The end of the run -/

/-- Emitting several lines appends them to the listing and changes nothing else. -/
theorem State.foldl_emit (lines : List Text) (s : State) :
    lines.foldl State.emit s = { s with listing := s.listing ++ lines.flatMap (· ++ ['\n']) } := by
  induction lines generalizing s with
  | nil => simp
  | cons line lines ih =>
    rw [List.foldl_cons, ih]
    simp [State.emit]

/-- What the end of the run appends to the listing. -/
def State.closing (s : State) : Text :=
  if s.inputs.execute then (dumpOrder.map (dumpLine s) ++ [ipLine s]).flatMap (· ++ ['\n']) else []

/-- The end of the run appends the closing lines, makes the status Done, and changes nothing else. -/
theorem State.endRun_eq (s : State) :
    s.endRun = { s with listing := s.listing ++ s.closing, status := .done } := by
  rw [State.endRun, State.closing]
  split_ifs
  · rw [State.foldl_emit]
    simp [State.emit, State.setStatus, List.flatMap_append]
  · simp [State.setStatus]

/-! ### Decode-only mode -/

/-- In decode-only mode every instruction emits its line and advances. -/
theorem exec_decodeOnly {i : Instr} {s : State} (he : s.inputs.execute = false) :
    exec i s = .next (s.retire i (s.ip + i.length)) := by
  rcases exec_cases i s with ⟨_, h, _, _, _, _⟩ | ⟨_, _, h, _, _, _⟩ | ⟨_, hx⟩ | ⟨_, _, h, _, _, _, _⟩ | ⟨_, _, h, _, _, _⟩
  on_goal 3 => exact hx
  all_goals simp [he] at h

/-! ### One step -/

/-- A step of a running machine. -/
theorem step_running {s : State} (h : s.status = .running) :
    step s = if s.inputs.buf.length ≤ s.ip then .next s.endRun
      else match s.fetch with
        | .ok (i, _) => exec i s
        | .error e => .next (s.rejectBytes e) := by
  unfold step iterate
  split
  · rfl
  · next hne => exact absurd h hne

/-- Everything a step that gives a next state can be: the end of the run, an instruction, a skip, or a verdict of the
decoder taken as a fault. -/
inductive StepCase (s t : State) : Prop
  | ended (hs : s.status = .running) (hi : s.inputs.buf.length ≤ s.ip) (ht : t = s.endRun)
  | ran (i : Instr) (rest : List Byte) (hs : s.status = .running) (hi : s.ip < s.inputs.buf.length)
      (hd : decode (s.inputs.buf.drop s.ip) = .ok (i, rest)) (ht : exec i s = .next t)
  | skipped (hs : s.status = .running) (hi : s.ip < s.inputs.buf.length)
      (hd : decode (s.inputs.buf.drop s.ip) = .error .unrecognizedOpcode) (hk : s.inputs.skipUnrecognized = true)
      (ht : t = s.setIp (s.ip + 2))
  | rejected (e : DecodeError) (hs : s.status = .running) (hi : s.ip < s.inputs.buf.length)
      (hd : decode (s.inputs.buf.drop s.ip) = .error e)
      (hk : e = .unrecognizedOpcode → s.inputs.skipUnrecognized = false) (ht : t = s.raise (faultOf e))

/-- Every step that gives a next state is one of the four. -/
theorem step_cases {s t : State} (h : step s = .next t) : StepCase s t := by
  cases hs : s.status with
  | done => rw [step, iterate, hs] at h; cases h
  | fault k p => rw [step, iterate, hs] at h; cases h
  | running =>
    rw [step_running hs] at h
    by_cases hi : s.inputs.buf.length ≤ s.ip
    · rw [if_pos hi] at h
      cases h
      exact .ended hs hi rfl
    · rw [if_neg hi, State.fetch] at h
      have hi := Nat.lt_of_not_le hi
      cases hd : decode (s.inputs.buf.drop s.ip) with
      | ok r => rw [hd] at h; exact .ran r.1 r.2 hs hi hd h
      | error e =>
        rw [hd] at h
        injection h with ht
        rw [State.rejectBytes] at ht
        split_ifs at ht with hk
        · exact .skipped hs hi (hk.1 ▸ hd) hk.2 ht.symm
        · exact .rejected e hs hi hd (fun he => by simpa [he] using hk) ht.symm

end Sys2Proof.Machine
end

