-- ==== Sys2Proof/Tests/Slice0.lean ====
section
/-! SUPPORT. Tests and witnesses: the smoke tests of WellFormed, the decoding of every constructor, one step of every
instruction on the vectors of 95_test_vectors.md (named in each docstring; the bytes of S1 to S4 there are the
spec's own), and for every obligation with hypotheses a state and operands that meet them together. -/

namespace Sys2Proof.Tests

open Machine

/-! ### Small states -/

/-- Engine construction in execute mode with the given buffer. -/
def boot (buf : List Byte) : State := .resetWith { Inputs.reset with buf := buf }

/-- Engine construction in decode-only mode with the given buffer. -/
def bootDecode (buf : List Byte) : State := .resetWith { Inputs.reset with buf := buf, execute := false }

/-- Engine construction in execute mode with `SKIP_UNRECOGNIZED` true. -/
def bootSkip (buf : List Byte) : State := .resetWith { Inputs.reset with buf := buf, skipUnrecognized := true }

/-- The state with one byte of memory set. -/
def put (s : State) (a : Nat) (b : Byte) : State := { s with mem := s.mem.write a b }

/-- One step of `s` answers exactly `t`. -/
def goesTo (s t : State) : Bool :=
  match step s with
  | .next u => u == t
  | _ => false

/-- One instruction of `s` answers exactly `t`. -/
def execTo (i : Instr) (s t : State) : Bool :=
  match exec i s with
  | .next u => u == t
  | _ => false

theorem step_of_goesTo {s t : State} (h : goesTo s t = true) : step s = .next t := by
  rw [goesTo] at h
  split at h
  · next u hu => rw [hu, beq_iff_eq.1 h]
  · cases h

theorem exec_of_execTo {i : Instr} {s t : State} (h : execTo i s t = true) : exec i s = .next t := by
  rw [execTo] at h
  split at h
  · next u hu => rw [hu, beq_iff_eq.1 h]
  · cases h

/-- One step completes an instruction: the effect, the line, the cursor. -/
def runs (s : State) (effect : State → State) (line : String) (ip : Nat) : Bool :=
  goesTo s (((effect s).emit line.toList).setIp ip)

/-- One step takes the fault, and changes nothing else. -/
def faults (s : State) (k : FaultKind) : Bool := goesTo s (s.setStatus (.fault k s.ip))

/-- The first line that a decode-only step of the bytes emits, and the advance. -/
def decodesTo (bytes : List Byte) (line : String) (length : Nat) : Bool :=
  runs (bootDecode bytes) id line length

/-! ### WellFormed: the one check, at each level, refuses an ill-formed term -/

theorem test_wf_memOp : (MemOp.plain .bp).wf = false ∧ (MemOp.plain .bpSi).wf = true ∧ (MemOp.disp8 .bp 0).wf = true := by
  decide

theorem test_wf_rm : (RM.mem (ρ := Reg8) (.plain .bp)).wf = false ∧ (RM.reg Reg8.al).wf = true := by decide

theorem test_wf_instr_refuses : ([.movRm8R8 (.mem (.plain .bp)) .al, .movRm16R16 (.mem (.plain .bp)) .ax,
    .subR8Rm8 .al (.mem (.plain .bp)), .cmpR16Rm16 .ax (.mem (.plain .bp)), .addRm8Imm8 (.mem (.plain .bp)) 1,
    .addRm8Imm8S (.mem (.plain .bp)) 1, .movRm16Imm16 (.mem (.plain .bp)) 1,
    .cmpRm16SImm8 (.mem (.plain .bp)) 1] : List Instr).all (fun i => !i.wf) = true := by decide

theorem test_wf_instr_accepts : ([.movRm8R8 (.mem (.direct 0)) .al, .movR8Imm8 .al 1, .addAxImm16 1, .jo 0,
    .loop 0] : List Instr).all (·.wf) = true := by decide

/-! ### Decoding: every constructor, from bytes of the encoding column of the opcode table -/

/-- MOV: 100010dw, 1100011w, 1011wrrr (30_encoding.md R101), with S1, S3, X35 and X36 among the bytes. -/
theorem test_decode_mov :
    decode [0b10001000, 0b11100101] = .ok (.movRm8R8 (.reg .ch) .ah, []) ∧
    decode [0b10001001, 0b11011001] = .ok (.movRm16R16 (.reg .cx) .bx, []) ∧
    decode [0b10001010, 0b01100000, 0x04] = .ok (.movR8Rm8 .ah (.mem (.disp8 .bxSi 4)), []) ∧
    decode [0b10001011, 0b00101110, 0x05, 0x00] = .ok (.movR16Rm16 .bp (.mem (.direct 5)), []) ∧
    decode [0b11000110, 0b00000011, 0x07] = .ok (.movRm8Imm8 (.mem (.plain .bpDi)) 7, []) ∧
    decode [0b11000111, 0b10000101, 0x85, 0x03, 0x5B, 0x01] =
      .ok (.movRm16Imm16 (.mem (.disp16 .di 0x0385)) 0x015B, []) ∧
    decode [0b10110101, 0xF4] = .ok (.movR8Imm8 .ch 0xF4, []) ∧
    decode [0b10111010, 0x6C, 0x0F] = .ok (.movR16Imm16 .dx 0x0F6C, []) := by decide

/-- ADD: 00oooodw with ooo = 000, the accumulator forms, and 100000sw with reg = 000. -/
theorem test_decode_add :
    decode [0b00000000, 0b01111010, 0x04] = .ok (.addRm8R8 (.mem (.disp8 .bpSi 4)) .bh, []) ∧
    decode [0b00000001, 0b00011000] = .ok (.addRm16R16 (.mem (.plain .bxSi)) .bx, []) ∧
    decode [0b00000010, 0b11100000] = .ok (.addR8Rm8 .ah (.reg .al), []) ∧
    decode [0b00000011, 0b10111011, 0x34, 0x12] = .ok (.addR16Rm16 .di (.mem (.disp16 .bpDi 0x1234)), []) ∧
    decode [0b00000100, 0xE2] = .ok (.addAlImm8 0xE2, []) ∧
    decode [0b00000101, 0xE8, 0x03] = .ok (.addAxImm16 0x03E8, []) ∧
    decode [0b10000000, 0b00000111, 0x22] = .ok (.addRm8Imm8 (.mem (.plain .bx)) 0x22, []) ∧
    decode [0b10000001, 0b00000110, 0x00, 0x02, 0x34, 0x12] = .ok (.addRm16Imm16 (.mem (.direct 0x0200)) 0x1234, []) ∧
    decode [0b10000010, 0b11000001, 0x05] = .ok (.addRm8Imm8S (.reg .cl) 5, []) ∧
    decode [0b10000011, 0b10000010, 0xE8, 0x03, 0x1D] = .ok (.addRm16SImm8 (.mem (.disp16 .bpSi 1000)) 29, []) := by
  decide

/-- SUB: 00oooodw with ooo = 101, the accumulator forms, and 100000sw with reg = 101. -/
theorem test_decode_sub :
    decode [0b00101000, 0b01111010, 0x04] = .ok (.subRm8R8 (.mem (.disp8 .bpSi 4)) .bh, []) ∧
    decode [0b00101001, 0b00011000] = .ok (.subRm16R16 (.mem (.plain .bxSi)) .bx, []) ∧
    decode [0b00101010, 0b11100000] = .ok (.subR8Rm8 .ah (.reg .al), []) ∧
    decode [0b00101011, 0b10111011, 0x34, 0x12] = .ok (.subR16Rm16 .di (.mem (.disp16 .bpDi 0x1234)), []) ∧
    decode [0b00101100, 0xE2] = .ok (.subAlImm8 0xE2, []) ∧
    decode [0b00101101, 0xE8, 0x03] = .ok (.subAxImm16 0x03E8, []) ∧
    decode [0b10000000, 0b00101111, 0x22] = .ok (.subRm8Imm8 (.mem (.plain .bx)) 0x22, []) ∧
    decode [0b10000001, 0b00101110, 0x00, 0x02, 0x34, 0x12] = .ok (.subRm16Imm16 (.mem (.direct 0x0200)) 0x1234, []) ∧
    decode [0b10000010, 0b11101001, 0x05] = .ok (.subRm8Imm8S (.reg .cl) 5, []) ∧
    decode [0b10000011, 0b10101010, 0xE8, 0x03, 0x1D] = .ok (.subRm16SImm8 (.mem (.disp16 .bpSi 1000)) 29, []) := by
  decide

/-- CMP: 00oooodw with ooo = 111, the accumulator forms, and 100000sw with reg = 111. -/
theorem test_decode_cmp :
    decode [0b00111000, 0b01111010, 0x04] = .ok (.cmpRm8R8 (.mem (.disp8 .bpSi 4)) .bh, []) ∧
    decode [0b00111001, 0b00011000] = .ok (.cmpRm16R16 (.mem (.plain .bxSi)) .bx, []) ∧
    decode [0b00111010, 0b11100000] = .ok (.cmpR8Rm8 .ah (.reg .al), []) ∧
    decode [0b00111011, 0b10111011, 0x34, 0x12] = .ok (.cmpR16Rm16 .di (.mem (.disp16 .bpDi 0x1234)), []) ∧
    decode [0b00111100, 0xE2] = .ok (.cmpAlImm8 0xE2, []) ∧
    decode [0b00111101, 0xE8, 0x03] = .ok (.cmpAxImm16 0x03E8, []) ∧
    decode [0b10000000, 0b00111111, 0x22] = .ok (.cmpRm8Imm8 (.mem (.plain .bx)) 0x22, []) ∧
    decode [0b10000001, 0b00111110, 0x00, 0x02, 0x34, 0x12] = .ok (.cmpRm16Imm16 (.mem (.direct 0x0200)) 0x1234, []) ∧
    decode [0b10000010, 0b11111001, 0x05] = .ok (.cmpRm8Imm8S (.reg .cl) 5, []) ∧
    decode [0b10000011, 0b10111010, 0xE8, 0x03, 0x1D] = .ok (.cmpRm16SImm8 (.mem (.disp16 .bpSi 1000)) 29, []) := by
  decide

/-- The conditional jumps, first half: 0111cccc and a displacement byte (30_encoding.md R140). -/
theorem test_decode_jump :
    decode [0b01110000, 0xFE] = .ok (.jo 0xFE, []) ∧
    decode [0b01110001, 0xFE] = .ok (.jno 0xFE, []) ∧
    decode [0b01110010, 0xFE] = .ok (.jb 0xFE, []) ∧
    decode [0b01110011, 0xFE] = .ok (.jnb 0xFE, []) ∧
    decode [0b01110100, 0xFE] = .ok (.je 0xFE, []) ∧
    decode [0b01110101, 0xFE] = .ok (.jne 0xFE, []) ∧
    decode [0b01110110, 0xFE] = .ok (.jbe 0xFE, []) ∧
    decode [0b01110111, 0xFE] = .ok (.ja 0xFE, []) := by decide

/-- The conditional jumps, second half. -/
theorem test_decode_jump_rest :
    decode [0b01111000, 0xFE] = .ok (.js 0xFE, []) ∧
    decode [0b01111001, 0xFE] = .ok (.jns 0xFE, []) ∧
    decode [0b01111010, 0xFE] = .ok (.jp 0xFE, []) ∧
    decode [0b01111011, 0xFE] = .ok (.jnp 0xFE, []) ∧
    decode [0b01111100, 0xFE] = .ok (.jl 0xFE, []) ∧
    decode [0b01111101, 0xFE] = .ok (.jnl 0xFE, []) ∧
    decode [0b01111110, 0xFE] = .ok (.jle 0xFE, []) ∧
    decode [0b01111111, 0xFE] = .ok (.jg 0xFE, []) := by decide

/-- The loop-class branches: 111000cc and a displacement byte (30_encoding.md R140). -/
theorem test_decode_loop :
    decode [0b11100000, 0xFE] = .ok (.loopnz 0xFE, []) ∧
    decode [0b11100001, 0xFE] = .ok (.loopz 0xFE, []) ∧
    decode [0b11100010, 0xFE] = .ok (.loop 0xFE, []) ∧
    decode [0b11100011, 0xFE] = .ok (.jcxz 0xFE, []) := by decide

/-- The bytes after an instruction are left (a witness of DecodedBytesAreTheInstructionsEncoding), and the encoder
writes the same bytes. -/
theorem test_decode_rest : decode [0x75, 0xF8, 0x89] = .ok (.jne 0xF8, [0x89]) ∧ encode (.jne 0xF8) = [0x75, 0xF8] ∧
    encode (.addRm16SImm8 (.mem (.disp16 .bpSi 1000)) 29) = [0x83, 0x82, 0xE8, 0x03, 0x1D] := by decide

/-- Verdicts of the decoder: F1 to F7 and F8 to F12. -/
theorem test_decode_verdicts :
    ([[0x0F], [0x08, 0xC0], [0x80, 0xC8, 0x01], [0x80, 0xC8], [0xC6, 0xC8, 0x07], [0xA1, 0x00, 0x00], [0x8E, 0xD8]] :
      List (List Byte)).all (fun b => faults (boot b) .unrecognizedOpcode && faults (bootDecode b) .unrecognizedOpcode) =
        true ∧
    ([[0x89], [0xB8, 0x01], [0xC7, 0x06, 0x00], [0x80], [0x75]] : List (List Byte)).all
      (fun b => faults (boot b) .truncatedInstruction && faults (bootDecode b) .truncatedInstruction) = true := by
  decide

/-- Words numbered as the table numbers them; the bits above `nbits` are zero. -/
theorem test_table_word : decodeTableWord 8 0x89 = some (.movRm16R16 (.mem (.plain .bxSi)) .ax) ∧
    decodeTableWord 16 0xD989 = some (.movRm16R16 (.reg .cx) .bx) ∧ decodeTableWord 16 0xF875 = some (.jne 0xF8) ∧
    decodeTableWord 16 0x0FD989 = some (.movRm16R16 (.reg .cx) .bx) ∧ decodeTableWord 8 0x0F = none := by decide

/-- The very next step from reset runs the table word. -/
theorem test_withFetchWord : (match step (State.reset.withFetchWord 24 0x03E805) with
    | .next t => t.r16 .ax == 1000 && t.ip == 3 && t.listing == "bits 16\n\nadd ax, 1000 => ax 0x3e8\n".toList
    | _ => false) = true := by decide

/-! ### One step of every MOV, ADD, SUB and CMP: the vectors X1 to X39 -/

/-- X1. -/
theorem test_x1_addRm8R8 :
    runs (boot [0x00, 0xE0] |>.setR16 .ax 0x0305)
      (fun s => s |>.setR16 .ax 0x0308 |>.setZf false)
      "add al, ah => al 0x8" 2 = true := by decide

/-- X2. -/
theorem test_x2_addRm16R16 :
    runs (boot [0x01, 0xD8] |>.setR16 .ax 0x0002 |>.setR16 .bx 0x0003)
      (fun s => s |>.setR16 .ax 0x0005 |>.setZf false)
      "add ax, bx => ax 0x5" 2 = true := by decide

/-- X3. -/
theorem test_x3_addR8Rm8 :
    runs (boot [0x02, 0x7A, 0x04] |>.setR16 .bp 0x0010 |>.setR16 .si 0x0020 |>.setR16 .bx 0x0100 |> (put · 0x34 0x05))
      (fun s => s |>.setR16 .bx 0x0600 |>.setZf false)
      "add bh, [bp + si + 4] => bh 0x6" 3 = true := by decide

/-- X4. -/
theorem test_x4_addR16Rm16 :
    runs (boot [0x03, 0x5E, 0x00] |>.setR16 .bp 0x0200 |>.setR16 .bx 0x0010 |> (put · 0x200 0x01))
      (fun s => s |>.setR16 .bx 0x0011 |>.setZf false)
      "add bx, [bp] => bx 0x11" 3 = true := by decide

/-- X5. -/
theorem test_x5_addAlImm8 :
    runs (boot [0x04, 0xE2] |>.setR8 .al 0x1E)
      (fun s => s |>.setR16 .ax 0x0000 |>.setZf true)
      "add al, -30 => al 0x0" 2 = true := by decide

/-- X6. -/
theorem test_x6_addAxImm16 :
    runs (boot [0x05, 0xE8, 0x03])
      (fun s => s |>.setR16 .ax 0x03E8 |>.setZf false)
      "add ax, 1000 => ax 0x3e8" 3 = true := by decide

/-- X7. -/
theorem test_x7_addRm8Imm8 :
    runs (boot [0x80, 0x07, 0x22] |>.setR16 .bx 0x0300 |> (put · 0x300 0x10))
      (fun s => s |> (put · 0x300 0x32) |>.setZf false)
      "add byte [bx], 34" 3 = true := by decide

/-- X8. -/
theorem test_x8_addRm16Imm16 :
    runs (boot [0x81, 0xC1, 0x00, 0x01] |>.setR16 .cx 0xFF00)
      (fun s => s |>.setR16 .cx 0x0000 |>.setZf true)
      "add cx, 256 => cx 0x0" 4 = true := by decide

/-- X9. -/
theorem test_x9_addRm8Imm8S :
    runs (boot [0x82, 0xC3, 0x05] |>.setR8 .bl 0xFB)
      (fun s => s |>.setR16 .bx 0x0000 |>.setZf true)
      "add bl, 5 => bl 0x0" 3 = true := by decide

/-- X10. -/
theorem test_x10_addRm16SImm8 :
    runs (boot [0x83, 0xC6, 0x02] |>.setR16 .si 0x0010)
      (fun s => s |>.setR16 .si 0x0012 |>.setZf false)
      "add si, 2 => si 0x12" 3 = true := by decide

/-- X11. -/
theorem test_x11_subRm8R8 :
    runs (boot [0x28, 0xE0] |>.setR16 .ax 0x0103)
      (fun s => s |>.setR16 .ax 0x0102 |>.setZf false)
      "sub al, ah => al 0x2" 2 = true := by decide

/-- X12. -/
theorem test_x12_subRm16R16 :
    runs (boot [0x29, 0xD8] |>.setR16 .ax 0x0005 |>.setR16 .bx 0x0007)
      (fun s => s |>.setR16 .ax 0xFFFE |>.setZf false)
      "sub ax, bx => ax 0xfffe" 2 = true := by decide

/-- X13. -/
theorem test_x13_subR8Rm8 :
    runs (boot [0x2A, 0x00] |>.setR16 .bx 0x0010 |>.setR8 .al 0x05 |> (put · 0x10 0x05))
      (fun s => s |>.setR16 .ax 0x0000 |>.setZf true)
      "sub al, [bx + si] => al 0x0" 2 = true := by decide

/-- X14. -/
theorem test_x14_subR16Rm16 :
    runs (boot [0x2B, 0x18] |>.setR16 .bx 0x0100 |>.setR16 .si 0x0002 |> (put · 0x102 0x00) |> (put · 0x103 0x01))
      (fun s => s |>.setR16 .bx 0x0000 |>.setZf true)
      "sub bx, [bx + si] => bx 0x0" 2 = true := by decide

/-- X15. -/
theorem test_x15_subAlImm8 :
    runs (boot [0x2C, 0x01])
      (fun s => s |>.setR16 .ax 0x00FF |>.setZf false)
      "sub al, 1 => al 0xff" 2 = true := by decide

/-- X16. -/
theorem test_x16_subAxImm16 :
    runs (boot [0x2D, 0xE8, 0x03] |>.setR16 .ax 0x03E8)
      (fun s => s |>.setR16 .ax 0x0000 |>.setZf true)
      "sub ax, 1000 => ax 0x0" 3 = true := by decide

/-- X17. -/
theorem test_x17_subRm8Imm8 :
    runs (boot [0x80, 0xEC, 0x01])
      (fun s => s |>.setR16 .ax 0xFF00 |>.setZf false)
      "sub ah, 1 => ah 0xff" 3 = true := by decide

/-- X18. -/
theorem test_x18_subRm16Imm16 :
    runs (boot [0x81, 0xEB, 0x10, 0x27] |>.setR16 .bx 0x2710)
      (fun s => s |>.setR16 .bx 0x0000 |>.setZf true)
      "sub bx, 10000 => bx 0x0" 4 = true := by decide

/-- X19. -/
theorem test_x19_subRm8Imm8S :
    runs (boot [0x82, 0xE9, 0x01] |>.setR8 .cl 0x01)
      (fun s => s |>.setR16 .cx 0x0000 |>.setZf true)
      "sub cl, 1 => cl 0x0" 3 = true := by decide

/-- X20. -/
theorem test_x20_subRm16SImm8 :
    runs (boot [0x83, 0xE9, 0x01] |>.setR16 .cx 0x0003)
      (fun s => s |>.setR16 .cx 0x0002 |>.setZf false)
      "sub cx, 1 => cx 0x2" 3 = true := by decide

/-- X21. -/
theorem test_x21_cmpRm8R8 :
    runs (boot [0x38, 0xE0] |>.setR16 .ax 0x0505)
      (fun s => s |>.setZf true)
      "cmp al, ah => al 0x5" 2 = true := by decide

/-- X22. -/
theorem test_x22_cmpRm16R16 :
    runs (boot [0x39, 0xD8] |>.setR16 .ax 0x0001 |>.setR16 .bx 0x0002)
      (fun s => s |>.setZf false)
      "cmp ax, bx => ax 0x1" 2 = true := by decide

/-- X23. -/
theorem test_x23_cmpR8Rm8 :
    runs (boot [0x3A, 0x47, 0x04] |>.setR16 .bx 0x0020 |>.setR8 .al 0x09 |> (put · 0x24 0x09))
      (fun s => s |>.setZf true)
      "cmp al, [bx + 4] => al 0x9" 3 = true := by decide

/-- X24. -/
theorem test_x24_cmpR16Rm16 :
    runs (boot [0x3B, 0x18] |>.setR16 .bx 0x0100 |>.setR16 .si 0x0002 |> (put · 0x102 0x00) |> (put · 0x103 0x01))
      (fun s => s |>.setZf true)
      "cmp bx, [bx + si] => bx 0x100" 2 = true := by decide

/-- X25. -/
theorem test_x25_cmpAlImm8 :
    runs (boot [0x3C, 0x09] |>.setR8 .al 0x09)
      (fun s => s |>.setZf true)
      "cmp al, 9 => al 0x9" 2 = true := by decide

/-- X26. -/
theorem test_x26_cmpAxImm16 :
    runs (boot [0x3D, 0xE8, 0x03] |>.setR16 .ax 0x03E8)
      (fun s => s |>.setZf true)
      "cmp ax, 1000 => ax 0x3e8" 3 = true := by decide

/-- X27. -/
theorem test_x27_cmpRm8Imm8 :
    runs (boot [0x80, 0x3F, 0x22] |>.setR16 .bx 0x0300 |> (put · 0x300 0x22))
      (fun s => s |>.setZf true)
      "cmp byte [bx], 34" 3 = true := by decide

/-- X28. -/
theorem test_x28_cmpRm16Imm16 :
    runs (boot [0x81, 0xFF, 0xE8, 0x03] |>.setR16 .di 0x03E7)
      (fun s => s |>.setZf false)
      "cmp di, 1000 => di 0x3e7" 4 = true := by decide

/-- X29. -/
theorem test_x29_cmpRm8Imm8S :
    runs (boot [0x82, 0xF9, 0x05] |>.setR8 .cl 0x05)
      (fun s => s |>.setZf true)
      "cmp cl, 5 => cl 0x5" 3 = true := by decide

/-- X30. -/
theorem test_x30_cmpRm16SImm8 :
    runs (boot [0x83, 0xFE, 0x02] |>.setR16 .si 0x0002)
      (fun s => s |>.setZf true)
      "cmp si, 2 => si 0x2" 3 = true := by decide

/-- X31. -/
theorem test_x31_movRm8R8 :
    runs (boot [0x88, 0xE5] |>.setR16 .ax 0x1234 |>.setR16 .cx 0x00FF)
      (fun s => s |>.setR16 .cx 0x12FF |>.setZf false)
      "mov ch, ah => ch 0x12" 2 = true := by decide

/-- X32. -/
theorem test_x32_movRm16R16 :
    runs (boot [0x89, 0xD9] |>.setR16 .bx 0x0005)
      (fun s => s |>.setR16 .cx 0x0005 |>.setZf false)
      "mov cx, bx => cx 0x5" 2 = true := by decide

/-- X33. -/
theorem test_x33_movR8Rm8 :
    runs (boot [0x8A, 0x60, 0x04] |>.setR16 .bx 0x0010 |>.setR16 .si 0x0001 |> (put · 0x15 0x7F))
      (fun s => s |>.setR16 .ax 0x7F00 |>.setZf false)
      "mov ah, [bx + si + 4] => ah 0x7f" 3 = true := by decide

/-- X34. -/
theorem test_x34_movR16Rm16 :
    runs (boot [0x8B, 0x2E, 0x05, 0x00] |> (put · 0x5 0x34) |> (put · 0x6 0x12))
      (fun s => s |>.setR16 .bp 0x1234 |>.setZf false)
      "mov bp, [5] => bp 0x1234" 4 = true := by decide

/-- X35. -/
theorem test_x35_movRm8Imm8 :
    runs (boot [0xC6, 0x03, 0x07] |>.setR16 .bp 0x0100 |>.setR16 .di 0x0002)
      (fun s => s |> (put · 0x102 0x07) |>.setZf false)
      "mov byte [bp + di], 7" 3 = true := by decide

/-- X36. -/
theorem test_x36_movRm16Imm16 :
    runs (boot [0xC7, 0x85, 0x85, 0x03, 0x5B, 0x01])
      (fun s => s |> (put · 0x385 0x5B) |> (put · 0x386 0x01) |>.setZf false)
      "mov word [di + 901], 347" 6 = true := by decide

/-- X37. -/
theorem test_x37_movR8Imm8 :
    runs (boot [0xB1, 0x0C])
      (fun s => s |>.setR16 .cx 0x000C |>.setZf false)
      "mov cl, 12 => cl 0xc" 2 = true := by decide

/-- X38. -/
theorem test_x38_movR16Imm16 :
    runs (boot [0xBA, 0x6C, 0x0F])
      (fun s => s |>.setR16 .dx 0x0F6C |>.setZf false)
      "mov dx, 3948 => dx 0xf6c" 3 = true := by decide

/-- X39. -/
theorem test_x39_movRm8Imm8 :
    runs (boot [0xC6, 0xC0, 0x07])
      (fun s => s |>.setR16 .ax 0x0007 |>.setZf false)
      "mov al, 7 => al 0x7" 3 = true := by decide

/-! ### Operand corners -/

/-- The last bytes of the window are written: the store of P6, and a word at 0xFFFE. -/
theorem test_store_at_the_top :
    runs (boot [0x88, 0x0C] |>.setR16 .cx 2 |>.setR16 .si 0xFFFF) (fun s => put s 0xFFFF 2) "mov [si], cl" 2 = true ∧
    runs (boot [0x89, 0x0C] |>.setR16 .cx 0x1234 |>.setR16 .si 0xFFFE) (fun s => put (put s 0xFFFE 0x34) 0xFFFF 0x12)
      "mov [si], cx" 2 = true := by decide

/-- M1, M3 and M5: a word at 0xFFFF, a byte at -1, a word at 0x10000; M2: a byte at 0xFFFF is admitted. -/
theorem test_window :
    faults (boot [0x8B, 0x07] |>.setR16 .bx 0xFFFF) .addressOutOfRange = true ∧
    faults (boot [0x8A, 0x42, 0xFE] |>.setR16 .si 1) .addressOutOfRange = true ∧
    faults (boot [0x8B, 0x47, 0x01] |>.setR16 .bx 0xFFFF) .addressOutOfRange = true ∧
    runs (boot [0x8A, 0x07] |>.setR16 .bx 0xFFFF) id "mov al, [bx] => al 0x0" 2 = true := by decide

/-- A read-modify-write outside the window changes neither memory nor ZF (60_exceptions.md R407). -/
theorem test_precise : faults (boot [0x01, 0x07] |>.setR16 .bx 0xFFFF |> (put · 0xFFFF 5) |>.setZf true)
    .addressOutOfRange = true := by decide

/-- Writing the reset value leaves nothing listed, so that equal memories are equal data. -/
theorem test_memory_canonical : (Memory.write (Memory.write [] 7 1) 7 0) = ([] : Memory) ∧
    Memory.write (Memory.write [] 7 1) 3 2 = [(3, 2), (7, 1)] := by decide

/-! ### Branches -/

/-- B1, B2, B3, B5 and the taken JNE of S5j: targets N, N + 1, below 0, not taken, forward. -/
theorem test_jne :
    runs (boot [0x75, 0x00]) id "jne 2" 2 = true ∧ faults (boot [0x75, 0x01]) .branchTargetOutOfRange = true ∧
    faults (boot [0x75, 0x80]) .branchTargetOutOfRange = true ∧
    runs (boot [0x75, 0xFE] |>.setZf true) id "jne 0" 2 = true ∧
    runs (boot [0x75, 0x02, 0x89, 0xD9, 0x89, 0xC3]) id "jne 4" 4 = true := by decide

/-- B4 and B6: decode-only mode shows the raw displacement and advances; a taken JNE to 0 stays at 0. -/
theorem test_jne_modes : decodesTo [0x75, 0x80] "jne -128" 2 = true ∧ runs (boot [0x75, 0xFE]) id "jne 0" 0 = true := by
  decide

/-- The block of section 2.3: every branch advances by 2 with ZF true, and shows its text. -/
theorem test_branches_advance : ([
    (0x74, 0xFE, "je -2"), (0x7C, 0xFC, "jl -4"), (0x7E, 0xFA, "jle -6"), (0x72, 0xF8, "jb -8"),
    (0x76, 0xF6, "jbe -10"), (0x7A, 0xF4, "jp -12"), (0x70, 0xF2, "jo -14"), (0x78, 0xF0, "js -16"),
    (0x75, 0xEE, "jne -16"), (0x7D, 0xEC, "jnl -20"), (0x7F, 0xEA, "jg -22"), (0x73, 0xE8, "jnb -24"),
    (0x77, 0xE6, "ja -26"), (0x7B, 0xE4, "jnp -28"), (0x71, 0xE2, "jno -30"), (0x79, 0xE0, "jns -32"),
    (0xE2, 0xDE, "loop -34"), (0xE1, 0xDC, "loopz -36"), (0xE0, 0xDA, "loopnz -38"), (0xE3, 0xD8, "jcxz -40")
    ] : List (Byte × Byte × String)).all
      (fun r => runs (boot [r.1, r.2.1] |>.setZf true) id r.2.2 2) = true := by decide

/-- B7, B8, B9: JE with ZF true, LOOP with CX 2 and JCXZ with CX 0 do not jump, and CX stays. -/
theorem test_no_jump : runs (boot [0x74, 0xFE] |>.setZf true) id "je -2" 2 = true ∧
    runs (boot [0xE2, 0xFE] |>.setR16 .cx 2) id "loop -2" 2 = true ∧ runs (boot [0xE3, 0xFE]) id "jcxz -2" 2 = true := by
  decide

/-! ### Rendering -/

/-- S5a to S5h. -/
theorem test_s5_lines :
    decodesTo [0x89, 0xD8] "mov ax, bx" 2 = true ∧
    decodesTo [0x88, 0xD8] "mov al, bl" 2 = true ∧
    decodesTo [0x8A, 0x07] "mov al, [bx]" 2 = true ∧
    decodesTo [0x8A, 0x06, 0x34, 0x12] "mov al, [4660]" 4 = true ∧
    decodesTo [0x8A, 0x40, 0xFF] "mov al, [bx + si - 1]" 3 = true ∧
    decodesTo [0x8A, 0x80, 0xFE, 0xFF] "mov al, [bx + si - 2]" 4 = true ∧
    decodesTo [0x8A, 0x40, 0x00] "mov al, [bx + si]" 3 = true ∧
    decodesTo [0x8A, 0x80, 0x00, 0x00] "mov al, [bx + si + 0]" 4 = true := by decide

/-- The displacement spelling of S6. -/
theorem test_s6_displacements :
    decodesTo [0x8B, 0x41, 0xDB] "mov ax, [bx + di - 37]" 3 = true ∧
    decodesTo [0x89, 0x8C, 0xD4, 0xFE] "mov [si - 300], cx" 4 = true ∧
    decodesTo [0x8B, 0x86, 0x00, 0x80] "mov ax, [bp - 32768]" 4 = true ∧
    decodesTo [0x8B, 0x47, 0x7F] "mov ax, [bx + 127]" 3 = true ∧
    decodesTo [0x8B, 0x47, 0x80] "mov ax, [bx - 128]" 3 = true := by decide

/-- Lines 6 to 15 of section 2.4. -/
theorem test_rendering_corners :
    decodesTo [0x8B, 0x06, 0xFF, 0xFF] "mov ax, [65535]" 4 = true ∧
    decodesTo [0xC7, 0x06, 0xE8, 0x03, 0xFF, 0xFF] "mov word [1000], -1" 6 = true ∧
    decodesTo [0xB8, 0x00, 0x80] "mov ax, -32768" 3 = true ∧
    decodesTo [0x83, 0xC0, 0xFF] "add ax, -1" 3 = true ∧
    decodesTo [0x81, 0xC0, 0xFF, 0x00] "add ax, 255" 4 = true ∧
    decodesTo [0x80, 0xC0, 0xFF] "add al, -1" 3 = true ∧
    decodesTo [0xC6, 0x46, 0x00, 0x80] "mov byte [bp], -128" 4 = true ∧
    decodesTo [0xC7, 0xC3, 0x34, 0x12] "mov bx, 4660" 4 = true ∧
    decodesTo [0x82, 0xC0, 0xFF] "add al, -1" 3 = true ∧
    decodesTo [0x88, 0x26, 0x0A, 0x00] "mov [10], ah" 4 = true := by decide

/-! ### The engine -/

/-- F13 to F15: a fault after a completed instruction is at its own cursor, and the skip moves by two, past N. -/
theorem test_skip : faults (boot [0x89, 0xD9, 0x0F, 0x89, 0xC3] |>.setIp 2) .unrecognizedOpcode = true ∧
    (let s := bootSkip [0x89, 0xD9, 0x0F] |>.setIp 2; goesTo s (s.setIp 4)) = true := by decide

/-- E1 and E2: the empty buffer. -/
theorem test_empty_buffer : goesTo (bootDecode []) ((bootDecode []).setStatus .done) = true ∧
    (match step (boot []) with
      | .next t => t.status == .done && t.listing ==
          "bits 16\n\nax: 0x0\nbx: 0x0\ncx: 0x0\ndx: 0x0\nsp: 0x0\nbp: 0x0\nsi: 0x0\ndi: 0x0\nip: 0\n".toList
      | _ => false) = true := by decide

/-- The reset state takes a step of its own, and an ended run has none (log entries 2 and 4). -/
theorem test_ended : (match step State.reset with | .next t => t.status == .done | _ => false) = true ∧
    (match step (State.reset.setStatus .done) with | .fault r => r == .runEnded .done | _ => false) = true := by
  decide

/-! ### Witnesses: the hypotheses of the obligations, met together -/

/-- The invariant holds where a run begins. -/
theorem inv_boot (buf : List Byte) (execute skip : Bool) :
    Inv (.resetWith { Inputs.reset with buf := buf, execute := execute, skipUnrecognized := skip }) where
  canonical := by simp [State.resetWith, Memory.wf]
  window := by simp [State.resetWith]
  cursor := by simp [State.resetWith]
  cursorExact := by simp [State.resetWith]
  header := List.prefix_refl _
  faultAt := by simp [State.resetWith]
  doneAt := by simp [State.resetWith]
  skipped := by simp [State.resetWith]
  decodeOnly := fun _ => ⟨rfl, rfl, rfl⟩
  decodeOnlyFault := by simp [State.resetWith]

/-- MemoryAccessesAreLittleEndian, AccessesOutsideTheWindowAreRefused: the first and the last admitted addresses of
each width, and the next ones. -/
theorem witness_window : inWindow 0 1 ∧ inWindow 0xFFFF 1 ∧ ¬ inWindow 0x10000 1 ∧ inWindow 0 2 ∧ inWindow 0xFFFE 2 ∧
    ¬ inWindow 0xFFFF 2 ∧ ¬ inWindow (-1) 1 ∧ ¬ inWindow (-1) 2 := by decide

/-- OverlappingAccessesSeeTheSameBytes, at the last admitted word. -/
theorem witness_overlapping : inWindow 0xFFFE 2 ∧ (∃ t, (boot []).memWrite16 0xFFFE 0x1234 = .ok t) ∧
    ∃ t u, (boot []).memWrite8 0xFFFE 0x34 = .ok t ∧ t.memWrite8 (0xFFFE + 1) 0x12 = .ok u :=
  ⟨by decide, ⟨_, if_pos (by decide)⟩, _, _, if_pos (by decide), if_pos (by decide)⟩

/-- BaseAndIndexFollowTheTable: the direct address, and each mode with a base and index. -/
theorem witness_resolve :
    resolve Reg16.ofCode 0b00000110 [5, 0] = .ok (.mem (.direct 5), []) ∧
    resolve Reg16.ofCode 0b00000101 [] = .ok (.mem (.plain .di), []) ∧
    resolve Reg16.ofCode 0b01000110 [0] = .ok (.mem (.disp8 .bp 0), []) ∧
    resolve Reg16.ofCode 0b10000110 [0, 0x80] = .ok (.mem (.disp16 .bp 0x8000), []) := by decide

/-- MemoryBankIsOneMebibyteOfBytes, UpperBankIsNeverTouched, OnlyMemoryDestinationsStore: a step that changes a byte,
the last one of the window. -/
theorem witness_store : ∃ s t : State, step s = .next t ∧ t.mem.read 0xFFFF ≠ s.mem.read 0xFFFF :=
  ⟨boot [0xC6, 0x06, 0xFF, 0xFF, 0x07], ((put (boot [0xC6, 0x06, 0xFF, 0xFF, 0x07]) 0xFFFF 7).emit
    "mov byte [65535], 7".toList).setIp 5, step_of_goesTo (by decide), by decide⟩

/-- MemoryBankIsOneMebibyteOfBytes, DecodeOnlyStepsWriteNoRegister and every statement about decode-only mode. -/
theorem witness_decodeOnly : (bootDecode [0x89, 0xD9]).inputs.execute = false ∧
    Inputs.execute { Inputs.reset with execute := false } = false := by decide

/-- EncodedInstructionsDecodeToThemselves, TruncatedInstructionsAreReported: the longest instruction, cut at 0 and at
5 bytes. -/
theorem witness_wf : (Instr.movRm16Imm16 (.mem (.disp16 .di 901)) 347).wf = true ∧
    0 < (Instr.movRm16Imm16 (.mem (.disp16 .di 901)) 347).length ∧
    5 < (Instr.movRm16Imm16 (.mem (.disp16 .di 901)) 347).length := by decide

/-- UnrecognizedVerdictsComeBeforeTruncation: a byte of each clause, the reg fields next to the valid ones. -/
theorem witness_verdicts : classify 0x08 = none ∧ classify 0xFF = none ∧
    regField 0b11001000 ∉ ([0b000, 0b101, 0b111] : List (BitVec 3)) ∧
    regField 0b11110000 ∉ ([0b000, 0b101, 0b111] : List (BitVec 3)) ∧ regField 0b11001000 ≠ 0b000 := by decide

/-- The result statements of MOV, ADD, SUB and CMP and ArithmeticWritesDestinationAndZeroFlag: execute mode with an
admitted operand of each width, a register and the last admitted address. -/
theorem witness_operands : (boot []).inputs.execute = true ∧ (boot []).Readable8 (.reg .ah) ∧
    (boot []).Readable8 (.mem (.direct 0xFFFF)) ∧ (boot []).Readable16 (.reg .sp) ∧
    (boot []).Readable16 (.mem (.direct 0xFFFE)) :=
  ⟨rfl, trivial, by show inWindow _ _; decide, trivial, by show inWindow _ _; decide⟩

/-- MemoryFormsTrapOutsideTheWindow: a word at 0xFFFF as destination, a byte at -1 as source. -/
theorem witness_trap : (boot []).inputs.execute = true ∧
    memoryOperand (.addRm16Imm16 (.mem (.direct 0xFFFF)) 1) = some (.direct 0xFFFF, 2) ∧
    ¬ (0 ≤ (boot []).ea (.direct 0xFFFF) ∧ (boot []).ea (.direct 0xFFFF) + (2 : Nat) ≤ 0x10000) ∧
    memoryOperand (.cmpR8Rm8 .al (.mem (.disp8 .bp 0xFF))) = some (.disp8 .bp 0xFF, 1) ∧
    ¬ (0 ≤ (boot []).ea (.disp8 .bp 0xFF) ∧ (boot []).ea (.disp8 .bp 0xFF) + (1 : Nat) ≤ 0x10000) := by
  decide

/-- DecodeOnlyModeRendersAndAdvances, its second clause. -/
theorem witness_branch : recordOf (.jcxz 0x80) = .branch .jcxz 0x80 := by decide

/-- BranchesTouchNothingButTheCursor: a taken JNE answers a next state. -/
theorem witness_jne_next : ∃ t, exec (BranchOp.instr .jne 0xFE) (boot [0x75, 0xFE]) = .next t :=
  ⟨(boot [0x75, 0xFE]).emit "jne 0".toList, exec_of_execTo (by decide)⟩

/-- JneNotTakenAdvances, JneTakenJumpsRelativeToItsEnd (targets 0 and N) and JneOutsideTheBufferFaults (targets -1 and
N + 1). -/
theorem witness_jne : (boot [0x75, 0xFE]).inputs.execute = true ∧ ((boot [0x75, 0xFE]).setZf true).zf = true ∧
    (boot [0x75, 0xFE]).zf = false ∧
    ((0 : Nat) : Int) = (boot [0x75, 0xFE]).ip + 2 +
      (if (0xFE : Byte).toNat < 128 then ((0xFE : Byte).toNat : Int) else (0xFE : Byte).toNat - 256) ∧
    (0 : Nat) ≤ (boot [0x75, 0xFE]).inputs.buf.length ∧
    ((2 : Nat) : Int) = (boot [0x75, 0x00]).ip + 2 +
      (if (0x00 : Byte).toNat < 128 then ((0x00 : Byte).toNat : Int) else (0x00 : Byte).toNat - 256) ∧
    (2 : Nat) ≤ (boot [0x75, 0x00]).inputs.buf.length ∧ ((boot [0x75, 0xFD]).ip : Int) + 2 + (0xFD : Byte).toInt < 0 ∧
    ((boot [0x75, 0x01]).inputs.buf.length : Int) < (boot [0x75, 0x01]).ip + 2 + (0x01 : Byte).toInt := by
  decide

/-- StepRunsTheDecodedInstruction, at the first and at the last instruction of a buffer. -/
theorem witness_step : (boot [0x75, 0x00, 0x89, 0xD9]).status = .running ∧
    decode ((boot [0x75, 0x00, 0x89, 0xD9]).inputs.buf.drop 0) = .ok (.jne 0, [0x89, 0xD9]) ∧
    ((boot [0x75, 0x00, 0x89, 0xD9]).setIp 2).ip < (boot [0x75, 0x00, 0x89, 0xD9]).inputs.buf.length ∧
    decode ((boot [0x75, 0x00, 0x89, 0xD9]).inputs.buf.drop 2) = .ok (.movRm16R16 (.reg .cx) .bx, []) := by decide

/-- DecoderVerdictsFaultOrSkip, its three clauses, at the last byte of a buffer. -/
theorem witness_decoder : (boot [0x89]).status = .running ∧ (boot [0x89]).ip < (boot [0x89]).inputs.buf.length ∧
    decode ((boot [0x89]).inputs.buf.drop 0) = .error .truncatedInstruction ∧
    decode ((boot [0x0F]).inputs.buf.drop 0) = .error .unrecognizedOpcode ∧
    (boot [0x0F]).inputs.skipUnrecognized = false ∧ (bootSkip [0x0F]).inputs.skipUnrecognized = true := by decide

/-- RunsEndAtTheBuffersEnd, EndOfRunPrintsDumpAndCursor: a cursor at N and one beyond it, and the empty buffer. -/
theorem witness_end : (boot []).status = .running ∧ (boot []).inputs.buf.length ≤ (boot []).ip ∧
    ((bootSkip [0x0F]).setIp 2).inputs.buf.length < ((bootSkip [0x0F]).setIp 2).ip ∧ (boot []).inputs.buf = [] ∧
    goesTo (bootDecode []) ((bootDecode []).setStatus .done) = true := by decide

/-- RunsEndAtTheBuffersEnd, its clause on a cursor beyond N; NextCursorValue and ListingGrowsByOneLine, on a skip. -/
theorem witness_skip : ∃ s t : State, s.status = .running ∧ s.ip < s.inputs.buf.length ∧ step s = .next t ∧
    t.status = .running ∧ s.inputs.buf.length < t.ip ∧
    decode (s.inputs.buf.drop s.ip) = .error .unrecognizedOpcode :=
  ⟨bootSkip [0x0F], (bootSkip [0x0F]).setIp 2, rfl, by decide, step_of_goesTo (by decide), rfl, by decide,
    by decide⟩

/-- EndedRunsTakeNoStep. -/
theorem witness_ended : ((boot []).setStatus .done).status ≠ .running ∧
    ((boot []).setStatus (.fault .addressOutOfRange 0)).status ≠ .running := by decide

/-- FaultEntryIsPrecise. -/
theorem witness_fault : ∃ s t : State, step s = .next t ∧ t.status = .fault .branchTargetOutOfRange 0 :=
  ⟨boot [0x75, 0x01], (boot [0x75, 0x01]).setStatus (.fault .branchTargetOutOfRange 0),
    step_of_goesTo (by decide), rfl⟩

/-- NextCursorValue, OnlyJneTransfersControl and ListingGrowsByOneLine: a taken JNE that goes on running. -/
theorem witness_transfer : ∃ s t : State, s.status = .running ∧ s.ip < s.inputs.buf.length ∧ step s = .next t ∧
    t.status = .running ∧ s.inputs.execute = true ∧ s.zf = false ∧ exec (.jne 0xFE) s = .next t ∧
    t.ip ≠ s.ip + (Instr.jne 0xFE).length ∧ decode (s.inputs.buf.drop s.ip) = .ok (.jne 0xFE, []) :=
  ⟨boot [0x75, 0xFE], (boot [0x75, 0xFE]).emit "jne 0".toList, rfl, by decide, step_of_goesTo (by decide), rfl,
    rfl, rfl, exec_of_execTo (by decide), by decide, by decide⟩

/-- NextCursorValue, its clause on every other instruction, and DecodeOnlyStepsWriteNoRegister: a MOV that changes a
register. -/
theorem witness_register : ∃ s t : State, s.status = .running ∧ s.ip < s.inputs.buf.length ∧ step s = .next t ∧
    t.status = .running ∧ t.regs ≠ s.regs ∧ decode (s.inputs.buf.drop s.ip) = .ok (.movR8Imm8 .cl 12, []) :=
  ⟨boot [0xB1, 0x0C], (((boot [0xB1, 0x0C]).setR16 .cx 12).emit "mov cl, 12 => cl 0xc".toList).setIp 2, rfl, by decide,
    step_of_goesTo (by decide), rfl, by decide, by decide⟩

/-- OnlyArithmeticWritesTheZeroFlag: a CMP that sets it. -/
theorem witness_zf : ∃ s t : State, step s = .next t ∧ t.zf ≠ s.zf :=
  ⟨boot [0x3C, 0x00], (((boot [0x3C, 0x00]).setZf true).emit "cmp al, 0 => al 0x0".toList).setIp 2,
    step_of_goesTo (by decide), by decide⟩

/-- OnlyJneReadsTheZeroFlag: a CMP and a JE. -/
theorem witness_notJne : (∀ d, Instr.cmpAlImm8 0 ≠ .jne d) ∧ (∀ d, Instr.je 0 ≠ .jne d) ∧
    (∃ t, exec (.je 0) (boot []) = .next t) ∧ ∃ t, exec (.cmpAlImm8 0) (boot []) = .next t :=
  ⟨nofun, nofun, ⟨_, rfl⟩, ⟨_, rfl⟩⟩

/-- HeaderOpensTheListing. -/
theorem witness_header : "bits 16\n\n".toList <+: (boot []).listing := List.prefix_refl _

/-- StepKeepsTheInvariant: an invariant state with a step in execute mode, and one in decode-only mode. -/
theorem witness_invariant : (Inv (boot [0x75, 0xFE]) ∧ ∃ t, step (boot [0x75, 0xFE]) = .next t) ∧
    Inv (bootDecode [0x75, 0xFE]) ∧ ∃ t, step (bootDecode [0x75, 0xFE]) = .next t :=
  ⟨⟨inv_boot _ true false, (boot [0x75, 0xFE]).emit "jne 0".toList, step_of_goesTo (by decide)⟩,
    inv_boot _ false false, ((bootDecode [0x75, 0xFE]).emit "jne -2".toList).setIp 2, step_of_goesTo (by decide)⟩

/-- InputsOfARunNeverChange: a step and an instruction that answer a next state. -/
theorem witness_inputs : (∃ t, step (boot []) = .next t) ∧ ∃ t, exec (.jo 0) (boot []) = .next t := ⟨⟨_, rfl⟩, _, rfl⟩

/-- DecodeOnlyRunsDependOnTheBufferOnly: two states that differ in registers, ZF, memory and ZF_RESET. -/
theorem witness_two_runs :
    let s := bootDecode [0x75, 0xFE]
    let u : State := { put ((s.setR16 .ax 1).setZf true) 5 6 with inputs := { s.inputs with zfReset := true } }
    s ≠ u ∧ s.inputs.execute = false ∧ u.inputs.execute = false ∧ s.inputs.buf = u.inputs.buf ∧
      s.inputs.skipUnrecognized = u.inputs.skipUnrecognized ∧ s.ip = u.ip ∧ s.listing = u.listing ∧
      s.status = u.status := by decide

/-- DecodeOnlyRunsEnd: the least fuel for a buffer of two bytes, and for none. -/
theorem witness_fuel : (bootDecode [0x89, 0xD9]).inputs.buf.length < (bootDecode [0x89, 0xD9]).ip + 3 ∧
    (bootDecode []).inputs.buf.length < (bootDecode []).ip + 1 := by decide

/-- DumpImageIsTheWholeBank: both values of DUMP. -/
theorem witness_dump : State.reset.inputs.dump = false ∧
    (State.resetWith { Inputs.reset with dump := true }).inputs.dump = true := by decide

/-- ByteDisplacementText and WordDisplacementText: each sign, at the ends of the ranges. -/
theorem witness_displacements : (0 : Byte).toInt = 0 ∧ 0 < (1 : Byte).toInt ∧ 0 < (127 : Byte).toInt ∧
    (128 : Byte).toInt < 0 ∧ (255 : Byte).toInt < 0 ∧ 0 ≤ (0 : Word).toInt ∧ 0 ≤ (0x7FFF : Word).toInt ∧
    (0x8000 : Word).toInt < 0 := by decide

/-- ExecuteModeLinesShowTheDestination and SizePrefixOnlyOnImmediateToMemory: a record of each kind. -/
theorem witness_records : (boot []).inputs.execute = true ∧
    recordOf (.cmpAlImm8 9) = .twoOperand .cmp (.reg8 .al) (.imm8 9) false ∧
    recordOf (.movR16Imm16 .dx 1) = .twoOperand .mov (.reg16 .dx) (.imm16 1) false ∧
    recordOf (.addRm8Imm8 (.mem (.plain .bx)) 34) = .twoOperand .add (.mem 1 (.plain .bx)) (.imm8 34) true ∧
    recordOf (.jne 0x80) = .branch .jne 0x80 := by decide

end Sys2Proof.Tests
end

/-! PROOFS. 10_state.md: the register views, the Memory Bank, the cursor, and what decode-only mode leaves alone. -/

namespace Sys2Proof

/-! ### The codes of the views (10_state.md R32, R33) -/

/-- The parent of view code `i` is register code `i` modulo 4. -/
theorem Reg8.parent_ofCode (i : BitVec 3) : (Reg8.ofCode i).parent = Reg16.ofCode (i &&& 3) := by
  revert i; decide

/-- Codes 4 to 7 are the high halves. -/
theorem Reg8.isHigh_ofCode (i : BitVec 3) : (Reg8.ofCode i).isHigh = !decide (i.toNat < 4) := by
  revert i; decide

/-- What view code `i` shows of its parent's value. -/
theorem Reg8.viewOf_ofCode (i : BitVec 3) (v : Word) :
    (Reg8.ofCode i).viewOf v = if i.toNat < 4 then v.extractLsb' 0 8 else v.extractLsb' 8 8 := by
  rw [Reg8.viewOf, Reg8.isHigh_ofCode]
  by_cases h : i.toNat < 4 <;> simp [h, lowByte, highByte]

/-- What putting `b` into the half of view code `i` makes of its parent's value. -/
theorem Reg8.putInto_ofCode (i : BitVec 3) (b : Byte) (v : Word) :
    (Reg8.ofCode i).putInto b v = if i.toNat < 4 then v.extractLsb' 8 8 ++ b else b ++ v.extractLsb' 0 8 := by
  rw [Reg8.putInto, Reg8.isHigh_ofCode]
  by_cases h : i.toNat < 4 <;> simp [h, lowByte, highByte, wordOfBytes]

namespace Machine

/-- Settles O3: by the code tables the statement speaks of a view and its parent, and the read-after-write laws of
the Register File give each clause. -/
theorem halfRegistersAliasTheirParent : Obligations.HalfRegistersAliasTheirParent := by
  intro s i
  simp only [← Reg8.viewOf_ofCode, ← Reg8.putInto_ofCode, ← Reg8.parent_ofCode]
  refine ⟨rfl, fun v => ⟨?_, ?_, ?_⟩, fun v => ?_⟩
  · exact s.r16_setR8_parent _ v
  · exact fun q hq => s.r16_setR8_other hq v
  · exact s.r8_setR8_self _ v
  · rw [State.r8, State.r16_setR16_self]

/-! ### Reset (10_state.md R39, R47) -/

@[simp] theorem State.r16_resetWith (inputs : Inputs) (r : Reg16) : (State.resetWith inputs).r16 r = 0 :=
  Regs.get_reset r

@[simp] theorem State.r8_resetWith (inputs : Inputs) (r : Reg8) : (State.resetWith inputs).r8 r = 0 := by
  rw [State.r8, State.r16_resetWith]
  cases r <;> decide

@[simp] theorem State.mem_resetWith (inputs : Inputs) : (State.resetWith inputs).mem = [] := rfl

/-- Settles O1: reset zeroes the Register File, and a view shows a half of a zero word. -/
theorem resetZeroesEveryRegister : Obligations.ResetZeroesEveryRegister :=
  fun inputs => ⟨State.r16_resetWith inputs, State.r8_resetWith inputs⟩

/-! ### Runs -/

/-- A property that every step keeps holds at the end of a run from any state that has it. -/
theorem run_induction {P : State → Prop} (hstep : ∀ s t, P s → step s = .next t → P t) (n : Nat) {s : State}
    (hs : P s) : P (run n s) := by
  induction n generalizing s with
  | zero => exact hs
  | succ n ih =>
    rw [run]
    split
    · next t ht => exact ih (hstep s t hs ht)
    · exact hs
    · exact hs

/-! ### Decode-only mode (10_state.md R38, R40, R47) -/

/-- Registers, ZF, memory and inputs are as before: only cursor, listing and status may differ. -/
structure SameMachine (s t : State) : Prop where
  regs : t.regs = s.regs
  zf : t.zf = s.zf
  mem : t.mem = s.mem
  inputs : t.inputs = s.inputs

theorem SameMachine.refl (s : State) : SameMachine s s := ⟨rfl, rfl, rfl, rfl⟩

theorem SameMachine.trans {s t u : State} (h : SameMachine s t) (h' : SameMachine t u) : SameMachine s u :=
  ⟨h'.regs.trans h.regs, h'.zf.trans h.zf, h'.mem.trans h.mem, h'.inputs.trans h.inputs⟩

/-- The end of a run writes the listing and the status alone, in both modes. -/
theorem SameMachine.endRun (s : State) : SameMachine s s.endRun := by
  rw [State.endRun_eq]
  exact ⟨rfl, rfl, rfl, rfl⟩

/-- A step in decode-only mode moves the cursor and writes the listing and the status alone. -/
theorem SameMachine.of_decodeOnly_step {s t : State} (he : s.inputs.execute = false) (h : step s = .next t) :
    SameMachine s t := by
  cases step_cases h with
  | ended _ _ ht => exact ht ▸ .endRun s
  | ran i _ _ _ _ ht =>
    rw [exec_decodeOnly he] at ht
    cases ht
    exact ⟨rfl, rfl, rfl, rfl⟩
  | skipped _ _ _ _ ht => exact ht ▸ ⟨rfl, rfl, rfl, rfl⟩
  | rejected e _ _ _ _ ht => exact ht ▸ ⟨rfl, rfl, rfl, rfl⟩

/-- A decode-only run of any number of steps does the same. -/
theorem SameMachine.of_decodeOnly_run {s : State} (he : s.inputs.execute = false) (n : Nat) :
    SameMachine s (run n s) :=
  run_induction (P := SameMachine s)
    (fun _ _ hu ht => hu.trans (.of_decodeOnly_step (by rw [hu.inputs, he]) ht)) n (.refl s)

/-- Settles O45: a decode-only step keeps the Register File, and so does a decode-only run. -/
theorem decodeOnlyStepsWriteNoRegister : Obligations.DecodeOnlyStepsWriteNoRegister := by
  refine ⟨fun s t h hne => ?_, fun s n he => (SameMachine.of_decodeOnly_run he n).regs⟩
  by_contra he
  exact hne (SameMachine.of_decodeOnly_step (by simpa using he) h).regs

/-! ### The image of the bank (10_state.md R47, 20_memory.md R91) -/

theorem Memory.length_image (m : Memory) : m.image.length = Config.memSize := by simp [Memory.image]

theorem Memory.getElem?_image (m : Memory) {a : Nat} (h : a < Config.memSize) : m.image[a]? = some (m.read a) := by
  simp [Memory.image, h]

/-- The image of the empty bank: every byte is zero. -/
theorem Memory.image_nil : Memory.image [] = List.replicate Config.memSize 0 := by
  refine List.eq_replicate_iff.2 ⟨Memory.length_image [], fun b hb => ?_⟩
  obtain ⟨a, -, rfl⟩ := List.mem_map.1 hb
  exact Memory.read_nil a

/-- Settles O9: the image reads the bank place by place, reset leaves the bank empty, and decode-only steps and runs
keep it. -/
theorem memoryBankIsOneMebibyteOfBytes : Obligations.MemoryBankIsOneMebibyteOfBytes := by
  refine ⟨fun m => ⟨m.length_image, fun a ha => m.getElem?_image ha⟩, fun inputs => Memory.image_nil,
    fun s t a h hne => ?_, fun inputs n a he => ?_⟩
  · by_contra he
    exact hne (by rw [(SameMachine.of_decodeOnly_step (by simpa using he) h).mem])
  · rw [(SameMachine.of_decodeOnly_run (s := .resetWith inputs) he n).mem]
    rfl

/-! ### The next cursor (10_state.md R46) -/

/-- The cursor after an instruction that left the machine running: the target of a JNE taken in execute mode, and
`p + L` otherwise. -/
theorem exec_next_ip {i : Instr} {s t : State} (h : exec i s = .next t) (hr : t.status = .running) :
    (∃ d, i = .jne d ∧ s.inputs.execute = true ∧ s.zf = false ∧ (t.ip : Int) = s.branchTarget d) ∨
      ((∀ d, i = .jne d → s.inputs.execute = true → s.zf = true) ∧ t.ip = s.ip + i.length) := by
  cases exec_cases i s with
  | effect post _ _ _ hj hx =>
    rw [hx] at h
    cases h
    exact .inr ⟨fun d hi _ => hj d hi, rfl⟩
  | outside m n _ _ _ hx =>
    rw [hx] at h
    cases h
    cases hr
  | decodeOnly he hx =>
    rw [hx] at h
    cases h
    exact .inr ⟨fun _ _ he' => by simp [he] at he', rfl⟩
  | jump d hi he hz h0 _ hx =>
    rw [hx] at h
    cases h
    exact .inl ⟨d, hi, he, hz, Int.toNat_of_nonneg h0⟩
  | jumpOutside d _ _ _ _ hx =>
    rw [hx] at h
    cases h
    cases hr

/-- Settles O40: a step that goes on running is an instruction, whose cursor `exec_next_ip` gives, or a skip. -/
theorem nextCursorValue : Obligations.NextCursorValue := by
  intro s t hs hi h hr
  cases step_cases h with
  | ended _ hN _ => exact absurd hi (Nat.not_lt.2 hN)
  | ran i rest _ _ hd ht =>
    rw [hd]
    refine ⟨fun j rest' hj => ?_, nofun, nofun⟩
    cases hj
    rcases exec_next_ip ht hr with ⟨d, rfl, he, hz, hip⟩ | ⟨hn, hip⟩
    · refine ⟨fun d' hd' _ _ => by cases hd'; exact hip, ?_⟩
      rintro (hne | he' | hz')
      · exact absurd rfl (hne d)
      · simp [he] at he'
      · simp [hz] at hz'
    · exact ⟨fun d hd' he hz => by simp [hn d hd' he] at hz, fun _ => hip⟩
  | skipped _ _ hd _ ht =>
    rw [hd]
    exact ⟨nofun, fun _ => by rw [ht]; rfl, nofun⟩
  | rejected e _ _ _ _ ht =>
    rw [ht] at hr
    cases hr

end Machine

end Sys2Proof

/-! PROOFS. 20_memory.md: the accesses at an admitted effective address. -/

namespace Sys2Proof.Machine

/-! ### Admitted accesses (20_memory.md R71, R78) -/

theorem State.memRead8_ok {s : State} {a : Int} (h : inWindow a 1) : s.memRead8 a = .ok (s.mem.read a.toNat) :=
  if_pos h

theorem State.memRead16_ok {s : State} {a : Int} (h : inWindow a 2) : s.memRead16 a = .ok (s.mem.readWord a.toNat) :=
  if_pos h

theorem State.memWrite8_ok {s : State} {a : Int} (h : inWindow a 1) (v : Byte) :
    s.memWrite8 a v = .ok { s with mem := s.mem.write a.toNat v } := if_pos h

theorem State.memWrite16_ok {s : State} {a : Int} (h : inWindow a 2) (v : Word) :
    s.memWrite16 a v = .ok { s with mem := s.mem.writeWord a.toNat v } := if_pos h

/-- Settles O4: an admitted access succeeds, the word read is defined as the two bytes low first, and the
read-after-write laws of the Memory Bank say what a write leaves in each byte. -/
theorem memoryAccessesAreLittleEndian : Obligations.MemoryAccessesAreLittleEndian := by
  refine fun s a => ⟨fun h => ⟨State.memRead8_ok h, fun v => ⟨_, State.memWrite8_ok h v, ?_, ?_, rfl⟩⟩,
    fun h => ⟨State.memRead16_ok h, fun v => ⟨_, State.memWrite16_ok h v, ?_, ?_, ?_, rfl⟩⟩⟩
  · exact s.mem.read_write_self _ v
  · exact fun b hb => s.mem.read_write_other hb v
  · exact s.mem.read_writeWord_low _ v
  · exact s.mem.read_writeWord_high _ v
  · exact fun b hb hb' => s.mem.read_writeWord_other hb hb' v

end Sys2Proof.Machine

/-! PROOFS. 30_encoding.md: the operand a ModRM byte names, its base and index, and the text of its displacement. -/

namespace Sys2Proof

/-! ### The memory operand of a ModRM byte (30_encoding.md R104, R105) -/

section
variable {ρ : Type} {ofCode : BitVec 3 → ρ} {m : Byte} {bs rest : List Byte} {o : RM ρ}

/-- Mode 00 with rm 110 names a direct address. -/
theorem resolve_direct (h : resolve ofCode m bs = .ok (o, rest)) (hmod : modField m = 0b00)
    (hrm : rmField m = 0b110) : ∃ a, o = .mem (.direct a) := by
  rw [resolve, if_neg (by rw [hmod]; decide), if_pos hmod, if_pos hrm] at h
  obtain ⟨⟨a, _⟩, -, he⟩ := Except.map_ok h
  exact ⟨a, (Prod.mk.inj he).1⟩

/-- Every other ModRM byte with a memory mode names the base and index of its r/m field, with the displacement of
its mode. -/
theorem resolve_baseIndex (h : resolve ofCode m bs = .ok (o, rest)) (hmod : modField m ≠ 0b11)
    (hd : ¬ (modField m = 0b00 ∧ rmField m = 0b110)) :
    o = .mem (.plain (BaseIndex.ofCode (rmField m))) ∨ (∃ d, o = .mem (.disp8 (BaseIndex.ofCode (rmField m)) d)) ∨
      ∃ d, o = .mem (.disp16 (BaseIndex.ofCode (rmField m)) d) := by
  rw [resolve, if_neg hmod] at h
  split_ifs at h with h0 hrm h1
  · exact absurd ⟨h0, hrm⟩ hd
  · exact .inl (Prod.mk.inj (Except.ok.inj h)).1.symm
  · obtain ⟨⟨d, _⟩, -, he⟩ := Except.map_ok h
    exact .inr (.inl ⟨d, (Prod.mk.inj he).1⟩)
  · obtain ⟨⟨d, _⟩, -, he⟩ := Except.map_ok h
    exact .inr (.inr ⟨d, (Prod.mk.inj he).1⟩)

end

namespace Machine

/-! ### The sum of base and index (30_encoding.md R105) -/

theorem State.baseIndex_base_index (s : State) {b : BaseIndex} {r q : Reg16} (hb : b.base = some r)
    (hi : b.index = some q) : s.baseIndex b = (s.r16 r).toNat + (s.r16 q).toNat := by
  rw [State.baseIndex, hb, hi]
  rfl

/-- A missing index contributes 0. -/
theorem State.baseIndex_base (s : State) {b : BaseIndex} {r : Reg16} (hb : b.base = some r)
    (hi : b.index = none) : s.baseIndex b = (s.r16 r).toNat := by
  rw [State.baseIndex, hb, hi]
  rfl

/-- A missing base contributes 0. -/
theorem State.baseIndex_index (s : State) {b : BaseIndex} {q : Reg16} (hb : b.base = none)
    (hi : b.index = some q) : s.baseIndex b = (s.r16 q).toNat := by
  rw [State.baseIndex, hb, hi]
  exact Nat.zero_add _

/-- Settles O7: the two cases of the resolver, then the rows of the table by which of base and index they have. -/
theorem baseAndIndexFollowTheTable : Obligations.BaseAndIndexFollowTheTable := by
  refine ⟨fun ρ ofCode m bs rest o h hmod => ?_, fun s => ?_⟩
  · split_ifs with hd
    · obtain ⟨h00, h110⟩ := hd
      exact resolve_direct h h00 h110
    · exact resolve_baseIndex h hmod hd
  · exact ⟨⟨s.baseIndex_base_index rfl rfl, rfl⟩, ⟨s.baseIndex_base_index rfl rfl, rfl⟩,
      ⟨s.baseIndex_base_index rfl rfl, rfl⟩, ⟨s.baseIndex_base_index rfl rfl, rfl⟩,
      ⟨s.baseIndex_index rfl rfl, rfl⟩, ⟨s.baseIndex_index rfl rfl, rfl⟩,
      ⟨s.baseIndex_base rfl rfl, rfl⟩, ⟨s.baseIndex_base rfl rfl, rfl⟩⟩

/-! ### The text of a displacement (30_encoding.md R132, R133) -/

theorem signedText_of_nonneg {x : Int} (h : 0 ≤ x) : signedText x = " + ".toList ++ dec x := if_pos h

theorem signedText_of_neg {x : Int} (h : x < 0) : signedText x = " - ".toList ++ dec (-x) := if_neg (by omega)

theorem disp8Text_of_zero {d : Byte} (h : d.toInt = 0) : disp8Text d = [] := if_pos h

theorem disp8Text_of_ne_zero {d : Byte} (h : d.toInt ≠ 0) : disp8Text d = signedText d.toInt := if_neg h

theorem memText_plain (b : BaseIndex) : memText (.plain b) = ['['] ++ baseIndexText b ++ [']'] := rfl

theorem memText_disp8 (b : BaseIndex) (d : Byte) :
    memText (.disp8 b d) = ['['] ++ baseIndexText b ++ disp8Text d ++ [']'] := rfl

theorem memText_disp16 (b : BaseIndex) (d : Word) :
    memText (.disp16 b d) = ['['] ++ baseIndexText b ++ signedText d.toInt ++ [']'] := rfl

/-- Settles O55: the displacement's text is empty at 0 and `signedText` elsewhere, which the sign decides. -/
theorem byteDisplacementText : Obligations.ByteDisplacementText := by
  refine fun b d => ⟨memText_plain b, fun h => ?_, fun h => ?_, fun h => ?_⟩ <;> rw [memText_disp8]
  · rw [disp8Text_of_zero h, List.append_nil]
  · rw [disp8Text_of_ne_zero h.ne', signedText_of_nonneg h.le, ← List.append_assoc]
  · rw [disp8Text_of_ne_zero h.ne, signedText_of_neg h, ← List.append_assoc]

/-- Settles O56: the displacement's text is `signedText`, which the sign decides; zero and the least word are evaluated. -/
theorem wordDisplacementText : Obligations.WordDisplacementText := by
  refine fun b d => ⟨fun h => ?_, fun h => ?_, ?_, ?_⟩ <;> rw [memText_disp16]
  · rw [signedText_of_nonneg h, ← List.append_assoc]
  · rw [signedText_of_neg h, ← List.append_assoc]
  · have hzero : signedText (0 : Word).toInt ++ [']'] = " + 0]".toList := by decide
    rw [List.append_assoc, hzero]
  · have hmin : signedText (0x8000 : Word).toInt ++ [']'] = " - 32768]".toList := by decide
    rw [List.append_assoc, hmin]

end Machine

end Sys2Proof

/-! PROOFS. 41_arith.md: the results of ADD, SUB and CMP as natural numbers, and what the shared operation leaves. -/

namespace Sys2Proof

/-! ### The results in natural-number arithmetic (41_arith.md R220) -/

section
variable {w : Nat} (a b : BitVec w)

/-- ADD is the sum modulo `2^w`. -/
theorem AluOp.result_add : AluOp.add.result a b = BitVec.ofNat w ((a.toNat + b.toNat) % 2 ^ w) := by
  refine BitVec.eq_of_toNat_eq ?_
  rw [AluOp.result, BitVec.toNat_add, BitVec.toNat_ofNat, Nat.mod_mod]

/-- SUB is the difference modulo `2^w`, a multiple of the modulus being added before the natural subtraction. -/
theorem AluOp.result_sub : AluOp.sub.result a b = BitVec.ofNat w ((a.toNat + 2 ^ w - b.toNat) % 2 ^ w) := by
  have hb : b.toNat < 2 ^ w := b.isLt
  refine BitVec.eq_of_toNat_eq ?_
  rw [AluOp.result, BitVec.toNat_sub, BitVec.toNat_ofNat, Nat.mod_mod]
  congr 1
  omega

namespace Machine

/-- A residue is zero as a word exactly when it is zero as a number. -/
theorem zeroFlag_ofNat_mod (n : Nat) : zeroFlag (BitVec.ofNat w (n % 2 ^ w)) = true ↔ n % 2 ^ w = 0 := by
  rw [zeroFlag_eq_true, BitVec.toNat_eq, BitVec.toNat_ofNat, Nat.mod_mod]
  rfl

theorem zeroFlag_result_add :
    zeroFlag (AluOp.add.result a b) = true ↔ (a.toNat + b.toNat) % 2 ^ w = 0 := by
  rw [AluOp.result_add, zeroFlag_ofNat_mod]

theorem zeroFlag_result_sub :
    zeroFlag (AluOp.sub.result a b) = true ↔ (a.toNat + 2 ^ w - b.toNat) % 2 ^ w = 0 := by
  rw [AluOp.result_sub, zeroFlag_ofNat_mod]

/-- The discarded difference of CMP is zero exactly on equality. -/
theorem zeroFlag_result_cmp : zeroFlag (AluOp.cmp.result a b) = true ↔ a = b := by
  rw [zeroFlag_eq_true, AluOp.result, sub_eq_zero]

end Machine

end

namespace Machine

/-! ### What the shared operation writes and what it leaves (41_arith.md R220) -/

section
variable (s : State) {op : AluOp}

/-- A storing operation writes its result to the destination and nothing else of registers and memory. -/
theorem State.aluPut8_writes {o : RM Reg8} {b r : Byte} (hs : op.stores = true) (hr : op.result (s.value8 o) b = r) :
    Writes8 o r s (s.aluPut8 op o b) := by
  rw [State.aluPut8, if_pos hs, hr]
  exact .of_put s rfl rfl

theorem State.aluPut16_writes {o : RM Reg16} {b r : Word} (hs : op.stores = true)
    (hr : op.result (s.value16 o) b = r) : Writes16 o r s (s.aluPut16 op o b) := by
  rw [State.aluPut16, if_pos hs, hr]
  exact .of_put s rfl rfl

/-- An operation that does not store writes the flag alone. -/
theorem State.aluPut8_of_not_stores (o : RM Reg8) (b : Byte) (hs : op.stores = false) :
    s.aluPut8 op o b = s.setZf (zeroFlag (op.result (s.value8 o) b)) := by
  rw [State.aluPut8, if_neg (by simp [hs])]

theorem State.aluPut16_of_not_stores (o : RM Reg16) (b : Word) (hs : op.stores = false) :
    s.aluPut16 op o b = s.setZf (zeroFlag (op.result (s.value16 o) b)) := by
  rw [State.aluPut16, if_neg (by simp [hs])]

end

/-- The Zero Flag is no register and no byte of memory. -/
theorem State.setZf_same (s : State) (z : Bool) : SameRegs s (s.setZf z) ∧ SameMem s (s.setZf z) :=
  ⟨fun _ => rfl, fun _ => rfl⟩

/-- Settles O25: an admitted operation gives `aluPut8` or `aluPut16`, which keep every other field; then ADD and SUB
store their result and CMP writes the flag alone. -/
theorem arithmeticWritesDestinationAndZeroFlag : Obligations.ArithmeticWritesDestinationAndZeroFlag := by
  refine fun s op => ⟨fun dst b h => ⟨s.aluPut8 op dst b, s.alu8_ok h op b, by simp, by simp, by simp, by simp, ?_⟩,
    fun dst b h => ⟨s.aluPut16 op dst b, s.alu16_ok h op b, by simp, by simp, by simp, by simp, ?_⟩⟩
  · cases op with
    | add => exact ⟨s.aluPut8_writes rfl (AluOp.result_add _ b), zeroFlag_result_add _ b⟩
    | sub => exact ⟨s.aluPut8_writes rfl (AluOp.result_sub _ b), zeroFlag_result_sub _ b⟩
    | cmp =>
      rw [s.aluPut8_of_not_stores dst b rfl]
      obtain ⟨hregs, hmem⟩ := s.setZf_same (zeroFlag (AluOp.cmp.result (s.value8 dst) b))
      exact ⟨hregs, hmem, zeroFlag_result_cmp _ b⟩
  · cases op with
    | add => exact ⟨s.aluPut16_writes rfl (AluOp.result_add _ b), zeroFlag_result_add _ b⟩
    | sub => exact ⟨s.aluPut16_writes rfl (AluOp.result_sub _ b), zeroFlag_result_sub _ b⟩
    | cmp =>
      rw [s.aluPut16_of_not_stores dst b rfl]
      obtain ⟨hregs, hmem⟩ := s.setZf_same (zeroFlag (AluOp.cmp.result (s.value16 dst) b))
      exact ⟨hregs, hmem, zeroFlag_result_cmp _ b⟩

end Machine

end Sys2Proof

/-! PROOFS. 42_branch.md: what a branch reads and writes. -/

namespace Sys2Proof

/-! ### The two bytes of a branch (30_encoding.md R110, R140) -/

namespace BranchOp

theorem encode_instr (op : BranchOp) (d : Byte) : encode (op.instr d) = [(Form.branch op).opcode, d] := by
  cases op <;> rfl

theorem ofByte_opcode (op : BranchOp) : ofByte (Form.branch op).opcode = some op := by
  cases op <;> rfl

/-- The form of a branch takes one displacement byte. -/
theorem decode_instr (op : BranchOp) (d : Byte) (rest : List Byte) :
    decode ((Form.branch op).opcode :: d :: rest) = .ok (op.instr d, rest) := decode_opcode rfl (d :: rest)

theorem recordOf_instr (op : BranchOp) (d : Byte) : Machine.recordOf (op.instr d) = .branch op d := by
  cases op <;> rfl

end BranchOp

namespace Machine

/-! ### The outcome of a branch (42_branch.md R270 to R272) -/

/-- A taken JNE goes to its target; every other branch passes by. -/
theorem exec_branch (op : BranchOp) (d : Byte) (s : State) :
    exec (op.instr d) s = if op = .jne ∧ s.inputs.execute = true ∧ s.zf = false then takeBranch (op.instr d) d s
      else passBy (op.instr d) s := by
  by_cases hop : op = .jne
  · subst hop
    simp only [true_and]
    rfl
  · rw [if_neg fun h => hop h.1]
    cases op with
    | jne => exact absurd rfl hop
    | _ => rfl

/-- The line of a branch has no suffix: it shows the mode and the bytes of the branch alone. -/
theorem render_branch (op : BranchOp) (d : Byte) (s : State) :
    render (op.instr d) s = plainLine s.inputs.execute (.branch op d) := by
  rw [render, BranchOp.recordOf_instr]
  cases s.inputs.execute with
  | true => exact List.append_nil _
  | false => rfl

/-- Completing a branch commutes with replacing registers and memory. -/
theorem State.retire_branch_replace (op : BranchOp) (d : Byte) (s : State) (n : Nat) (R : Regs) (M : Memory) :
    State.retire { s with regs := R, mem := M } (op.instr d) n =
      { s.retire (op.instr d) n with regs := R, mem := M } := by
  simp only [State.retire, render_branch]
  rfl

/-- From `s`, the operation keeps registers, ZF and memory, and its outcome does not depend on registers and
memory. -/
def TouchesNoBank (f : State → Outcome) (s : State) : Prop :=
  ∀ t, f s = .next t → t.regs = s.regs ∧ t.zf = s.zf ∧ t.mem = s.mem ∧
    ∀ (R : Regs) (M : Memory), f { s with regs := R, mem := M } = .next { t with regs := R, mem := M }

theorem passBy_touchesNoBank (op : BranchOp) (d : Byte) (s : State) : TouchesNoBank (passBy (op.instr d)) s := by
  intro t h
  cases h
  exact ⟨rfl, rfl, rfl, fun R M => congrArg Host.Outcome.next (s.retire_branch_replace op d _ R M)⟩

/-- The target is computed from the cursor, so the same target is tested after the replacement. -/
theorem takeBranch_touchesNoBank (op : BranchOp) (d : Byte) (s : State) :
    TouchesNoBank (takeBranch (op.instr d) d) s := by
  intro t h
  by_cases ht : 0 ≤ s.branchTarget d ∧ s.branchTarget d ≤ s.inputs.buf.length
  · rw [takeBranch, if_pos ht] at h
    cases h
    exact ⟨rfl, rfl, rfl, fun R M =>
      (if_pos ht).trans (congrArg Host.Outcome.next (s.retire_branch_replace op d _ R M))⟩
  · rw [takeBranch, if_neg ht] at h
    cases h
    exact ⟨rfl, rfl, rfl, fun R M => if_neg ht⟩

/-- JNE decides by the mode and ZF, which the replacement keeps. -/
theorem exec_branch_touchesNoBank (op : BranchOp) (d : Byte) (s : State) : TouchesNoBank (exec (op.instr d)) s := by
  intro t
  simp only [exec_branch]
  split_ifs
  · exact takeBranch_touchesNoBank op d s t
  · exact passBy_touchesNoBank op d s t

/-- Settles O28: the bytes are the opcode of the branch's form and the displacement, and both outcomes of a branch
leave registers, ZF and memory alone and are computed without registers and memory. -/
theorem branchesTouchNothingButTheCursor : Obligations.BranchesTouchNothingButTheCursor :=
  fun op d s t => ⟨⟨(Form.branch op).opcode, op.ofByte_opcode, op.encode_instr d, op.decode_instr d⟩,
    exec_branch_touchesNoBank op d s t⟩

end Machine

end Sys2Proof

/-! PROOFS. 45_engine_and_listing.md: decode-only mode, the header, and the end of a run. -/

namespace Sys2Proof

/-! ### A decoded instruction lies inside the bytes (30_encoding.md R118, R119) -/

@[simp] theorem length_movRmReg8 (d : Bool) (o : RM Reg8) (r : Reg8) : (movRmReg8 d o r).length = 2 + o.dispLen := by
  cases d <;> rfl

@[simp] theorem length_movRmReg16 (d : Bool) (o : RM Reg16) (r : Reg16) :
    (movRmReg16 d o r).length = 2 + o.dispLen := by
  cases d <;> rfl

namespace AluOp

@[simp] theorem length_rmReg8 (op : AluOp) (d : Bool) (o : RM Reg8) (r : Reg8) :
    (op.rmReg8 d o r).length = 2 + o.dispLen := by
  cases op <;> cases d <;> rfl

@[simp] theorem length_rmReg16 (op : AluOp) (d : Bool) (o : RM Reg16) (r : Reg16) :
    (op.rmReg16 d o r).length = 2 + o.dispLen := by
  cases op <;> cases d <;> rfl

@[simp] theorem length_accImm8 (op : AluOp) (v : Byte) : (op.accImm8 v).length = 2 := by cases op <;> rfl

@[simp] theorem length_accImm16 (op : AluOp) (v : Word) : (op.accImm16 v).length = 3 := by cases op <;> rfl

@[simp] theorem length_rmImm8 (op : AluOp) (s : Bool) (o : RM Reg8) (v : Byte) :
    (op.rmImm8 s o v).length = 3 + o.dispLen := by
  cases op <;> cases s <;> exact Nat.add_right_comm 2 _ 1

@[simp] theorem length_rmImm16 (op : AluOp) (o : RM Reg16) (v : Word) : (op.rmImm16 o v).length = 4 + o.dispLen := by
  cases op <;> exact Nat.add_right_comm 2 _ 2

@[simp] theorem length_rmSImm8 (op : AluOp) (o : RM Reg16) (v : Byte) : (op.rmSImm8 o v).length = 3 + o.dispLen := by
  cases op <;> exact Nat.add_right_comm 2 _ 1

end AluOp

@[simp] theorem BranchOp.length_instr (op : BranchOp) (d : Byte) : (op.instr d).length = 2 := by cases op <;> rfl

section
variable {bs rest : List Byte} {i : Instr}

theorem length_of_fetch8 {f : Byte → Instr} (hf : ∀ v, (f v).length = 2)
    (h : (fetch8 bs).map (fun r => (f r.1, r.2)) = .ok (i, rest)) : i.length + rest.length = bs.length + 1 := by
  obtain ⟨⟨v, t⟩, hv, he⟩ := Except.map_ok h
  obtain ⟨rfl, rfl⟩ := Prod.mk.inj he
  rw [fetch8_ok hv, hf, List.length_cons]
  omega

theorem length_of_fetch16 {f : Word → Instr} (hf : ∀ v, (f v).length = 3)
    (h : (fetch16 bs).map (fun r => (f r.1, r.2)) = .ok (i, rest)) : i.length + rest.length = bs.length + 1 := by
  obtain ⟨⟨v, t⟩, hv, he⟩ := Except.map_ok h
  obtain ⟨rfl, rfl⟩ := Prod.mk.inj he
  rw [fetch16_ok hv, hf, List.length_append, wordBytes, List.length_cons, List.length_singleton]
  omega

variable {ρ : Type} {ofCode : BitVec 3 → ρ} {code : ρ → BitVec 3}

theorem length_of_parseRmReg (hc : ∀ c, code (ofCode c) = c) {mk : RM ρ → ρ → Instr}
    (hmk : ∀ o r, (mk o r).length = 2 + o.dispLen) (h : parseRmReg ofCode mk bs = .ok (i, rest)) :
    i.length + rest.length = bs.length + 1 := by
  obtain ⟨o, r, rfl, -, rfl⟩ := parseRmReg_ok hc h
  rw [hmk, List.length_append, Laws.EncodedLength.length_bytes]
  omega

theorem length_of_parseRmImm8 (hc : ∀ c, code (ofCode c) = c) {mk : RM ρ → Byte → Instr}
    (hmk : ∀ o v, (mk o v).length = 3 + o.dispLen) {m : Byte} (h : parseRmImm8 ofCode mk m bs = .ok (i, rest)) :
    i.length + rest.length = (m :: bs).length + 1 := by
  obtain ⟨o, v, rfl, -, hbs⟩ := parseRmImm8_ok hc h
  rw [hbs, hmk, List.length_append, Laws.EncodedLength.length_bytes, List.length_cons]
  omega

theorem length_of_parseRmImm16 (hc : ∀ c, code (ofCode c) = c) {mk : RM ρ → Word → Instr}
    (hmk : ∀ o v, (mk o v).length = 4 + o.dispLen) {m : Byte} (h : parseRmImm16 ofCode mk m bs = .ok (i, rest)) :
    i.length + rest.length = (m :: bs).length + 1 := by
  obtain ⟨o, v, rfl, -, hbs⟩ := parseRmImm16_ok hc h
  rw [hbs, hmk, List.length_append, Laws.EncodedLength.length_bytes, List.length_append, wordBytes, List.length_cons,
    List.length_singleton]
  omega

/-- A parse of a form consumes the instruction's length less the opcode byte. -/
theorem Form.length_of_parse {f : Form} (h : f.parse bs = .ok (i, rest)) :
    i.length + rest.length = bs.length + 1 := by
  cases f with
  | branch op => exact length_of_fetch8 op.length_instr h
  | movRmImm w =>
    cases bs with
    | nil => cases h
    | cons m t =>
      simp only [Form.parse] at h
      split_ifs at h
      · exact length_of_parseRmImm16 Reg16.code_ofCode (fun _ _ => Nat.add_right_comm 2 _ 2) h
      · exact length_of_parseRmImm8 Reg8.code_ofCode (fun _ _ => Nat.add_right_comm 2 _ 1) h
  | aluAccImm op w =>
    cases w with
    | true => exact length_of_fetch16 op.length_accImm16 h
    | false => exact length_of_fetch8 op.length_accImm8 h
  | movRmReg d w =>
    cases w with
    | true => exact length_of_parseRmReg Reg16.code_ofCode (length_movRmReg16 d) h
    | false => exact length_of_parseRmReg Reg8.code_ofCode (length_movRmReg8 d) h
  | aluRmImm s w =>
    cases bs with
    | nil => cases h
    | cons m t =>
      simp only [Form.parse] at h
      split at h
      · cases h
      · next op _ =>
        split_ifs at h
        · exact length_of_parseRmImm8 Reg16.code_ofCode op.length_rmSImm8 h
        · exact length_of_parseRmImm16 Reg16.code_ofCode op.length_rmImm16 h
        · exact length_of_parseRmImm8 Reg8.code_ofCode (op.length_rmImm8 s) h
  | movRegImm w r =>
    cases w with
    | true => exact length_of_fetch16 (fun _ => rfl) h
    | false => exact length_of_fetch8 (fun _ => rfl) h
  | aluRmReg op d w =>
    cases w with
    | true => exact length_of_parseRmReg Reg16.code_ofCode (op.length_rmReg16 d) h
    | false => exact length_of_parseRmReg Reg8.code_ofCode (op.length_rmReg8 d) h

/-- A decoded instruction and the bytes after it are as long as the bytes decoded. -/
theorem length_of_decode (h : decode bs = .ok (i, rest)) : i.length + rest.length = bs.length := by
  cases bs with
  | nil => cases h
  | cons b t =>
    cases hf : classify b with
    | none => rw [decode, hf] at h; cases h
    | some f => exact Form.length_of_parse (by rwa [decode, hf] at h)

end

namespace Machine

/-! ### Decode-only mode (R302) -/

/-- Settles O27: an instruction emits its line and advances, and the line of decode-only mode is the plain one. -/
theorem decodeOnlyModeRendersAndAdvances : Obligations.DecodeOnlyModeRendersAndAdvances := by
  refine fun i s he => ⟨?_, fun op d h => ?_⟩
  · rw [exec_decodeOnly he, State.retire, render, if_neg (by simp [he])]
    rfl
  · rw [h, plainLine, branchShown, if_neg (by simp)]
    rfl

section
variable {s t : State} {i : Instr}

/-! ### An instruction completes or raises a fault (R301, R303) -/

/-- An instruction raises a fault at its cursor, or completes at the cursor after its bytes or at a target inside the
buffer. -/
theorem exec_raises_or_completes (h : exec i s = .next t) :
    (∃ k, t = s.raise k) ∨
      ∃ p, Completed i p s t ∧ (p = s.ip + i.length ∨ p ≤ s.inputs.buf.length) := by
  cases exec_cases i s with
  | effect post _ he _ _ hx =>
    cases hx.symm.trans h
    exact .inr ⟨_, .of_retire _ he.listing he.status he.inputs, .inl rfl⟩
  | outside m n _ _ _ hx =>
    cases hx.symm.trans h
    exact .inl ⟨_, rfl⟩
  | decodeOnly _ hx =>
    cases hx.symm.trans h
    exact .inr ⟨_, .of_retire _ rfl rfl rfl, .inl rfl⟩
  | jump d _ _ _ _ hN hx =>
    cases hx.symm.trans h
    exact .inr ⟨_, .of_retire _ rfl rfl rfl, .inr (Int.toNat_le.2 hN)⟩
  | jumpOutside d _ _ _ _ hx =>
    cases hx.symm.trans h
    exact .inl ⟨_, rfl⟩

/-! ### The listing only grows (R305) -/

/-- An instruction only appends to the listing. -/
theorem exec_listing_prefix (h : exec i s = .next t) : s.listing <+: t.listing := by
  rcases exec_raises_or_completes h with ⟨k, rfl⟩ | ⟨p, hc, -⟩
  · exact List.prefix_rfl
  · rw [hc.listing, List.append_assoc]
    exact List.prefix_append _ _

/-- A step only appends to the listing. -/
theorem step_listing_prefix (h : step s = .next t) : s.listing <+: t.listing := by
  cases step_cases h with
  | ended _ _ ht =>
    rw [ht, State.endRun_eq]
    exact List.prefix_append _ _
  | ran i _ _ _ _ ht => exact exec_listing_prefix ht
  | skipped _ _ _ _ ht => exact ht ▸ List.prefix_rfl
  | rejected e _ _ _ _ ht => exact ht ▸ List.prefix_rfl

/-! ### The end of a run (R304) -/

/-- A step at or beyond the end of the buffer ends the run. -/
theorem step_done (hs : s.status = .running) (hi : s.inputs.buf.length ≤ s.ip) :
    ∃ t, step s = .next t ∧ t.status = .done :=
  ⟨s.endRun, by rw [step_running hs, if_pos hi], by rw [State.endRun_eq]⟩

/-- A step inside the buffer goes on running or takes a fault at its cursor. -/
theorem step_status (hi : s.ip < s.inputs.buf.length) (h : step s = .next t) :
    t.status = .running ∨ ∃ k, t.status = .fault k s.ip := by
  cases step_cases h with
  | ended _ hN _ => exact absurd hi (Nat.not_lt.2 hN)
  | ran i _ hs _ _ ht =>
    rcases exec_raises_or_completes ht with ⟨k, rfl⟩ | ⟨p, hc, -⟩
    · exact .inr ⟨k, rfl⟩
    · exact .inl (hc.status.trans hs)
  | skipped hs _ _ _ ht => exact .inl (ht ▸ hs)
  | rejected e _ _ _ _ ht => exact .inr ⟨faultOf e, ht ▸ rfl⟩

/-- An instruction decoded at the cursor leaves the cursor in `0..N`: its bytes lie inside the buffer, and so does the
target of a taken branch. -/
theorem exec_ip_le {rest : List Byte} (hi : s.ip < s.inputs.buf.length)
    (hd : decode (s.inputs.buf.drop s.ip) = .ok (i, rest)) (h : exec i s = .next t) :
    t.ip ≤ s.inputs.buf.length := by
  have hlen := length_of_decode hd
  rw [List.length_drop] at hlen
  rcases exec_raises_or_completes h with ⟨k, rfl⟩ | ⟨p, hc, hp⟩
  · exact hi.le
  · rw [hc.ip]
    omega

/-- A step inside the buffer that leaves the cursor beyond the end is a skip at the last byte. -/
theorem step_overshoots (hi : s.ip < s.inputs.buf.length) (h : step s = .next t) (hN : s.inputs.buf.length < t.ip) :
    s.inputs.skipUnrecognized = true ∧ s.ip + 1 = s.inputs.buf.length ∧
      decode (s.inputs.buf.drop s.ip) = .error .unrecognizedOpcode := by
  cases step_cases h with
  | ended _ hN' _ => exact absurd hi (Nat.not_lt.2 hN')
  | ran i rest _ _ hd ht => exact absurd hN (Nat.not_lt.2 (exec_ip_le hi hd ht))
  | skipped _ _ hd hk ht =>
    have hip : t.ip = s.ip + 2 := ht ▸ rfl
    exact ⟨hk, by omega, hd⟩
  | rejected e _ _ _ _ ht =>
    have hip : t.ip = s.ip := ht ▸ rfl
    omega

end

/-- Settles O46: reset writes the header, and what begins the listing stays there through every step. -/
theorem headerOpensTheListing : Obligations.HeaderOpensTheListing :=
  ⟨fun _ => rfl, fun _ n hs =>
    run_induction (P := fun s => "bits 16\n\n".toList <+: s.listing)
      (fun _ _ hu ht => hu.trans (step_listing_prefix ht)) n hs⟩

/-- Settles O36: at or beyond the end a step is the end of the run, inside the buffer it is none, and only a skip
passes the end; engine construction on an empty buffer is at the end. -/
theorem runsEndAtTheBuffersEnd : Obligations.RunsEndAtTheBuffersEnd :=
  ⟨fun _ => step_done, fun _ _ _ hi h => ⟨step_status hi h, step_overshoots hi h⟩,
    fun _ hb => step_done rfl (hb ▸ Nat.le_refl 0)⟩

end Machine

end Sys2Proof

/-! PROOFS. 30_encoding.md: the round trip of encoder and decoder, truncations, and the order of verdicts. -/

namespace Sys2Proof

/-! ### The instructions by the form of their opcode byte (30_encoding.md R112, R119) -/

/-- The instructions as the forms build them. -/
inductive ByForm : Instr → Prop
  | branch (op : BranchOp) (d : Byte) : ByForm (op.instr d)
  | movRmImm8 (o : RM Reg8) (v : Byte) : ByForm (.movRm8Imm8 o v)
  | movRmImm16 (o : RM Reg16) (v : Word) : ByForm (.movRm16Imm16 o v)
  | accImm8 (op : AluOp) (v : Byte) : ByForm (op.accImm8 v)
  | accImm16 (op : AluOp) (v : Word) : ByForm (op.accImm16 v)
  | movRmReg8 (d : Bool) (o : RM Reg8) (r : Reg8) : ByForm (movRmReg8 d o r)
  | movRmReg16 (d : Bool) (o : RM Reg16) (r : Reg16) : ByForm (movRmReg16 d o r)
  | rmImm8 (op : AluOp) (s : Bool) (o : RM Reg8) (v : Byte) : ByForm (op.rmImm8 s o v)
  | rmImm16 (op : AluOp) (o : RM Reg16) (v : Word) : ByForm (op.rmImm16 o v)
  | rmSImm8 (op : AluOp) (o : RM Reg16) (v : Byte) : ByForm (op.rmSImm8 o v)
  | movRegImm8 (r : Reg8) (v : Byte) : ByForm (.movR8Imm8 r v)
  | movRegImm16 (r : Reg16) (v : Word) : ByForm (.movR16Imm16 r v)
  | rmReg8 (op : AluOp) (d : Bool) (o : RM Reg8) (r : Reg8) : ByForm (op.rmReg8 d o r)
  | rmReg16 (op : AluOp) (d : Bool) (o : RM Reg16) (r : Reg16) : ByForm (op.rmReg16 d o r)

/-- Every instruction is built by a form. -/
theorem Instr.byForm (i : Instr) : ByForm i := by
  cases i with
  | movRm8R8 o r => exact .movRmReg8 false o r
  | movRm16R16 o r => exact .movRmReg16 false o r
  | movR8Rm8 r o => exact .movRmReg8 true o r
  | movR16Rm16 r o => exact .movRmReg16 true o r
  | movRm8Imm8 o v => exact .movRmImm8 o v
  | movRm16Imm16 o v => exact .movRmImm16 o v
  | movR8Imm8 r v => exact .movRegImm8 r v
  | movR16Imm16 r v => exact .movRegImm16 r v
  | addRm8R8 o r => exact .rmReg8 .add false o r
  | addRm16R16 o r => exact .rmReg16 .add false o r
  | addR8Rm8 r o => exact .rmReg8 .add true o r
  | addR16Rm16 r o => exact .rmReg16 .add true o r
  | addAlImm8 v => exact .accImm8 .add v
  | addAxImm16 v => exact .accImm16 .add v
  | addRm8Imm8 o v => exact .rmImm8 .add false o v
  | addRm16Imm16 o v => exact .rmImm16 .add o v
  | addRm8Imm8S o v => exact .rmImm8 .add true o v
  | addRm16SImm8 o v => exact .rmSImm8 .add o v
  | subRm8R8 o r => exact .rmReg8 .sub false o r
  | subRm16R16 o r => exact .rmReg16 .sub false o r
  | subR8Rm8 r o => exact .rmReg8 .sub true o r
  | subR16Rm16 r o => exact .rmReg16 .sub true o r
  | subAlImm8 v => exact .accImm8 .sub v
  | subAxImm16 v => exact .accImm16 .sub v
  | subRm8Imm8 o v => exact .rmImm8 .sub false o v
  | subRm16Imm16 o v => exact .rmImm16 .sub o v
  | subRm8Imm8S o v => exact .rmImm8 .sub true o v
  | subRm16SImm8 o v => exact .rmSImm8 .sub o v
  | cmpRm8R8 o r => exact .rmReg8 .cmp false o r
  | cmpRm16R16 o r => exact .rmReg16 .cmp false o r
  | cmpR8Rm8 r o => exact .rmReg8 .cmp true o r
  | cmpR16Rm16 r o => exact .rmReg16 .cmp true o r
  | cmpAlImm8 v => exact .accImm8 .cmp v
  | cmpAxImm16 v => exact .accImm16 .cmp v
  | cmpRm8Imm8 o v => exact .rmImm8 .cmp false o v
  | cmpRm16Imm16 o v => exact .rmImm16 .cmp o v
  | cmpRm8Imm8S o v => exact .rmImm8 .cmp true o v
  | cmpRm16SImm8 o v => exact .rmSImm8 .cmp o v
  | jo d => exact .branch .jo d
  | jno d => exact .branch .jno d
  | jb d => exact .branch .jb d
  | jnb d => exact .branch .jnb d
  | je d => exact .branch .je d
  | jne d => exact .branch .jne d
  | jbe d => exact .branch .jbe d
  | ja d => exact .branch .ja d
  | js d => exact .branch .js d
  | jns d => exact .branch .jns d
  | jp d => exact .branch .jp d
  | jnp d => exact .branch .jnp d
  | jl d => exact .branch .jl d
  | jnl d => exact .branch .jnl d
  | jle d => exact .branch .jle d
  | jg d => exact .branch .jg d
  | loopnz d => exact .branch .loopnz d
  | loopz d => exact .branch .loopz d
  | loop d => exact .branch .loop d
  | jcxz d => exact .branch .jcxz d

/-! ### What the encoder writes for each form -/

section
variable (op : AluOp) (o : RM Reg8) (q : RM Reg16)

theorem encode_movRmImm8 (v : Byte) :
    encode (.movRm8Imm8 o v) = (Form.movRmImm false).opcode :: (o.bytes Reg8.code 0b000 ++ [v]) := rfl

theorem encode_movRmImm16 (v : Word) :
    encode (.movRm16Imm16 q v) = (Form.movRmImm true).opcode :: (q.bytes Reg16.code 0b000 ++ wordBytes v) := rfl

theorem encode_movRmReg8 (d : Bool) (r : Reg8) :
    encode (movRmReg8 d o r) = (Form.movRmReg d false).opcode :: o.bytes Reg8.code r.code := by
  cases d <;> rfl

theorem encode_movRmReg16 (d : Bool) (r : Reg16) :
    encode (movRmReg16 d q r) = (Form.movRmReg d true).opcode :: q.bytes Reg16.code r.code := by
  cases d <;> rfl

theorem encode_movRegImm8 (r : Reg8) (v : Byte) :
    encode (.movR8Imm8 r v) = [(Form.movRegImm false r.code).opcode, v] := by
  cases r <;> rfl

theorem encode_movRegImm16 (r : Reg16) (v : Word) :
    encode (.movR16Imm16 r v) = (Form.movRegImm true r.code).opcode :: wordBytes v := by
  cases r <;> rfl

namespace AluOp

theorem encode_accImm8 (v : Byte) : encode (op.accImm8 v) = [(Form.aluAccImm op false).opcode, v] := by
  cases op <;> rfl

theorem encode_accImm16 (v : Word) :
    encode (op.accImm16 v) = (Form.aluAccImm op true).opcode :: wordBytes v := by
  cases op <;> rfl

theorem encode_rmImm8 (s : Bool) (v : Byte) :
    encode (op.rmImm8 s o v) = (Form.aluRmImm s false).opcode :: (o.bytes Reg8.code op.code ++ [v]) := by
  cases op <;> cases s <;> rfl

theorem encode_rmImm16 (v : Word) :
    encode (op.rmImm16 q v) = (Form.aluRmImm false true).opcode :: (q.bytes Reg16.code op.code ++ wordBytes v) := by
  cases op <;> rfl

theorem encode_rmSImm8 (v : Byte) :
    encode (op.rmSImm8 q v) = (Form.aluRmImm true true).opcode :: (q.bytes Reg16.code op.code ++ [v]) := by
  cases op <;> rfl

theorem encode_rmReg8 (d : Bool) (r : Reg8) :
    encode (op.rmReg8 d o r) = (Form.aluRmReg op d false).opcode :: o.bytes Reg8.code r.code := by
  cases op <;> cases d <;> rfl

theorem encode_rmReg16 (d : Bool) (r : Reg16) :
    encode (op.rmReg16 d q r) = (Form.aluRmReg op d true).opcode :: q.bytes Reg16.code r.code := by
  cases op <;> cases d <;> rfl

end AluOp

/-! ### Which of them are well formed -/

@[simp] theorem wf_movRmReg8 (d : Bool) (r : Reg8) : (movRmReg8 d o r).wf = o.wf := by cases d <;> rfl

@[simp] theorem wf_movRmReg16 (d : Bool) (r : Reg16) : (movRmReg16 d q r).wf = q.wf := by cases d <;> rfl

@[simp] theorem AluOp.wf_accImm8 (v : Byte) : (op.accImm8 v).wf = true := by cases op <;> rfl

@[simp] theorem AluOp.wf_accImm16 (v : Word) : (op.accImm16 v).wf = true := by cases op <;> rfl

@[simp] theorem AluOp.wf_rmImm8 (s : Bool) (v : Byte) : (op.rmImm8 s o v).wf = o.wf := by
  cases op <;> cases s <;> rfl

@[simp] theorem AluOp.wf_rmImm16 (v : Word) : (op.rmImm16 q v).wf = q.wf := by cases op <;> rfl

@[simp] theorem AluOp.wf_rmSImm8 (v : Byte) : (op.rmSImm8 q v).wf = q.wf := by cases op <;> rfl

@[simp] theorem AluOp.wf_rmReg8 (d : Bool) (r : Reg8) : (op.rmReg8 d o r).wf = o.wf := by
  cases op <;> cases d <;> rfl

@[simp] theorem AluOp.wf_rmReg16 (d : Bool) (r : Reg16) : (op.rmReg16 d q r).wf = q.wf := by
  cases op <;> cases d <;> rfl

@[simp] theorem BranchOp.wf_instr (b : BranchOp) (d : Byte) : (b.instr d).wf = true := by cases b <;> rfl

end

/-! ### A form parses its own bytes, and no fewer (30_encoding.md R116, R119) -/

/-- Parsing after the form's opcode byte reads exactly `body` as `i`: the whole body gives `i` and leaves what
follows, and every proper beginning of it is a truncation. -/
structure Form.Reads (f : Form) (body : List Byte) (i : Instr) : Prop where
  whole : ∀ rest, f.parse (body ++ rest) = .ok (i, rest)
  short : ∀ n < body.length, f.parse (body.take n) = .error .truncatedInstruction

section
variable {f : Form}

theorem Form.Reads.of_fetch8 {mk : Byte → Instr} (hp : ∀ bs, f.parse bs = (fetch8 bs).map fun r => (mk r.1, r.2))
    (v : Byte) : f.Reads [v] (mk v) where
  whole rest := hp _
  short n hn := by
    obtain rfl : n = 0 := Nat.lt_one_iff.1 hn
    exact hp []

theorem Form.Reads.of_fetch16 {mk : Word → Instr} (hp : ∀ bs, f.parse bs = (fetch16 bs).map fun r => (mk r.1, r.2))
    (v : Word) : f.Reads (wordBytes v) (mk v) where
  whole rest := by rw [hp, fetch16_wordBytes]; rfl
  short n hn := by
    rw [hp, fetch16_short (lt_of_le_of_lt (List.length_take_le _ _) hn)]
    rfl

variable {ρ : Type} {ofCode : BitVec 3 → ρ} {code : ρ → BitVec 3} (hc : ∀ r, ofCode (code r) = r) {o : RM ρ}
  (h : o.wf = true)
include hc h

theorem Form.Reads.of_rmReg {mk : RM ρ → ρ → Instr} (hp : ∀ bs, f.parse bs = parseRmReg ofCode mk bs) (r : ρ) :
    f.Reads (o.bytes code (code r)) (mk o r) where
  whole rest := by rw [hp, parseRmReg_bytes hc mk h]
  short n hn := by
    rw [Laws.EncodedLength.length_bytes] at hn
    rw [hp, parseRmReg_short mk h _ hn]

theorem Form.Reads.of_rmImm8 {mk : RM ρ → Byte → Instr} {reg : BitVec 3}
    (h0 : f.parse [] = .error .truncatedInstruction)
    (hp : ∀ m t, regField m = reg → f.parse (m :: t) = parseRmImm8 ofCode mk m t) (v : Byte) :
    f.Reads (o.bytes code reg ++ [v]) (mk o v) where
  whole rest := by
    rw [RM.bytes_eq, List.append_assoc, List.cons_append, hp _ _ (RM.regField_modrm reg o)]
    exact parseRmImm8_bytes hc mk h reg v rest
  short n hn := by
    cases n with
    | zero => exact h0
    | succ n =>
      simp only [RM.bytes_eq, List.cons_append, List.length_cons, List.length_append, RM.length_tail,
        List.length_nil] at hn
      rw [RM.bytes_eq, List.cons_append, List.take_succ_cons, hp _ _ (RM.regField_modrm reg o)]
      exact parseRmImm8_short hc mk h reg v (by omega)

theorem Form.Reads.of_rmImm16 {mk : RM ρ → Word → Instr} {reg : BitVec 3}
    (h0 : f.parse [] = .error .truncatedInstruction)
    (hp : ∀ m t, regField m = reg → f.parse (m :: t) = parseRmImm16 ofCode mk m t) (v : Word) :
    f.Reads (o.bytes code reg ++ wordBytes v) (mk o v) where
  whole rest := by
    rw [RM.bytes_eq, List.append_assoc, List.cons_append, hp _ _ (RM.regField_modrm reg o)]
    exact parseRmImm16_bytes hc mk h reg v rest
  short n hn := by
    cases n with
    | zero => exact h0
    | succ n =>
      simp only [RM.bytes_eq, List.cons_append, List.length_cons, List.length_append, RM.length_tail, wordBytes,
        List.length_nil] at hn
      rw [RM.bytes_eq, List.cons_append, List.take_succ_cons, hp _ _ (RM.regField_modrm reg o)]
      exact parseRmImm16_short hc mk h reg v (by omega)

end

/-- The form of an immediate MOV to an r/m operand checks a zero reg field. -/
theorem Form.parse_movRmImm (w : Bool) {m : Byte} (hr : regField m = 0b000) (t : List Byte) :
    (Form.movRmImm w).parse (m :: t) = if w then parseRmImm16 Reg16.ofCode .movRm16Imm16 m t
      else parseRmImm8 Reg8.ofCode .movRm8Imm8 m t := if_pos hr

/-- The form of an arithmetic operation with an immediate takes the operation from the reg field. -/
theorem Form.parse_aluRmImm (s w : Bool) {op : AluOp} {m : Byte} (hr : regField m = op.code) (t : List Byte) :
    (Form.aluRmImm s w).parse (m :: t) =
      if w then
        if s then parseRmImm8 Reg16.ofCode op.rmSImm8 m t else parseRmImm16 Reg16.ofCode op.rmImm16 m t
      else parseRmImm8 Reg8.ofCode (op.rmImm8 s) m t := by
  simp only [Form.parse, hr, AluOp.ofCode_code]

/-- An encoding is the opcode byte of a form and a body that the form reads as the instruction. -/
theorem encode_reads {i : Instr} (h : i.wf = true) :
    ∃ f : Form, ∃ body, encode i = f.opcode :: body ∧ f.Reads body i := by
  cases i.byForm with
  | branch op d => exact ⟨_, _, op.encode_instr d, .of_fetch8 (fun _ => rfl) d⟩
  | movRmImm8 o v =>
    exact ⟨_, _, encode_movRmImm8 o v,
      .of_rmImm8 Reg8.ofCode_code h rfl (fun m t hr => Form.parse_movRmImm false hr t) v⟩
  | movRmImm16 o v =>
    exact ⟨_, _, encode_movRmImm16 o v,
      .of_rmImm16 Reg16.ofCode_code h rfl (fun m t hr => Form.parse_movRmImm true hr t) v⟩
  | accImm8 op v => exact ⟨_, _, op.encode_accImm8 v, .of_fetch8 (fun _ => rfl) v⟩
  | accImm16 op v => exact ⟨_, _, op.encode_accImm16 v, .of_fetch16 (fun _ => rfl) v⟩
  | movRmReg8 d o r =>
    exact ⟨_, _, encode_movRmReg8 o d r, .of_rmReg Reg8.ofCode_code (by simpa using h) (fun _ => rfl) r⟩
  | movRmReg16 d o r =>
    exact ⟨_, _, encode_movRmReg16 o d r, .of_rmReg Reg16.ofCode_code (by simpa using h) (fun _ => rfl) r⟩
  | rmImm8 op s o v =>
    exact ⟨_, _, op.encode_rmImm8 o s v,
      .of_rmImm8 Reg8.ofCode_code (by simpa using h) rfl (fun m t hr => Form.parse_aluRmImm s false hr t) v⟩
  | rmImm16 op o v =>
    exact ⟨_, _, op.encode_rmImm16 o v,
      .of_rmImm16 Reg16.ofCode_code (by simpa using h) rfl (fun m t hr => Form.parse_aluRmImm false true hr t) v⟩
  | rmSImm8 op o v =>
    exact ⟨_, _, op.encode_rmSImm8 o v,
      .of_rmImm8 Reg16.ofCode_code (by simpa using h) rfl (fun m t hr => Form.parse_aluRmImm true true hr t) v⟩
  | movRegImm8 r v =>
    exact ⟨_, _, encode_movRegImm8 r v,
      .of_fetch8 (mk := .movR8Imm8 r) (fun bs => by simp [Form.parse]) v⟩
  | movRegImm16 r v =>
    exact ⟨_, _, encode_movRegImm16 r v,
      .of_fetch16 (mk := .movR16Imm16 r) (fun bs => by simp [Form.parse]) v⟩
  | rmReg8 op d o r =>
    exact ⟨_, _, op.encode_rmReg8 o d r, .of_rmReg Reg8.ofCode_code (by simpa using h) (fun _ => rfl) r⟩
  | rmReg16 op d o r =>
    exact ⟨_, _, op.encode_rmReg16 o d r, .of_rmReg Reg16.ofCode_code (by simpa using h) (fun _ => rfl) r⟩

/-- Settles O11: an encoding is the opcode byte of a form and a body that the form reads as the instruction. -/
theorem encodedInstructionsDecodeToThemselves : Obligations.EncodedInstructionsDecodeToThemselves := by
  intro i h rest
  obtain ⟨f, body, he, hr⟩ := encode_reads h
  rw [he, List.cons_append, decode_opcode rfl, hr.whole]

/-- The encoding is as long as the instruction. -/
theorem length_encode {i : Instr} (h : i.wf = true) : (encode i).length = i.length := by
  have := length_of_decode (encodedInstructionsDecodeToThemselves i h [])
  simpa using this.symm

/-- Settles O13: fewer bytes than the encoding has are none, or the opcode byte of its form and too short a body. -/
theorem truncatedInstructionsAreReported : Obligations.TruncatedInstructionsAreReported := by
  intro i n h hn
  obtain ⟨f, body, he, hr⟩ := encode_reads h
  rw [← length_encode h, he, List.length_cons] at hn
  rw [he]
  cases n with
  | zero => rfl
  | succ n =>
    rw [List.take_succ_cons, decode_opcode rfl]
    exact hr.short n (Nat.lt_of_succ_lt_succ hn)

/-! ### A form accepts nothing but encodings (30_encoding.md R119, R123) -/

section
variable {bs rest : List Byte} {i : Instr} {b : Byte}

theorem encode_of_fetch8 {mk : Byte → Instr} (he : ∀ v, encode (mk v) = [b, v])
    (h : ((fetch8 bs).map fun r => (mk r.1, r.2)) = .ok (i, rest)) : (∃ v, i = mk v) ∧ b :: bs = encode i ++ rest := by
  obtain ⟨⟨v, t⟩, hv, hr⟩ := Except.map_ok h
  obtain ⟨rfl, rfl⟩ := Prod.mk.inj hr
  exact ⟨⟨v, rfl⟩, by rw [he, fetch8_ok hv]; rfl⟩

theorem encode_of_fetch16 {mk : Word → Instr} (he : ∀ v, encode (mk v) = b :: wordBytes v)
    (h : ((fetch16 bs).map fun r => (mk r.1, r.2)) = .ok (i, rest)) : (∃ v, i = mk v) ∧ b :: bs = encode i ++ rest := by
  obtain ⟨⟨v, t⟩, hv, hr⟩ := Except.map_ok h
  obtain ⟨rfl, rfl⟩ := Prod.mk.inj hr
  exact ⟨⟨v, rfl⟩, by rw [he, fetch16_ok hv]; rfl⟩

variable {ρ : Type} {ofCode : BitVec 3 → ρ} {code : ρ → BitVec 3} (hc : ∀ c, code (ofCode c) = c) {m : Byte}
include hc

theorem encode_of_parseRmReg {mk : RM ρ → ρ → Instr} (hw : ∀ o r, (mk o r).wf = o.wf)
    (he : ∀ o r, encode (mk o r) = b :: o.bytes code (code r)) (h : parseRmReg ofCode mk bs = .ok (i, rest)) :
    i.wf = true ∧ b :: bs = encode i ++ rest := by
  obtain ⟨o, r, rfl, ho, rfl⟩ := parseRmReg_ok hc h
  exact ⟨(hw o r).trans ho, by rw [he]; rfl⟩

theorem encode_of_parseRmImm8 {mk : RM ρ → Byte → Instr} (hw : ∀ o v, (mk o v).wf = o.wf)
    (he : ∀ o v, encode (mk o v) = b :: (o.bytes code (regField m) ++ [v]))
    (h : parseRmImm8 ofCode mk m bs = .ok (i, rest)) : i.wf = true ∧ b :: m :: bs = encode i ++ rest := by
  obtain ⟨o, v, rfl, ho, hbs⟩ := parseRmImm8_ok hc h
  exact ⟨(hw o v).trans ho, by rw [he, hbs, List.cons_append, List.append_assoc]; rfl⟩

theorem encode_of_parseRmImm16 {mk : RM ρ → Word → Instr} (hw : ∀ o v, (mk o v).wf = o.wf)
    (he : ∀ o v, encode (mk o v) = b :: (o.bytes code (regField m) ++ wordBytes v))
    (h : parseRmImm16 ofCode mk m bs = .ok (i, rest)) : i.wf = true ∧ b :: m :: bs = encode i ++ rest := by
  obtain ⟨o, v, rfl, ho, hbs⟩ := parseRmImm16_ok hc h
  exact ⟨(hw o v).trans ho, by rw [he, hbs, List.cons_append, List.append_assoc]⟩

end

/-- What a form parses is well formed, and its encoding is the form's opcode byte and the bytes parsed. -/
theorem Form.encode_of_parse {f : Form} {bs rest : List Byte} {i : Instr} (h : f.parse bs = .ok (i, rest)) :
    i.wf = true ∧ f.opcode :: bs = encode i ++ rest := by
  cases f with
  | branch op =>
    obtain ⟨⟨d, rfl⟩, hbs⟩ := encode_of_fetch8 op.encode_instr h
    exact ⟨op.wf_instr d, hbs⟩
  | movRmImm w =>
    cases bs with
    | nil => cases h
    | cons m t =>
      by_cases hr : regField m = 0b000
      · rw [Form.parse_movRmImm w hr] at h
        cases w with
        | true =>
          exact encode_of_parseRmImm16 Reg16.code_ofCode (fun _ _ => rfl) (by rw [hr]; exact encode_movRmImm16) h
        | false =>
          exact encode_of_parseRmImm8 Reg8.code_ofCode (fun _ _ => rfl) (by rw [hr]; exact encode_movRmImm8) h
      · rw [Form.parse, if_neg hr] at h
        cases h
  | aluAccImm op w =>
    cases w with
    | true =>
      obtain ⟨⟨v, rfl⟩, hbs⟩ := encode_of_fetch16 op.encode_accImm16 h
      exact ⟨op.wf_accImm16 v, hbs⟩
    | false =>
      obtain ⟨⟨v, rfl⟩, hbs⟩ := encode_of_fetch8 op.encode_accImm8 h
      exact ⟨op.wf_accImm8 v, hbs⟩
  | movRmReg d w =>
    cases w with
    | true => exact encode_of_parseRmReg Reg16.code_ofCode (wf_movRmReg16 · d) (encode_movRmReg16 · d) h
    | false => exact encode_of_parseRmReg Reg8.code_ofCode (wf_movRmReg8 · d) (encode_movRmReg8 · d) h
  | aluRmImm s w =>
    cases bs with
    | nil => cases h
    | cons m t =>
      cases hop : AluOp.ofCode (regField m) with
      | none => simp [Form.parse, hop] at h
      | some op =>
        have hr := AluOp.code_of_ofCode hop
        rw [Form.parse_aluRmImm s w hr.symm] at h
        cases w with
        | false =>
          exact encode_of_parseRmImm8 Reg8.code_ofCode (op.wf_rmImm8 · s)
            (by rw [← hr]; exact (op.encode_rmImm8 · s)) h
        | true =>
          cases s with
          | true =>
            exact encode_of_parseRmImm8 Reg16.code_ofCode op.wf_rmSImm8 (by rw [← hr]; exact op.encode_rmSImm8) h
          | false =>
            exact encode_of_parseRmImm16 Reg16.code_ofCode op.wf_rmImm16 (by rw [← hr]; exact op.encode_rmImm16) h
  | movRegImm w r =>
    cases w with
    | true =>
      obtain ⟨⟨v, rfl⟩, hbs⟩ := encode_of_fetch16 (fun v => by rw [encode_movRegImm16, Reg16.code_ofCode]) h
      exact ⟨rfl, hbs⟩
    | false =>
      obtain ⟨⟨v, rfl⟩, hbs⟩ := encode_of_fetch8 (fun v => by rw [encode_movRegImm8, Reg8.code_ofCode]) h
      exact ⟨rfl, hbs⟩
  | aluRmReg op d w =>
    cases w with
    | true => exact encode_of_parseRmReg Reg16.code_ofCode (op.wf_rmReg16 · d) (op.encode_rmReg16 · d) h
    | false => exact encode_of_parseRmReg Reg8.code_ofCode (op.wf_rmReg8 · d) (op.encode_rmReg8 · d) h

/-- Settles O12: the first byte is the opcode byte of the form that classifies it, and what the form parses is an
encoding. -/
theorem decodedBytesAreTheInstructionsEncoding : Obligations.DecodedBytesAreTheInstructionsEncoding := by
  intro bs rest i h
  cases bs with
  | nil => cases h
  | cons b t =>
    rw [decode] at h
    split at h
    · cases h
    · next f hf =>
      rw [← opcode_of_classify hf]
      exact f.encode_of_parse h

/-! ### The order of verdicts (30_encoding.md R114 to R117) -/

/-- The operation field has three values in scope. -/
theorem AluOp.ofCode_eq_none {c : BitVec 3} (h : c ∉ [0b000, 0b101, 0b111]) : AluOp.ofCode c = none := by
  revert c; decide

theorem decode_of_classify_none {b : Byte} (h : classify b = none) (rest : List Byte) :
    decode (b :: rest) = .error .unrecognizedOpcode := by
  rw [decode, h]

/-- 0x80 to 0x83 are the opcode bytes of the arithmetic operations with an immediate. -/
theorem exists_aluRmImm_of_mem {b : Byte} (h : b ∈ [0x80, 0x81, 0x82, 0x83]) :
    ∃ s w, (Form.aluRmImm s w).opcode = b := by
  revert b; decide

/-- 0xC6 and 0xC7 are the opcode bytes of the immediate MOV to an r/m operand. -/
theorem exists_movRmImm_of_mem {b : Byte} (h : b ∈ [0xC6, 0xC7]) : ∃ w, (Form.movRmImm w).opcode = b := by
  revert b; decide

theorem Form.parse_aluRmImm_unrecognized (s w : Bool) {m : Byte} (h : regField m ∉ [0b000, 0b101, 0b111])
    (rest : List Byte) : (Form.aluRmImm s w).parse (m :: rest) = .error .unrecognizedOpcode := by
  simp only [Form.parse, AluOp.ofCode_eq_none h]

theorem Form.parse_movRmImm_unrecognized (w : Bool) {m : Byte} (h : regField m ≠ 0b000) (rest : List Byte) :
    (Form.movRmImm w).parse (m :: rest) = .error .unrecognizedOpcode := if_neg h

/-- Settles O15: the classifier decides on the first byte, and the two forms with a fixed reg field decide on the
second before they read a third. -/
theorem unrecognizedVerdictsComeBeforeTruncation : Obligations.UnrecognizedVerdictsComeBeforeTruncation := by
  refine ⟨fun b rest h => decode_of_classify_none h rest, fun b m rest hb hm => ?_, fun b m rest hb hm => ?_,
    fun b hb => ?_⟩
  · obtain ⟨s, w, hf⟩ := exists_aluRmImm_of_mem hb
    rw [decode_opcode hf, Form.parse_aluRmImm_unrecognized s w hm]
  · obtain ⟨w, hf⟩ := exists_movRmImm_of_mem hb
    rw [decode_opcode hf, Form.parse_movRmImm_unrecognized w hm]
  · rcases (List.mem_append (s := [0x80, 0x81, 0x82, 0x83]) (t := [0xC6, 0xC7])).1 hb with hb | hb
    · obtain ⟨s, w, hf⟩ := exists_aluRmImm_of_mem hb
      rw [decode_opcode hf]
      rfl
    · obtain ⟨w, hf⟩ := exists_movRmImm_of_mem hb
      rw [decode_opcode hf]
      rfl

/-! ### The opcode bytes (30_encoding.md R115, R140) -/

/-- Settles O14: both clauses speak of the 256 bytes, and are evaluated on each. -/
theorem recognizedFirstBytes : Obligations.RecognizedFirstBytes :=
  ⟨by decide, by decide⟩

/-- Settles O16: the decoder is evaluated on each of the rows. -/
theorem opcodeWordsOfTheTable : Obligations.OpcodeWordsOfTheTable := by
  unfold Obligations.OpcodeWordsOfTheTable
  decide

end Sys2Proof

/-! PROOFS. 60_exceptions.md, 20_memory.md, 10_state.md: what an instruction and a step write, fault entry, and the
invariant of a run. -/

namespace Sys2Proof.Machine

section
variable {s t post : State} {i : Instr}

/-! ### What an instruction and a step write (10_state.md R40, 20_memory.md R76, R90) -/

/-- An instruction completes in execute mode after an effect, or leaves registers, ZF, memory and inputs alone. -/
theorem exec_same_or_effect (h : exec i s = .next t) :
    SameMachine s t ∨ s.inputs.execute = true ∧ ∃ post, Effect i s post ∧ t = post.retire i (s.ip + i.length) := by
  cases exec_cases i s with
  | effect post he hp _ _ hx => exact .inr ⟨he, post, hp, Host.Outcome.next.inj (h.symm.trans hx)⟩
  | outside m n _ _ _ hx =>
    cases hx.symm.trans h
    exact .inl ⟨rfl, rfl, rfl, rfl⟩
  | decodeOnly _ hx =>
    cases hx.symm.trans h
    exact .inl ⟨rfl, rfl, rfl, rfl⟩
  | jump d _ _ _ _ _ hx =>
    cases hx.symm.trans h
    exact .inl ⟨rfl, rfl, rfl, rfl⟩
  | jumpOutside d _ _ _ _ hx =>
    cases hx.symm.trans h
    exact .inl ⟨rfl, rfl, rfl, rfl⟩

/-- A step completes the instruction at the cursor in execute mode after an effect, or leaves registers, ZF, memory
and inputs alone. -/
theorem step_same_or_effect (h : step s = .next t) :
    SameMachine s t ∨ s.inputs.execute = true ∧ ∃ i rest post, decode (s.inputs.buf.drop s.ip) = .ok (i, rest) ∧
      Effect i s post ∧ t = post.retire i (s.ip + i.length) := by
  cases step_cases h with
  | ended _ _ ht => exact .inl (ht ▸ .endRun s)
  | ran i rest _ _ hd ht =>
    rcases exec_same_or_effect ht with hsame | ⟨he, post, hp, rfl⟩
    · exact .inl hsame
    · exact .inr ⟨he, i, rest, post, hd, hp, rfl⟩
  | skipped _ _ _ _ ht => exact .inl (ht ▸ ⟨rfl, rfl, rfl, rfl⟩)
  | rejected e _ _ _ _ ht => exact .inl (ht ▸ ⟨rfl, rfl, rfl, rfl⟩)

theorem exec_inputs (h : exec i s = .next t) : t.inputs = s.inputs := by
  rcases exec_same_or_effect h with hsame | ⟨-, post, hp, rfl⟩
  · exact hsame.inputs
  · exact hp.inputs

theorem step_inputs (h : step s = .next t) : t.inputs = s.inputs := by
  rcases step_same_or_effect h with hsame | ⟨-, i, rest, post, -, hp, rfl⟩
  · exact hsame.inputs
  · exact hp.inputs

/-- A byte that an effect changed is one of the bytes of the instruction's memory destination. -/
theorem Effect.read_ne (h : Effect i s post) {a : Nat} (hne : post.mem.read a ≠ s.mem.read a) :
    ∃ m n, memoryDestination i = some (m, n) ∧ inWindow (s.ea m) n ∧ s.ea m ≤ a ∧ (a : Int) < s.ea m + n := by
  rcases h.mem with hm | ⟨m, v, hd, hw, hm⟩ | ⟨m, v, hd, hw, hm⟩
  · exact absurd (by rw [hm]) hne
  · have ha : a = (s.ea m).toNat := by
      by_contra ha
      exact hne (by rw [hm, Memory.read_write_other _ ha])
    have := Int.toNat_of_nonneg hw.1
    exact ⟨m, 1, hd, hw, by omega, by omega⟩
  · have ha : a = (s.ea m).toNat ∨ a = (s.ea m).toNat + 1 := by
      by_contra ha
      rw [not_or] at ha
      exact hne (by rw [hm, Memory.read_writeWord_other _ ha.1 ha.2])
    have := Int.toNat_of_nonneg hw.1
    exact ⟨m, 2, hd, hw, by omega, by omega⟩

end

/-- Settles O42: a step that does not leave ZF alone has an effect, and only one of an ADD, SUB or CMP writes ZF. -/
theorem onlyArithmeticWritesTheZeroFlag : Obligations.OnlyArithmeticWritesTheZeroFlag := by
  intro s t h hne
  rcases step_same_or_effect h with hsame | ⟨he, i, rest, post, hd, hp, rfl⟩
  · exact absurd hsame.zf hne
  · exact ⟨he, i, rest, hd, hp.zf.resolve_left hne⟩

/-- Settles O44: a step that does not leave memory alone has an effect, which changes the bytes of the destination
only. -/
theorem onlyMemoryDestinationsStore : Obligations.OnlyMemoryDestinationsStore := by
  intro s t a h hne
  rcases step_same_or_effect h with hsame | ⟨he, i, rest, post, hd, hp, rfl⟩
  · exact absurd (by rw [hsame.mem]) hne
  · obtain ⟨m, n, hm, ⟨h0, hw⟩, hlo, hhi⟩ := hp.read_ne hne
    exact ⟨he, i, rest, m, n, hd, hm, hlo, hhi, h0, hw⟩

/-- Settles O10: a changed byte lies in an access inside the window, so below 0x10000. -/
theorem upperBankIsNeverTouched : Obligations.UpperBankIsNeverTouched := by
  intro s t a h ha
  by_contra hne
  obtain ⟨-, i, rest, m, n, -, -, -, hhi, -, hw⟩ := onlyMemoryDestinationsStore s t a h hne
  omega

/-- Settles O50: neither a step nor an instruction writes the inputs, and fetching reads the buffer and the cursor. -/
theorem inputsOfARunNeverChange : Obligations.InputsOfARunNeverChange :=
  ⟨fun _ _ => step_inputs, fun _ _ _ _ h => by rw [State.fetch, exec_inputs h]⟩

/-! ### Fault entry (60_exceptions.md R403, R407, R410) -/

/-- Settles O26: of the outcomes of `exec`, an access outside the window leaves AddressOutOfRange alone; a JNE has no
memory operand. -/
theorem memoryFormsTrapOutsideTheWindow : Obligations.MemoryFormsTrapOutsideTheWindow := by
  intro i m n s he hm hw
  cases exec_cases i s with
  | effect post _ _ ha _ _ => exact absurd (ha m n hm) hw
  | outside _ _ _ _ _ hx => exact hx
  | decodeOnly hd _ => simp [he] at hd
  | jump d hi _ _ _ _ _ => subst hi; cases hm
  | jumpOutside d hi _ _ _ _ => subst hi; cases hm

/-- Settles O33: each of the five outcomes of `exec` is a next state, and two of them are faults. -/
theorem everyInstructionHasANextState : Obligations.EveryInstructionHasANextState := by
  intro i s
  cases exec_cases i s with
  | effect post _ hp _ _ hx => exact ⟨_, hx, .inl hp.status⟩
  | outside m n he hm _ hx => exact ⟨_, hx, .inr ⟨he, .inl ⟨rfl, by rw [hm]; rfl⟩⟩⟩
  | decodeOnly _ hx => exact ⟨_, hx, .inl rfl⟩
  | jump d _ _ _ _ _ hx => exact ⟨_, hx, .inl rfl⟩
  | jumpOutside d hi he _ _ hx => exact ⟨_, hx, .inr ⟨he, .inr ⟨rfl, d, hi⟩⟩⟩

/-- Settles O39: the end of the run, a completed instruction and a skip set no fault; every other step is fault entry
at the cursor. -/
theorem faultEntryIsPrecise : Obligations.FaultEntryIsPrecise := by
  intro s t k p h hk
  cases step_cases h with
  | ended _ _ ht =>
    rw [ht, State.endRun_eq] at hk
    cases hk
  | ran i _ hs hi _ ht =>
    rcases exec_raises_or_completes ht with ⟨k', rfl⟩ | ⟨p', hc, -⟩
    · cases hk
      exact ⟨rfl, hi, rfl⟩
    · rw [hc.status, hs] at hk
      cases hk
  | skipped hs _ _ _ ht =>
    rw [ht, State.setIp_status, hs] at hk
    cases hk
  | rejected e _ hi _ _ ht =>
    subst ht
    cases hk
    exact ⟨rfl, hi, rfl⟩

/-! ### The invariant of a run -/

section
variable {s t post : State} {i : Instr}

/-- An effect keeps the canonical form of the Memory Bank. -/
theorem Effect.mem_wf (h : Effect i s post) (hs : s.mem.wf) : post.mem.wf := by
  rcases h.mem with hm | ⟨m, v, -, -, hm⟩ | ⟨m, v, -, -, hm⟩
  · rwa [hm]
  · rw [hm]
    exact Memory.write_wf hs _ _
  · rw [hm]
    exact Memory.writeWord_wf hs _ _

/-- An effect lists no byte outside the window. -/
theorem Effect.mem_window (h : Effect i s post) (hs : ∀ c ∈ s.mem, c.1 < Config.windowSize) :
    ∀ c ∈ post.mem, c.1 < Config.windowSize := by
  intro c hc
  rcases h.mem with hm | ⟨m, v, -, ⟨h0, hw⟩, hm⟩ | ⟨m, v, -, ⟨h0, hw⟩, hm⟩
  · exact hs c (hm ▸ hc)
  · rw [hm] at hc
    rcases Memory.mem_write hc with ha | hc
    · omega
    · exact hs c hc
  · rw [hm] at hc
    rcases Memory.mem_writeWord hc with ha | ha | hc
    · omega
    · omega
    · exact hs c hc

/-- A step keeps the Memory Bank canonical and inside the window. -/
theorem step_mem (h : step s = .next t) (hc : s.mem.wf) (hw : ∀ c ∈ s.mem, c.1 < Config.windowSize) :
    t.mem.wf ∧ ∀ c ∈ t.mem, c.1 < Config.windowSize := by
  rcases step_same_or_effect h with hsame | ⟨-, i, rest, post, -, hp, rfl⟩
  · rw [hsame.mem]
    exact ⟨hc, hw⟩
  · exact ⟨hp.mem_wf hc, hp.mem_window hw⟩

/-- A step at or beyond the end of the buffer leaves the cursor there and makes the status Done. -/
theorem step_at_end (hi : s.inputs.buf.length ≤ s.ip) (h : step s = .next t) : t.ip = s.ip ∧ t.status = .done := by
  cases step_cases h with
  | ended _ _ ht =>
    rw [ht, State.endRun_eq]
    exact ⟨rfl, rfl⟩
  | ran i _ _ hlt _ _ => exact absurd hi (Nat.not_le.2 hlt)
  | skipped _ hlt _ _ _ => exact absurd hi (Nat.not_le.2 hlt)
  | rejected e _ hlt _ _ _ => exact absurd hi (Nat.not_le.2 hlt)

/-- Where a step leaves the cursor: at the end of the run as it was, and otherwise at most one beyond the buffer,
beyond it with `SKIP_UNRECOGNIZED` alone. -/
theorem step_ip_le (h : step s = .next t) :
    t.ip = s.ip ∨ t.ip ≤ s.inputs.buf.length ∨ s.inputs.skipUnrecognized = true ∧ t.ip = s.inputs.buf.length + 1 := by
  rcases Nat.lt_or_ge s.ip s.inputs.buf.length with hi | hi
  · cases step_cases h with
    | ended _ hN _ => exact absurd hi (Nat.not_lt.2 hN)
    | ran i rest _ _ hd ht => exact .inr (.inl (exec_ip_le hi hd ht))
    | skipped _ _ _ hk ht =>
      have hip : t.ip = s.ip + 2 := ht ▸ rfl
      rcases Nat.lt_or_ge s.inputs.buf.length t.ip with hN | hN
      · exact .inr (.inr ⟨hk, by omega⟩)
      · exact .inr (.inl hN)
    | rejected e _ _ _ _ ht => exact .inl (ht ▸ rfl)
  · exact .inl (step_at_end hi h).1

/-- The run is Done at or beyond the end of the buffer alone. -/
theorem step_done_at (h : step s = .next t) (hd : t.status = .done) : s.inputs.buf.length ≤ t.ip := by
  rcases Nat.lt_or_ge s.ip s.inputs.buf.length with hi | hi
  · rcases step_status hi h with hr | ⟨k, hk⟩
    · rw [hr] at hd
      cases hd
    · rw [hk] at hd
      cases hd
  · rw [(step_at_end hi h).1]
    exact hi

/-- A fault of a step is a verdict of the decoder that is not skipped, or one of an instruction in execute mode. -/
theorem step_fault_kind {k : FaultKind} {p : Nat} (h : step s = .next t) (hk : t.status = .fault k p) :
    (k = .unrecognizedOpcode ∧ s.inputs.skipUnrecognized = false) ∨ k = .truncatedInstruction ∨
      ((k = .addressOutOfRange ∨ k = .branchTargetOutOfRange) ∧ s.inputs.execute = true) := by
  cases step_cases h with
  | ended _ _ ht =>
    rw [ht, State.endRun_eq] at hk
    cases hk
  | ran i _ hs _ _ ht =>
    obtain ⟨t', ht', hst⟩ := everyInstructionHasANextState i s
    cases ht.symm.trans ht'
    rw [hk, hs] at hst
    rcases hst with hst | ⟨he, ⟨hst, -⟩ | ⟨hst, -⟩⟩
    · cases hst
    · cases hst
      exact .inr (.inr ⟨.inl rfl, he⟩)
    · cases hst
      exact .inr (.inr ⟨.inr rfl, he⟩)
  | skipped hs _ _ _ ht =>
    rw [ht, State.setIp_status, hs] at hk
    cases hk
  | rejected e _ _ _ hu ht =>
    subst ht
    cases hk
    cases e with
    | unrecognizedOpcode => exact .inl ⟨rfl, hu rfl⟩
    | truncatedInstruction => exact .inr (.inl rfl)

end

/-- Settles O48: field by field, from what a step can do to memory, cursor, listing and status, and from what
decode-only mode leaves alone. -/
theorem stepKeepsTheInvariant : Obligations.StepKeepsTheInvariant := by
  intro s t hs h
  have hin := step_inputs h
  have hip := step_ip_le h
  obtain ⟨hcanonical, hwindow⟩ := step_mem h hs.canonical hs.window
  exact {
    canonical := hcanonical
    window := hwindow
    cursor := by
      have := hs.cursor
      rw [hin]
      omega
    cursorExact := by
      intro hk
      rw [hin] at hk
      have := hs.cursorExact hk
      rw [hin]
      rcases hip with hip | hip | ⟨hk', -⟩
      · omega
      · exact hip
      · simp [hk] at hk'
    header := hs.header.trans (step_listing_prefix h)
    faultAt := by
      intro k p hk
      obtain ⟨hp, hlt, ht⟩ := faultEntryIsPrecise s t k p h hk
      rw [ht]
      exact ⟨hp, hlt⟩
    doneAt := fun hd => by rw [hin]; exact step_done_at h hd
    skipped := by
      intro hk p hp
      rw [hin] at hk
      simpa [hk] using step_fault_kind h hp
    decodeOnly := by
      intro he
      rw [hin] at he
      have hsame := SameMachine.of_decodeOnly_step he h
      rw [hsame.regs, hsame.zf, hsame.mem, hin]
      exact hs.decodeOnly he
    decodeOnlyFault := by
      intro he p
      rw [hin] at he
      exact ⟨fun hp => by simpa [he] using step_fault_kind h hp, fun hp => by simpa [he] using step_fault_kind h hp⟩ }

/-- Settles O49: at reset the bank is empty, the listing is the header and the run is Running at cursor 0. -/
theorem resetSatisfiesTheInvariant : Obligations.ResetSatisfiesTheInvariant := by
  have hreset (inputs : Inputs) : Inv (.resetWith inputs) := {
    canonical := Memory.reset_wf inputs
    window := nofun
    cursor := Nat.zero_le _
    cursorExact := fun _ => Nat.zero_le _
    header := List.prefix_rfl
    faultAt := fun _ _ hk => by cases hk
    doneAt := nofun
    skipped := nofun
    decodeOnly := fun _ => ⟨rfl, rfl, rfl⟩
    decodeOnlyFault := fun _ _ => ⟨nofun, nofun⟩ }
  exact ⟨hreset, hreset .reset⟩

end Sys2Proof.Machine

/-! PROOFS. 10_state.md and 20_memory.md: reset, accesses and their window, effective addresses, and the persisted
image. -/

namespace Sys2Proof.Machine

/-- Settles O2: the fields of engine construction are those written in its definition, and its bank is empty. -/
theorem resetLeavesTheRestAsTheSpecSays : Obligations.ResetLeavesTheRestAsTheSpecSays :=
  ⟨fun _ => ⟨rfl, Memory.read_nil, rfl, rfl, rfl, rfl⟩, rfl⟩

/-! ### Accesses (20_memory.md R73, R78) -/

/-- An access guarded by a condition is refused exactly where the condition fails. -/
theorem guarded_eq_error_iff {ε α : Type} {c : Prop} [Decidable c] {x : α} {e : ε} :
    (if c then Except.ok x else .error e) = .error e ↔ ¬ c := by
  by_cases h : c <;> simp [h]

/-- Settles O6: each of the four accesses is guarded by its window check. -/
theorem accessesOutsideTheWindowAreRefused : Obligations.AccessesOutsideTheWindowAreRefused :=
  fun _ _ _ _ => ⟨guarded_eq_error_iff, guarded_eq_error_iff, guarded_eq_error_iff, guarded_eq_error_iff⟩

/-- The bytes of an admitted word are themselves admitted. -/
theorem inWindow_bytes {a : Int} (h : inWindow a 2) : inWindow a 1 ∧ inWindow (a + 1) 1 := by
  obtain ⟨h0, hw⟩ := h
  exact ⟨⟨h0, by omega⟩, by omega, by omega⟩

/-- Settles O5: by the read-after-write laws of the Memory Bank, the byte after `a` being at the next place of the
bank. -/
theorem overlappingAccessesSeeTheSameBytes : Obligations.OverlappingAccessesSeeTheSameBytes := by
  intro s a h
  obtain ⟨hlo, hhi⟩ := inWindow_bytes h
  have hnext : (a + 1).toNat = a.toNat + 1 := Int.toNat_add h.1 Int.one_nonneg
  refine ⟨fun v t ht => ?_, fun x y t u ht hu => ?_⟩
  · rw [State.memWrite16_ok h] at ht
    cases ht
    rw [State.memRead8_ok hlo, State.memRead8_ok hhi, hnext]
    exact ⟨congrArg _ (Memory.read_writeWord_low _ _ _), congrArg _ (Memory.read_writeWord_high _ _ _)⟩
  · rw [State.memWrite8_ok hlo] at ht
    cases ht
    rw [State.memWrite8_ok hhi] at hu
    cases hu
    rw [State.memRead16_ok h, hnext, Memory.readWord, Memory.read_write_self, Memory.read_write_other _ (by omega),
      Memory.read_write_self]
    rfl

/-! ### Effective addresses (20_memory.md R77) -/

/-- The signed value of a byte. -/
theorem toInt_byte (d : Byte) : d.toInt = if d.toNat < 128 then (d.toNat : Int) else d.toNat - 256 := by
  rw [BitVec.toInt_eq_toNat_cond]
  split_ifs <;> omega

/-- The signed value of a word. -/
theorem toInt_word (d : Word) : d.toInt = if d.toNat < 32768 then (d.toNat : Int) else d.toNat - 65536 := by
  rw [BitVec.toInt_eq_toNat_cond]
  split_ifs <;> omega

theorem State.addressPart_le (s : State) (r : Option Reg16) : s.addressPart r ≤ 65535 := by
  cases r with
  | none => exact Nat.zero_le _
  | some r => exact Nat.le_of_lt_succ (s.r16 r).isLt

/-- The sum of base and index is at most twice the greatest word. -/
theorem State.baseIndex_le (s : State) (b : BaseIndex) : s.baseIndex b ≤ 131070 :=
  Nat.add_le_add (s.addressPart_le b.base) (s.addressPart_le b.index)

theorem State.ea_bounds (s : State) (m : MemOp) : -32768 ≤ s.ea m ∧ s.ea m ≤ 0x27FFD := by
  cases m with
  | plain b =>
    have := s.baseIndex_le b
    rw [State.ea]
    omega
  | direct a =>
    have := a.isLt
    rw [State.ea]
    omega
  | disp8 b d =>
    have := s.baseIndex_le b
    have := d.isLt
    rw [State.ea, toInt_byte]
    split_ifs <;> omega
  | disp16 b d =>
    have := s.baseIndex_le b
    have := d.isLt
    rw [State.ea, toInt_word]
    split_ifs <;> omega

/-- Settles O8: the cases of the effective address with the signed values written out, and the bounds of its parts. -/
theorem effectiveAddressIsTheIntegerSum : Obligations.EffectiveAddressIsTheIntegerSum :=
  fun s _ d e => ⟨rfl, rfl, by rw [← toInt_byte]; rfl, by rw [← toInt_word]; rfl, s.ea_bounds⟩

/-! ### The persisted image (20_memory.md R91) -/

/-- Settles O54: with DUMP the output is the image of the bank. -/
theorem dumpImageIsTheWholeBank : Obligations.DumpImageIsTheWholeBank :=
  fun s => ⟨fun hd => ⟨s.mem.image, if_pos hd, s.mem.length_image, fun _ ha => s.mem.getElem?_image ha⟩,
    fun hd => if_neg (by simp [hd])⟩

end Sys2Proof.Machine

/-! PROOFS. 40_mov.md and 41_arith.md: what each MOV, ADD, SUB and CMP does in execute mode. -/

namespace Sys2Proof.Machine

/-! ### Completion after an effect (40_mov.md R200, 41_arith.md R220) -/

section
variable {s : State} {i : Instr} (effect : State → Except FaultKind State) (he : s.inputs.execute = true)
  (hx : exec i s = perform i effect s)
include he hx

/-- An instruction whose effect is a write of an 8-bit operand completes as a MOV. -/
theorem exec_put8 {o : RM Reg8} {v : Byte} (hp : effect s = .ok (s.put8 o v)) :
    ∃ t, exec i s = .next t ∧ MovDone i (Writes8 o v) s t :=
  ⟨_, perform_next hx he hp, .of_put s rfl rfl, s.put8_zf o v, .of_retire _ (by simp) (by simp) (by simp)⟩

theorem exec_put16 {o : RM Reg16} {v : Word} (hp : effect s = .ok (s.put16 o v)) :
    ∃ t, exec i s = .next t ∧ MovDone i (Writes16 o v) s t :=
  ⟨_, perform_next hx he hp, .of_put s rfl rfl, s.put16_zf o v, .of_retire _ (by simp) (by simp) (by simp)⟩

/-- An instruction whose effect is a storing operation on an 8-bit destination completes with its result. -/
theorem exec_aluPut8 {op : AluOp} {o : RM Reg8} {b : Byte} (hs : op.stores = true)
    (hp : effect s = .ok (s.aluPut8 op o b)) :
    ∃ t, exec i s = .next t ∧
      AluDone i (op.result (s.value8 o) b) (Writes8 o (op.result (s.value8 o) b)) s t := by
  refine ⟨_, perform_next hx he hp, .of_put s ?_ ?_, zeroFlag_eq_true _, .of_retire _ (by simp) (by simp) (by simp)⟩
  · rw [State.retire_regs, State.aluPut8, if_pos hs, State.setZf_regs]
  · rw [State.retire_mem, State.aluPut8, if_pos hs, State.setZf_mem]

theorem exec_aluPut16 {op : AluOp} {o : RM Reg16} {b : Word} (hs : op.stores = true)
    (hp : effect s = .ok (s.aluPut16 op o b)) :
    ∃ t, exec i s = .next t ∧
      AluDone i (op.result (s.value16 o) b) (Writes16 o (op.result (s.value16 o) b)) s t := by
  refine ⟨_, perform_next hx he hp, .of_put s ?_ ?_, zeroFlag_eq_true _, .of_retire _ (by simp) (by simp) (by simp)⟩
  · rw [State.retire_regs, State.aluPut16, if_pos hs, State.setZf_regs]
  · rw [State.retire_mem, State.aluPut16, if_pos hs, State.setZf_mem]

/-- An instruction whose effect is the comparison of an 8-bit operand completes with ZF alone written. -/
theorem exec_cmp8 {o : RM Reg8} {b : Byte} (hp : effect s = .ok (s.aluPut8 .cmp o b)) :
    ∃ t, exec i s = .next t ∧ CmpDone i (s.value8 o) b s t :=
  ⟨_, perform_next hx he hp, fun _ => rfl, fun _ => rfl, zeroFlag_result_cmp _ b, .of_retire _ rfl rfl rfl⟩

theorem exec_cmp16 {o : RM Reg16} {b : Word} (hp : effect s = .ok (s.aluPut16 .cmp o b)) :
    ∃ t, exec i s = .next t ∧ CmpDone i (s.value16 o) b s t :=
  ⟨_, perform_next hx he hp, fun _ => rfl, fun _ => rfl, zeroFlag_result_cmp _ b, .of_retire _ rfl rfl rfl⟩

end

/-- The access to a register is admitted. -/
theorem State.readable8_reg (s : State) (r : Reg8) : s.Readable8 (.reg r) := trivial

theorem State.readable16_reg (s : State) (r : Reg16) : s.Readable16 (.reg r) := trivial

/-! ### MOV (40_mov.md R201 to R208) -/

/-- Settles O17: the effect is a write of the admitted destination. -/
theorem movToRmCopiesTheSource : Obligations.MovToRmCopiesTheSource :=
  fun s he => ⟨
    fun dst src h => exec_put8 (fun s => s.writeRm8 dst (s.r8 src)) he rfl (s.writeRm8_ok h _),
    fun dst src h => exec_put16 (fun s => s.writeRm16 dst (s.r16 src)) he rfl (s.writeRm16_ok h _),
    fun dst imm h => exec_put8 (fun s => s.writeRm8 dst imm) he rfl (s.writeRm8_ok h _),
    fun dst imm h => exec_put16 (fun s => s.writeRm16 dst imm) he rfl (s.writeRm16_ok h _)⟩

/-- Settles O18: the effect is a write of the register with the value of the admitted source. -/
theorem movToRegisterCopiesTheSource : Obligations.MovToRegisterCopiesTheSource :=
  fun s he => ⟨
    fun dst src h => exec_put8 (o := .reg dst) (fun s => s.load8 dst src) he rfl (s.load8_ok h dst),
    fun dst src h => exec_put16 (o := .reg dst) (fun s => s.load16 dst src) he rfl (s.load16_ok h dst),
    fun dst imm => exec_put8 (o := .reg dst) (fun s => .ok (s.setR8 dst imm)) he rfl rfl,
    fun dst imm => exec_put16 (o := .reg dst) (fun s => .ok (s.setR16 dst imm)) he rfl rfl⟩

/-! ### ADD (41_arith.md R230 to R239) -/

/-- Settles O19: the effect is the storing operation ADD on the admitted destination. -/
theorem addToRmStoresTheSum : Obligations.AddToRmStoresTheSum :=
  fun s he => ⟨
    fun dst src h => exec_aluPut8 (fun s => s.alu8 .add dst (s.r8 src)) he rfl rfl (s.alu8_ok h _ _),
    fun dst src h => exec_aluPut16 (fun s => s.alu16 .add dst (s.r16 src)) he rfl rfl (s.alu16_ok h _ _),
    fun dst imm h => exec_aluPut8 (fun s => s.alu8 .add dst imm) he rfl rfl (s.alu8_ok h _ _),
    fun dst imm h => exec_aluPut16 (fun s => s.alu16 .add dst imm) he rfl rfl (s.alu16_ok h _ _),
    fun dst imm h => exec_aluPut8 (fun s => s.alu8 .add dst imm) he rfl rfl (s.alu8_ok h _ _),
    fun dst imm h => exec_aluPut16 (fun s => s.alu16 .add dst (signExtendImm imm)) he rfl rfl (s.alu16_ok h _ _)⟩

/-- Settles O20: the effect is the storing operation ADD on the register, with the value of the admitted source. -/
theorem addToRegisterStoresTheSum : Obligations.AddToRegisterStoresTheSum :=
  fun s he => ⟨
    fun dst src h => exec_aluPut8 (fun s => s.aluFrom8 .add dst src) he rfl rfl (s.aluFrom8_ok h _ dst),
    fun dst src h => exec_aluPut16 (fun s => s.aluFrom16 .add dst src) he rfl rfl (s.aluFrom16_ok h _ dst),
    fun imm => exec_aluPut8 (fun s => s.alu8 .add (.reg .al) imm) he rfl rfl (s.alu8_ok (s.readable8_reg .al) _ _),
    fun imm => exec_aluPut16 (fun s => s.alu16 .add (.reg .ax) imm) he rfl rfl (s.alu16_ok (s.readable16_reg .ax) _ _)⟩

/-! ### SUB (41_arith.md R240 to R249) -/

/-- Settles O21: the effect is the storing operation SUB on the admitted destination. -/
theorem subToRmStoresTheDifference : Obligations.SubToRmStoresTheDifference :=
  fun s he => ⟨
    fun dst src h => exec_aluPut8 (fun s => s.alu8 .sub dst (s.r8 src)) he rfl rfl (s.alu8_ok h _ _),
    fun dst src h => exec_aluPut16 (fun s => s.alu16 .sub dst (s.r16 src)) he rfl rfl (s.alu16_ok h _ _),
    fun dst imm h => exec_aluPut8 (fun s => s.alu8 .sub dst imm) he rfl rfl (s.alu8_ok h _ _),
    fun dst imm h => exec_aluPut16 (fun s => s.alu16 .sub dst imm) he rfl rfl (s.alu16_ok h _ _),
    fun dst imm h => exec_aluPut8 (fun s => s.alu8 .sub dst imm) he rfl rfl (s.alu8_ok h _ _),
    fun dst imm h => exec_aluPut16 (fun s => s.alu16 .sub dst (signExtendImm imm)) he rfl rfl (s.alu16_ok h _ _)⟩

/-- Settles O22: the effect is the storing operation SUB on the register, with the value of the admitted source. -/
theorem subToRegisterStoresTheDifference : Obligations.SubToRegisterStoresTheDifference :=
  fun s he => ⟨
    fun dst src h => exec_aluPut8 (fun s => s.aluFrom8 .sub dst src) he rfl rfl (s.aluFrom8_ok h _ dst),
    fun dst src h => exec_aluPut16 (fun s => s.aluFrom16 .sub dst src) he rfl rfl (s.aluFrom16_ok h _ dst),
    fun imm => exec_aluPut8 (fun s => s.alu8 .sub (.reg .al) imm) he rfl rfl (s.alu8_ok (s.readable8_reg .al) _ _),
    fun imm => exec_aluPut16 (fun s => s.alu16 .sub (.reg .ax) imm) he rfl rfl (s.alu16_ok (s.readable16_reg .ax) _ _)⟩

/-! ### CMP (41_arith.md R250 to R259) -/

/-- Settles O23: the effect is the comparison of the admitted first operand. -/
theorem cmpOfRmTestsEquality : Obligations.CmpOfRmTestsEquality :=
  fun s he => ⟨
    fun dst src h => exec_cmp8 (fun s => s.alu8 .cmp dst (s.r8 src)) he rfl (s.alu8_ok h _ _),
    fun dst src h => exec_cmp16 (fun s => s.alu16 .cmp dst (s.r16 src)) he rfl (s.alu16_ok h _ _),
    fun dst imm h => exec_cmp8 (fun s => s.alu8 .cmp dst imm) he rfl (s.alu8_ok h _ _),
    fun dst imm h => exec_cmp16 (fun s => s.alu16 .cmp dst imm) he rfl (s.alu16_ok h _ _),
    fun dst imm h => exec_cmp8 (fun s => s.alu8 .cmp dst imm) he rfl (s.alu8_ok h _ _),
    fun dst imm h => exec_cmp16 (fun s => s.alu16 .cmp dst (signExtendImm imm)) he rfl (s.alu16_ok h _ _)⟩

/-- Settles O24: the effect is the comparison of the register with the value of the admitted second operand. -/
theorem cmpOfRegisterTestsEquality : Obligations.CmpOfRegisterTestsEquality :=
  fun s he => ⟨
    fun dst src h => exec_cmp8 (fun s => s.aluFrom8 .cmp dst src) he rfl (s.aluFrom8_ok h _ dst),
    fun dst src h => exec_cmp16 (fun s => s.aluFrom16 .cmp dst src) he rfl (s.aluFrom16_ok h _ dst),
    fun imm => exec_cmp8 (fun s => s.alu8 .cmp (.reg .al) imm) he rfl (s.alu8_ok (s.readable8_reg .al) _ _),
    fun imm => exec_cmp16 (fun s => s.alu16 .cmp (.reg .ax) imm) he rfl (s.alu16_ok (s.readable16_reg .ax) _ _)⟩

end Sys2Proof.Machine

/-! PROOFS. 42_branch.md: the line and the cursor of each branch, and the one control transfer. -/

namespace Sys2Proof.Machine

/-! ### The branches other than JNE (42_branch.md R272, 30_encoding.md R139) -/

/-- Completing a branch appends its line and moves the cursor. -/
theorem State.retire_branch (op : BranchOp) (d : Byte) (s : State) (n : Nat) :
    s.retire (op.instr d) n = { s with
      listing := s.listing ++ (branchName op ++ [' '] ++ dec (branchShown s.inputs.execute op d)) ++ ['\n']
      ip := n } := by
  rw [State.retire, render_branch]
  rfl

/-- A branch other than JNE shows its displacement, in both modes. -/
theorem exec_branch_of_ne_jne {op : BranchOp} (hop : op ≠ .jne) (d : Byte) (s : State) :
    exec (op.instr d) s = .next { s with
      listing := s.listing ++ (branchName op ++ [' '] ++ dec d.toInt) ++ ['\n']
      ip := s.ip + 2 } := by
  have hshown : branchShown s.inputs.execute op d = d.toInt := if_neg fun h => hop h.2
  rw [exec_branch, if_neg fun h => hop h.1, passBy, State.retire_branch, hshown, BranchOp.length_instr]

/-- Settles O29: each of the nineteen is a branch other than JNE, with its mnemonic. -/
theorem branchesOtherThanJneOnlyAdvance : Obligations.BranchesOtherThanJneOnlyAdvance := by
  intro d s
  have line {op : BranchOp} (hop : op ≠ .jne) := exec_branch_of_ne_jne hop d s
  exact ⟨line (op := .jo) nofun, line (op := .jno) nofun, line (op := .jb) nofun, line (op := .jnb) nofun,
    line (op := .je) nofun, line (op := .jbe) nofun, line (op := .ja) nofun, line (op := .js) nofun,
    line (op := .jns) nofun, line (op := .jp) nofun, line (op := .jnp) nofun, line (op := .jl) nofun,
    line (op := .jnl) nofun, line (op := .jle) nofun, line (op := .jg) nofun, line (op := .loopnz) nofun,
    line (op := .loopz) nofun, line (op := .loop) nofun, line (op := .jcxz) nofun⟩

/-! ### JNE (42_branch.md R271, R281) -/

section
variable {s : State} (d : Byte)

/-- The line of JNE in execute mode shows the displacement plus 2. -/
theorem State.retire_jne (he : s.inputs.execute = true) (n : Nat) : s.retire (.jne d) n = { s with
    listing := s.listing ++ ("jne ".toList ++ dec (d.toInt + 2)) ++ ['\n']
    ip := n } := by
  have hshown : branchShown s.inputs.execute .jne d = d.toInt + 2 := if_pos ⟨he, rfl⟩
  have h := s.retire_branch .jne d n
  rw [hshown] at h
  exact h

theorem exec_jne_taken (h : s.inputs.execute = true ∧ s.zf = false) :
    exec (.jne d) s = takeBranch (.jne d) d s := (exec_branch .jne d s).trans (if_pos ⟨rfl, h⟩)

theorem exec_jne_not_taken (h : ¬ (s.inputs.execute = true ∧ s.zf = false)) :
    exec (.jne d) s = passBy (.jne d) s := (exec_branch .jne d s).trans (if_neg fun h' => h h'.2)

end

/-- Settles O30: with ZF true JNE passes by. -/
theorem jneNotTakenAdvances : Obligations.JneNotTakenAdvances := by
  intro d s he hz
  rw [exec_jne_not_taken d (by simp [hz]), passBy, State.retire_jne d he]
  rfl

/-- Settles O31: with ZF false JNE is taken, and its target is the one stated. -/
theorem jneTakenJumpsRelativeToItsEnd : Obligations.JneTakenJumpsRelativeToItsEnd := by
  intro d s p he hz hp hN
  rw [← toInt_byte] at hp
  have htarget : s.branchTarget d = p := hp.symm
  rw [exec_jne_taken d ⟨he, hz⟩, takeBranch, htarget, if_pos ⟨by omega, by omega⟩, State.retire_jne d he]
  rfl

/-- Settles O32: with ZF false JNE is taken, and its target is not in `0..N`. -/
theorem jneOutsideTheBufferFaults : Obligations.JneOutsideTheBufferFaults := by
  intro d s he hz hout
  have htarget : ¬ (0 ≤ s.branchTarget d ∧ s.branchTarget d ≤ s.inputs.buf.length) := by
    rw [State.branchTarget]
    omega
  rw [exec_jne_taken d ⟨he, hz⟩, takeBranch, if_neg htarget]
  rfl

/-- Settles O41: every next cursor but `p + L` is the target of a JNE taken in execute mode. -/
theorem onlyJneTransfersControl : Obligations.OnlyJneTransfersControl := by
  intro i s t _ h hr hip
  rcases exec_next_ip h hr with ⟨d, hi, he, hz, -⟩ | ⟨-, hnext⟩
  · exact ⟨⟨d, hi⟩, he, hz⟩
  · exact absurd hnext hip

end Sys2Proof.Machine

/-! PROOFS. 45_engine_and_listing.md: one step, its verdicts, and the text at the end of a run. -/

namespace Sys2Proof.Machine

/-! ### One step (45_engine_and_listing.md R301, R311, R312) -/

/-- A step inside the buffer, where the bytes at the cursor decode. -/
theorem step_of_decode {s : State} {i : Instr} {rest : List Byte} (hs : s.status = .running)
    (hi : s.ip < s.inputs.buf.length) (hd : decode (s.inputs.buf.drop s.ip) = .ok (i, rest)) : step s = exec i s := by
  rw [step_running hs, if_neg (Nat.not_le.2 hi), State.fetch, hd]

/-- A step inside the buffer, where the decoder gives a verdict. -/
theorem step_of_verdict {s : State} {e : DecodeError} (hs : s.status = .running)
    (hi : s.ip < s.inputs.buf.length) (hd : decode (s.inputs.buf.drop s.ip) = .error e) :
    step s = .next (s.rejectBytes e) := by
  rw [step_running hs, if_neg (Nat.not_le.2 hi), State.fetch, hd]

/-- A step at or beyond the end of the buffer. -/
theorem step_at_end_eq {s : State} (hs : s.status = .running) (hi : s.inputs.buf.length ≤ s.ip) :
    step s = .next s.endRun := by
  rw [step_running hs, if_pos hi]

/-- Settles O34: the step runs what the decoder read at the cursor. -/
theorem stepRunsTheDecodedInstruction : Obligations.StepRunsTheDecodedInstruction :=
  fun _ _ _ => step_of_decode

/-- Settles O35: the step is the rejection of the bytes, which is a skip for an unrecognized opcode with the
parameter and fault entry otherwise. -/
theorem decoderVerdictsFaultOrSkip : Obligations.DecoderVerdictsFaultOrSkip := by
  refine fun s hs hi => ⟨fun hd => ?_, fun hd hk => ?_, fun hd hk => ?_⟩ <;>
    rw [step_of_verdict hs hi hd, State.rejectBytes]
  · rw [if_neg (by simp)]
    rfl
  · rw [if_neg (by simp [hk])]
    rfl
  · rw [if_pos ⟨rfl, hk⟩]
    rfl

/-- Settles O38: the loop looks at the status first. -/
theorem endedRunsTakeNoStep : Obligations.EndedRunsTakeNoStep := by
  intro s hs
  rw [step, iterate]
  cases h : s.status with
  | running => exact absurd h hs
  | done => rfl
  | fault k p => rfl

/-! ### The end of a run (45_engine_and_listing.md R309, R310) -/

/-- The nine lines of the end of a run in execute mode. -/
theorem State.closing_execute {s : State} (he : s.inputs.execute = true) :
    s.closing = "ax: ".toList ++ hex (s.r16 .ax).toNat ++ "\nbx: ".toList ++ hex (s.r16 .bx).toNat ++
      "\ncx: ".toList ++ hex (s.r16 .cx).toNat ++ "\ndx: ".toList ++ hex (s.r16 .dx).toNat ++
      "\nsp: ".toList ++ hex (s.r16 .sp).toNat ++ "\nbp: ".toList ++ hex (s.r16 .bp).toNat ++
      "\nsi: ".toList ++ hex (s.r16 .si).toNat ++ "\ndi: ".toList ++ hex (s.r16 .di).toNat ++
      "\nip: ".toList ++ dec s.ip ++ ['\n'] := by
  rw [State.closing, if_pos he]
  simp [dumpOrder, dumpLine, ipLine, nameOf16]

/-- Settles O37: the closing text is the dump and the `ip:` line in execute mode, and empty in decode-only mode. -/
theorem endOfRunPrintsDumpAndCursor : Obligations.EndOfRunPrintsDumpAndCursor := by
  intro s hs hi
  rw [step_at_end_eq hs hi, State.endRun_eq]
  cases he : s.inputs.execute with
  | true =>
    rw [if_pos rfl, State.closing_execute he]
    simp only [List.append_assoc]
  | false =>
    rw [if_neg nofun, State.closing, if_neg (by simp [he]), List.append_nil]

end Sys2Proof.Machine

/-! PROOFS. 45_engine_and_listing.md R315 and 10_state.md R40: what an instruction, a step and a run do not depend
on. -/

namespace Sys2Proof.Machine

/-! ### The state with ZF and DUMP replaced -/

/-- The state with ZF and DUMP replaced. -/
def State.mask (s : State) (z d : Bool) : State := { s with zf := z, inputs := { s.inputs with dump := d } }

section
variable (s : State) (z d : Bool)

/-- Replacing DUMP by itself replaces ZF alone. -/
theorem State.mask_dump : s.mask z s.inputs.dump = { s with zf := z } := rfl

@[simp] theorem State.ea_mask (m : MemOp) : (s.mask z d).ea m = s.ea m := by cases m <;> rfl

@[simp] theorem State.readable8_mask (o : RM Reg8) : (s.mask z d).Readable8 o ↔ s.Readable8 o := by
  cases o with
  | reg r => exact Iff.rfl
  | mem m => rw [State.Readable8, State.Readable8, State.ea_mask]

@[simp] theorem State.readable16_mask (o : RM Reg16) : (s.mask z d).Readable16 o ↔ s.Readable16 o := by
  cases o with
  | reg r => exact Iff.rfl
  | mem m => rw [State.Readable16, State.Readable16, State.ea_mask]

@[simp] theorem State.value8_mask (o : RM Reg8) : (s.mask z d).value8 o = s.value8 o := by
  cases o with
  | reg r => rfl
  | mem m => rw [State.value8, State.value8, State.ea_mask]; rfl

@[simp] theorem State.value16_mask (o : RM Reg16) : (s.mask z d).value16 o = s.value16 o := by
  cases o with
  | reg r => rfl
  | mem m => rw [State.value16, State.value16, State.ea_mask]; rfl

theorem State.put8_mask (o : RM Reg8) (v : Byte) : (s.mask z d).put8 o v = (s.put8 o v).mask z d := by
  cases o with
  | reg r => rfl
  | mem m => rw [State.put8, State.put8, State.ea_mask]; rfl

theorem State.put16_mask (o : RM Reg16) (v : Word) : (s.mask z d).put16 o v = (s.put16 o v).mask z d := by
  cases o with
  | reg r => rfl
  | mem m => rw [State.put16, State.put16, State.ea_mask]; rfl

/-- The shared operation writes ZF itself. -/
theorem State.aluPut8_mask (op : AluOp) (o : RM Reg8) (b : Byte) :
    (s.mask z d).aluPut8 op o b = (s.aluPut8 op o b).mask (s.aluPut8 op o b).zf d := by
  cases op <;> simp only [State.aluPut8, AluOp.stores, State.value8_mask, State.put8_mask] <;> rfl

theorem State.aluPut16_mask (op : AluOp) (o : RM Reg16) (b : Word) :
    (s.mask z d).aluPut16 op o b = (s.aluPut16 op o b).mask (s.aluPut16 op o b).zf d := by
  cases op <;> simp only [State.aluPut16, AluOp.stores, State.value16_mask, State.put16_mask] <;> rfl

/-- A line shows neither ZF nor DUMP. -/
theorem State.retire_mask (i : Instr) (n : Nat) : (s.mask z d).retire i n = (s.retire i n).mask z d := by
  rw [State.retire, State.retire, render_congr i (s := s) (t := s.mask z d) rfl rfl]
  rfl

end

/-! ### Effects (10_state.md R40, R42) -/

/-- With `t` the result in `s` and `z'` the ZF of the result in `s.mask z d`: ZF was written, or it is the one
before. -/
def MaskedZf (s t : State) (z z' : Bool) : Prop := z' = t.zf ∨ (z' = z ∧ t.zf = s.zf)

/-- The effect reads neither ZF nor DUMP: with both replaced it raises the same fault, or leaves the same state with
DUMP, and ZF where it does not write it, replaced. -/
def EffectBlind (effect : State → Except FaultKind State) : Prop :=
  ∀ s z d, (∃ k, effect s = .error k ∧ effect (s.mask z d) = .error k) ∨
    ∃ post z', effect s = .ok post ∧ effect (s.mask z d) = .ok (post.mask z' d) ∧ MaskedZf s post z z'

/-- The same of an operation that gives an outcome: it answers a next state, and with ZF and DUMP replaced the same
one with DUMP, and ZF where it is not written, replaced. -/
def OutcomeBlind (f : State → Outcome) : Prop :=
  ∀ s z d, ∃ t z', f s = .next t ∧ f (s.mask z d) = .next (t.mask z' d) ∧ MaskedZf s t z z'

/-- An effect that completes where the 8-bit operand is admitted and raises a fault elsewhere is blind when what it
leaves is. -/
theorem EffectBlind.of_operand8 {effect : State → Except FaultKind State} {post : State → State}
    (o : RM Reg8) (hok : ∀ s, s.Readable8 o → effect s = .ok (post s))
    (herr : ∀ s m, o = .mem m → ¬ inWindow (s.ea m) 1 → effect s = .error .addressOutOfRange)
    (hpost : ∀ s z d, ∃ z', post (s.mask z d) = (post s).mask z' d ∧ MaskedZf s (post s) z z') :
    EffectBlind effect := by
  intro s z d
  by_cases h : s.Readable8 o
  · obtain ⟨z', hmask, hz⟩ := hpost s z d
    exact .inr ⟨post s, z', hok s h, by rw [hok _ ((s.readable8_mask z d o).2 h), hmask], hz⟩
  · cases o with
    | reg r => exact absurd trivial h
    | mem m => exact .inl ⟨_, herr s m rfl h, herr _ m rfl (by rwa [State.ea_mask])⟩

/-- An effect that completes where the 16-bit operand is admitted and raises a fault elsewhere is blind when what it
leaves is. -/
theorem EffectBlind.of_operand16 {effect : State → Except FaultKind State} {post : State → State}
    (o : RM Reg16) (hok : ∀ s, s.Readable16 o → effect s = .ok (post s))
    (herr : ∀ s m, o = .mem m → ¬ inWindow (s.ea m) 2 → effect s = .error .addressOutOfRange)
    (hpost : ∀ s z d, ∃ z', post (s.mask z d) = (post s).mask z' d ∧ MaskedZf s (post s) z z') :
    EffectBlind effect := by
  intro s z d
  by_cases h : s.Readable16 o
  · obtain ⟨z', hmask, hz⟩ := hpost s z d
    exact .inr ⟨post s, z', hok s h, by rw [hok _ ((s.readable16_mask z d o).2 h), hmask], hz⟩
  · cases o with
    | reg r => exact absurd trivial h
    | mem m => exact .inl ⟨_, herr s m rfl h, herr _ m rfl (by rwa [State.ea_mask])⟩

theorem EffectBlind.writeRm8 (o : RM Reg8) {v : State → Byte} (hv : ∀ s z d, v (s.mask z d) = v s) :
    EffectBlind fun s => s.writeRm8 o (v s) := by
  refine .of_operand8 o (fun s h => s.writeRm8_ok h (v s)) ?_ fun s z d => ⟨z, ?_, .inr ⟨rfl, s.put8_zf o _⟩⟩
  · rintro s m rfl h
    exact s.writeRm8_error h _
  · rw [hv, State.put8_mask]

theorem EffectBlind.load8 (r : Reg8) (o : RM Reg8) : EffectBlind fun s => s.load8 r o := by
  refine .of_operand8 o (fun s h => s.load8_ok h r) ?_ fun s z d => ⟨z, ?_, .inr ⟨rfl, rfl⟩⟩
  · rintro s m rfl h
    exact s.load8_error h r
  · rw [State.value8_mask]
    rfl

theorem EffectBlind.alu8 (op : AluOp) (o : RM Reg8) {v : State → Byte} (hv : ∀ s z d, v (s.mask z d) = v s) :
    EffectBlind fun s => s.alu8 op o (v s) := by
  refine .of_operand8 o (fun s h => s.alu8_ok h op (v s)) ?_ fun s z d => ⟨_, ?_, .inl rfl⟩
  · rintro s m rfl h
    exact s.alu8_error h op _
  · rw [hv, State.aluPut8_mask]

theorem EffectBlind.aluFrom8 (op : AluOp) (r : Reg8) (o : RM Reg8) : EffectBlind fun s => s.aluFrom8 op r o := by
  refine .of_operand8 o (fun s h => s.aluFrom8_ok h op r) ?_ fun s z d => ⟨_, ?_, .inl rfl⟩
  · rintro s m rfl h
    exact s.aluFrom8_error h op r
  · rw [State.value8_mask, State.aluPut8_mask]

theorem EffectBlind.writeRm16 (o : RM Reg16) {v : State → Word} (hv : ∀ s z d, v (s.mask z d) = v s) :
    EffectBlind fun s => s.writeRm16 o (v s) := by
  refine .of_operand16 o (fun s h => s.writeRm16_ok h (v s)) ?_ fun s z d => ⟨z, ?_, .inr ⟨rfl, s.put16_zf o _⟩⟩
  · rintro s m rfl h
    exact s.writeRm16_error h _
  · rw [hv, State.put16_mask]

theorem EffectBlind.load16 (r : Reg16) (o : RM Reg16) : EffectBlind fun s => s.load16 r o := by
  refine .of_operand16 o (fun s h => s.load16_ok h r) ?_ fun s z d => ⟨z, ?_, .inr ⟨rfl, rfl⟩⟩
  · rintro s m rfl h
    exact s.load16_error h r
  · rw [State.value16_mask]
    rfl

theorem EffectBlind.alu16 (op : AluOp) (o : RM Reg16) {v : State → Word} (hv : ∀ s z d, v (s.mask z d) = v s) :
    EffectBlind fun s => s.alu16 op o (v s) := by
  refine .of_operand16 o (fun s h => s.alu16_ok h op (v s)) ?_ fun s z d => ⟨_, ?_, .inl rfl⟩
  · rintro s m rfl h
    exact s.alu16_error h op _
  · rw [hv, State.aluPut16_mask]

theorem EffectBlind.aluFrom16 (op : AluOp) (r : Reg16) (o : RM Reg16) : EffectBlind fun s => s.aluFrom16 op r o := by
  refine .of_operand16 o (fun s h => s.aluFrom16_ok h op r) ?_ fun s z d => ⟨_, ?_, .inl rfl⟩
  · rintro s m rfl h
    exact s.aluFrom16_error h op r
  · rw [State.value16_mask, State.aluPut16_mask]

/-! ### Instructions -/

theorem passBy_blind (i : Instr) : OutcomeBlind (passBy i) :=
  fun s z d => ⟨_, z, rfl, congrArg _ (s.retire_mask z d i _), .inr ⟨rfl, rfl⟩⟩

theorem takeBranch_blind (i : Instr) (disp : Byte) : OutcomeBlind (takeBranch i disp) := by
  intro s z d
  by_cases ht : 0 ≤ s.branchTarget disp ∧ s.branchTarget disp ≤ s.inputs.buf.length
  · exact ⟨_, z, if_pos ht, (if_pos ht).trans (congrArg _ (s.retire_mask z d i _)), .inr ⟨rfl, rfl⟩⟩
  · exact ⟨_, z, if_neg ht, if_neg ht, .inr ⟨rfl, rfl⟩⟩

/-- An instruction whose effect is blind is blind: fault entry and completion show neither ZF nor DUMP. -/
theorem perform_blind {i : Instr} {effect : State → Except FaultKind State} (h : EffectBlind effect)
    (hx : exec i = perform i effect) : OutcomeBlind (exec i) := by
  rw [hx]
  intro s z d
  by_cases he : s.inputs.execute = true
  · have hmask : (s.mask z d).inputs.execute = true := he
    simp only [perform, if_pos he, if_pos hmask]
    rcases h s z d with ⟨k, hk, hk'⟩ | ⟨post, z', hp, hp', hz⟩
    · rw [hk, hk']
      exact ⟨_, z, rfl, rfl, .inr ⟨rfl, rfl⟩⟩
    · rw [hp, hp']
      exact ⟨_, z', rfl, congrArg Host.Outcome.next (post.retire_mask z' d i _), hz⟩
  · have hmask : ¬ (s.mask z d).inputs.execute = true := he
    simp only [perform, if_neg he, if_neg hmask]
    exact ⟨_, z, rfl, congrArg _ (s.retire_mask z d i _), .inr ⟨rfl, rfl⟩⟩

/-- Every instruction but JNE is blind: an effect of the shared operations, or a branch that passes by. -/
theorem exec_blind {i : Instr} (hj : ∀ d, i ≠ .jne d) : OutcomeBlind (exec i) := by
  cases i.byForm with
  | branch op d =>
    have hop : op ≠ .jne := by
      rintro rfl
      exact hj d rfl
    have hx : exec (op.instr d) = passBy (op.instr d) := by
      funext s
      rw [exec_branch, if_neg fun h => hop h.1]
    rw [hx]
    exact passBy_blind _
  | movRmImm8 o v => exact perform_blind (.writeRm8 o (v := fun _ => v) fun _ _ _ => rfl) rfl
  | movRmImm16 o v => exact perform_blind (.writeRm16 o (v := fun _ => v) fun _ _ _ => rfl) rfl
  | accImm8 op v =>
    exact perform_blind (.alu8 op (.reg .al) (v := fun _ => v) fun _ _ _ => rfl) (by cases op <;> rfl)
  | accImm16 op v =>
    exact perform_blind (.alu16 op (.reg .ax) (v := fun _ => v) fun _ _ _ => rfl) (by cases op <;> rfl)
  | movRmReg8 d o r =>
    cases d with
    | true => exact perform_blind (.load8 r o) rfl
    | false => exact perform_blind (.writeRm8 o (v := fun s => s.r8 r) fun _ _ _ => rfl) rfl
  | movRmReg16 d o r =>
    cases d with
    | true => exact perform_blind (.load16 r o) rfl
    | false => exact perform_blind (.writeRm16 o (v := fun s => s.r16 r) fun _ _ _ => rfl) rfl
  | rmImm8 op s o v =>
    exact perform_blind (.alu8 op o (v := fun _ => v) fun _ _ _ => rfl) (by cases op <;> cases s <;> rfl)
  | rmImm16 op o v => exact perform_blind (.alu16 op o (v := fun _ => v) fun _ _ _ => rfl) (by cases op <;> rfl)
  | rmSImm8 op o v =>
    exact perform_blind (.alu16 op o (v := fun _ => signExtendImm v) fun _ _ _ => rfl) (by cases op <;> rfl)
  | movRegImm8 r v => exact perform_blind (.writeRm8 (.reg r) (v := fun _ => v) fun _ _ _ => rfl) rfl
  | movRegImm16 r v => exact perform_blind (.writeRm16 (.reg r) (v := fun _ => v) fun _ _ _ => rfl) rfl
  | rmReg8 op d o r =>
    cases d with
    | true => exact perform_blind (.aluFrom8 op r o) (by cases op <;> rfl)
    | false => exact perform_blind (.alu8 op o (v := fun s => s.r8 r) fun _ _ _ => rfl) (by cases op <;> rfl)
  | rmReg16 op d o r =>
    cases d with
    | true => exact perform_blind (.aluFrom16 op r o) (by cases op <;> rfl)
    | false => exact perform_blind (.alu16 op o (v := fun s => s.r16 r) fun _ _ _ => rfl) (by cases op <;> rfl)

/-- Settles O43: an instruction but JNE is blind to ZF, with DUMP replaced by itself. -/
theorem onlyJneReadsTheZeroFlag : Obligations.OnlyJneReadsTheZeroFlag := by
  intro i s t b hj h
  obtain ⟨t', z', ht, hmask, hz⟩ := exec_blind hj s b s.inputs.dump
  cases ht.symm.trans h
  have hdump : s.inputs.dump = t.inputs.dump := by rw [exec_inputs h]
  rw [State.mask_dump, hdump, State.mask_dump] at hmask
  rcases hz with rfl | ⟨rfl, hz⟩
  · exact .inl hmask
  · exact .inr ⟨hz, hmask⟩

/-! ### DUMP (45_engine_and_listing.md R315) -/

/-- The state with DUMP replaced. -/
def State.withDump (s : State) (d : Bool) : State := { s with inputs := { s.inputs with dump := d } }

/-- What is blind to ZF and DUMP is blind to DUMP alone. -/
theorem OutcomeBlind.withDump {f : State → Outcome} (hf : OutcomeBlind f) {s t : State} (h : f s = .next t) (d : Bool) :
    f (s.withDump d) = .next (t.withDump d) := by
  obtain ⟨t', z', ht, hmask, hz⟩ := hf s s.zf d
  cases ht.symm.trans h
  have hz' : z' = t.zf := hz.elim id fun hz => hz.1.trans hz.2.symm
  subst hz'
  exact hmask

/-- No instruction reads DUMP; JNE reads ZF and the mode, which stay, and then passes by or jumps. -/
theorem exec_withDump {i : Instr} {s t : State} (h : exec i s = .next t) (d : Bool) :
    exec i (s.withDump d) = .next (t.withDump d) := by
  by_cases hj : ∃ disp, i = .jne disp
  · obtain ⟨disp, rfl⟩ := hj
    by_cases hc : s.inputs.execute = true ∧ s.zf = false
    · rw [exec_jne_taken disp hc] at h
      exact (exec_jne_taken (s := s.withDump d) disp hc).trans ((takeBranch_blind _ _).withDump h d)
    · rw [exec_jne_not_taken disp hc] at h
      exact (exec_jne_not_taken (s := s.withDump d) disp hc).trans ((passBy_blind _).withDump h d)
  · exact (exec_blind fun disp hi => hj ⟨disp, hi⟩).withDump h d

/-! ### Runs (45_engine_and_listing.md R300, R301) -/

/-- A running machine has a step. -/
theorem exists_step_of_running {s : State} (hs : s.status = .running) : ∃ t, step s = .next t := by
  rcases Nat.lt_or_ge s.ip s.inputs.buf.length with hi | hi
  · cases hd : decode (s.inputs.buf.drop s.ip) with
    | ok r =>
      obtain ⟨t, ht, -⟩ := everyInstructionHasANextState r.1 s
      exact ⟨t, (step_of_decode hs hi hd).trans ht⟩
    | error e => exact ⟨_, step_of_verdict hs hi hd⟩
  · exact ⟨_, step_at_end_eq hs hi⟩

theorem run_succ {s t : State} (h : step s = .next t) (n : Nat) : run (n + 1) s = run n t := by
  rw [run, h]

/-- A run from a state whose run has ended stays there. -/
theorem run_of_ended {s : State} (hs : s.status ≠ .running) (n : Nat) : run n s = s := by
  cases n with
  | zero => rfl
  | succ n => rw [run, endedRunsTakeNoStep s hs]

/-- No step reads DUMP. -/
theorem step_withDump {s t : State} (h : step s = .next t) (d : Bool) : step (s.withDump d) = .next (t.withDump d) := by
  cases step_cases h with
  | ended hs hi ht =>
    rw [ht, step_at_end_eq (s := s.withDump d) hs hi, State.endRun_eq, State.endRun_eq]
    rfl
  | ran i rest hs hi hd ht => exact (step_of_decode (s := s.withDump d) hs hi hd).trans (exec_withDump ht d)
  | skipped hs hi hd hk ht =>
    rw [ht, step_of_verdict (s := s.withDump d) hs hi hd, State.rejectBytes, if_pos ⟨rfl, hk⟩]
    rfl
  | rejected e hs hi hd hk ht =>
    have hrej : ¬ (e = .unrecognizedOpcode ∧ (s.withDump d).inputs.skipUnrecognized = true) :=
      fun ⟨he, hk'⟩ => Bool.false_ne_true ((hk he).symm.trans hk')
    rw [ht, step_of_verdict (s := s.withDump d) hs hi hd, State.rejectBytes, if_neg hrej]
    rfl

/-- Settles O51: step by step, the run with DUMP replaced is the run. -/
theorem dumpChangesNothing : Obligations.DumpChangesNothing := by
  intro s b n
  change run n (s.withDump b) = (run n s).withDump b
  induction n generalizing s with
  | zero => rfl
  | succ n ih =>
    by_cases hs : s.status = .running
    · obtain ⟨t, ht⟩ := exists_step_of_running hs
      rw [run_succ (step_withDump ht b), run_succ ht, ih]
    · rw [run_of_ended (s := s.withDump b) hs, run_of_ended hs]

end Sys2Proof.Machine

/-! PROOFS. 45_engine_and_listing.md R302, R304, R315: decode-only runs. -/

namespace Sys2Proof.Machine

/-! ### Two decode-only runs on the same buffer (R315) -/

/-- Two states in decode-only mode that agree in what a decode-only run reads: the buffer, `SKIP_UNRECOGNIZED`,
cursor, listing and status. -/
structure Alike (s u : State) : Prop where
  modeLeft : s.inputs.execute = false
  modeRight : u.inputs.execute = false
  buf : s.inputs.buf = u.inputs.buf
  skip : s.inputs.skipUnrecognized = u.inputs.skipUnrecognized
  ip : s.ip = u.ip
  listing : s.listing = u.listing
  status : s.status = u.status

/-- The line of decode-only mode shows the instruction alone. -/
theorem render_decodeOnly {s : State} (he : s.inputs.execute = false) (i : Instr) :
    render i s = plainLine false (recordOf i) := if_neg (by simp [he])

theorem State.endRun_decodeOnly {s : State} (he : s.inputs.execute = false) : s.endRun = s.setStatus .done :=
  if_neg (by simp [he])

/-- Alike states step to the same cursor, listing and status. -/
theorem Alike.step_same {s u t v : State} (h : Alike s u) (hs : step s = .next t) (hu : step u = .next v) :
    t.ip = v.ip ∧ t.listing = v.listing ∧ t.status = v.status := by
  have hrun (hr : s.status = .running) : u.status = .running := h.status.symm.trans hr
  have hin (hi : s.ip < s.inputs.buf.length) : u.ip < u.inputs.buf.length := by rwa [← h.buf, ← h.ip]
  have hdrop : u.inputs.buf.drop u.ip = s.inputs.buf.drop s.ip := by rw [← h.buf, ← h.ip]
  cases step_cases hs with
  | ended hr hi ht =>
    cases (step_at_end_eq (hrun hr) (by rwa [← h.buf, ← h.ip])).symm.trans hu
    rw [ht, State.endRun_decodeOnly h.modeLeft, State.endRun_decodeOnly h.modeRight]
    exact ⟨h.ip, h.listing, rfl⟩
  | ran i rest hr hi hd ht =>
    rw [exec_decodeOnly h.modeLeft] at ht
    rw [step_of_decode (hrun hr) (hin hi) (hdrop ▸ hd), exec_decodeOnly h.modeRight] at hu
    cases ht
    cases hu
    refine ⟨congrArg (· + i.length) h.ip, ?_, h.status⟩
    rw [State.retire_listing, State.retire_listing, render_decodeOnly h.modeLeft, render_decodeOnly h.modeRight,
      h.listing]
  | skipped hr hi hd hk ht =>
    rw [step_of_verdict (hrun hr) (hin hi) (hdrop ▸ hd), State.rejectBytes, if_pos ⟨rfl, h.skip ▸ hk⟩] at hu
    cases hu
    subst ht
    exact ⟨congrArg (· + 2) h.ip, h.listing, h.status⟩
  | rejected e hr hi hd hk ht =>
    have hrej : ¬ (e = .unrecognizedOpcode ∧ u.inputs.skipUnrecognized = true) := by
      rintro ⟨he, hk'⟩
      simp [← h.skip, hk he] at hk'
    rw [step_of_verdict (hrun hr) (hin hi) (hdrop ▸ hd), State.rejectBytes, if_neg hrej] at hu
    cases hu
    subst ht
    exact ⟨h.ip, h.listing, congrArg (Status.fault _) h.ip⟩

/-- Alike states step to alike states. -/
theorem Alike.step {s u t v : State} (h : Alike s u) (hs : step s = .next t) (hu : step u = .next v) : Alike t v := by
  obtain ⟨hip, hlisting, hstatus⟩ := h.step_same hs hu
  have ht := step_inputs hs
  have hv := step_inputs hu
  exact ⟨ht ▸ h.modeLeft, hv ▸ h.modeRight, by rw [ht, hv, h.buf], by rw [ht, hv, h.skip], hip, hlisting, hstatus⟩

/-- Alike states run to alike states. -/
theorem Alike.run {s u : State} (h : Alike s u) (n : Nat) : Alike (run n s) (run n u) := by
  induction n generalizing s u with
  | zero => exact h
  | succ n ih =>
    by_cases hs : s.status = .running
    · obtain ⟨t, ht⟩ := exists_step_of_running hs
      obtain ⟨v, hv⟩ := exists_step_of_running (h.status ▸ hs)
      rw [run_succ ht, run_succ hv]
      exact ih (h.step ht hv)
    · rw [run_of_ended hs, run_of_ended (h.status ▸ hs)]
      exact h

/-- Settles O52: the two states are alike, and so are the ends of their runs. -/
theorem decodeOnlyRunsDependOnTheBufferOnly : Obligations.DecodeOnlyRunsDependOnTheBufferOnly := by
  intro s u n hs hu hbuf hskip hip hlisting hstatus
  have h : Alike s u := ⟨hs, hu, hbuf, hskip, hip, hlisting, hstatus⟩
  exact ⟨(h.run n).ip, (h.run n).listing, (h.run n).status⟩

/-! ### A decode-only run ends (R302, R304) -/

/-- An instruction has at least two bytes. -/
theorem two_le_length (i : Instr) : 2 ≤ i.length := by
  cases i <;> simp only [Instr.length] <;> omega

/-- A decode-only step that goes on running starts inside the buffer and moves the cursor by at least 2. -/
theorem decodeOnly_step_advances {s t : State} (he : s.inputs.execute = false) (h : step s = .next t)
    (hr : t.status = .running) : s.ip < s.inputs.buf.length ∧ s.ip + 2 ≤ t.ip := by
  cases step_cases h with
  | ended _ _ ht =>
    rw [ht, State.endRun_decodeOnly he] at hr
    cases hr
  | ran i _ _ hi _ ht =>
    rw [exec_decodeOnly he] at ht
    cases ht
    exact ⟨hi, Nat.add_le_add_left (two_le_length i) _⟩
  | skipped _ hi _ _ ht => exact ⟨hi, ht ▸ Nat.le_refl _⟩
  | rejected e _ _ _ _ ht =>
    rw [ht] at hr
    cases hr

/-- Settles O53: by induction on the steps, each of which ends the run or moves the cursor by 2. -/
theorem decodeOnlyRunsEnd : Obligations.DecodeOnlyRunsEnd := by
  intro s n he hn hN
  induction n generalizing s with
  | zero => cases hn
  | succ n ih =>
    by_cases hs : s.status = .running
    · obtain ⟨t, ht⟩ := exists_step_of_running hs
      rw [run_succ ht]
      by_cases hr : t.status = .running
      · obtain ⟨hi, hip⟩ := decodeOnly_step_advances he ht hr
        have hin := step_inputs ht
        exact ih t (by rw [hin, he]) (by omega) (by rw [hin]; omega)
      · rwa [run_of_ended hr]
    · rwa [run_of_ended hs]

end Sys2Proof.Machine

/-! PROOFS. 00_scope.md R16, 30_encoding.md R130 to R142, 45_engine_and_listing.md R306 to R308: numerals, the texts
of operands and records, and the lines. -/

namespace Sys2Proof.Machine

/-! ### Numerals (00_scope.md R16) -/

/-- The digit that a character stands for: its place after `0`, or 10 and its place after `a`. -/
def digitOf (c : Char) : Nat := if c.toNat < 58 then c.toNat - 48 else c.toNat - 87

/-- The number that digits in the base spell, most significant first, as the obligation reads it. -/
def readDigits (base : Nat) (text : Text) : Nat := text.foldl (fun n c => n * base + digitOf c) 0

theorem digitOf_digitChar {d : Nat} (h : d < 16) : digitOf (digitChar d) = d := by
  revert d; decide

theorem digitChar_ne_zero {d : Nat} (h : d < 16) (hd : d ≠ 0) : digitChar d ≠ '0' := by
  revert d; decide

theorem digitChar_ne_newline {d : Nat} (h : d < 16) : digitChar d ≠ '\n' := by
  revert d; decide

theorem digitChar_decimal {d : Nat} (h : d < 10) : '0' ≤ digitChar d ∧ digitChar d ≤ '9' := by
  revert d; decide

theorem digitChar_hexadecimal {d : Nat} (h : d < 16) :
    ('0' ≤ digitChar d ∧ digitChar d ≤ '9') ∨ ('a' ≤ digitChar d ∧ digitChar d ≤ 'f') := by
  revert d; decide

theorem readDigits_append (base : Nat) (text : Text) (c : Char) :
    readDigits base (text ++ [c]) = readDigits base text * base + digitOf c := by
  simp [readDigits]

section
variable {base : Nat} (h2 : 2 ≤ base)
include h2

/-- The number without its last digit needs less fuel. -/
theorem div_lt_fuel {fuel n : Nat} (hn : n < fuel + 1) (hb : ¬ n < base) : n / base < fuel :=
  lt_of_lt_of_le (Nat.div_lt_self (by omega) h2) (Nat.le_of_lt_succ hn)

/-- A digit of a numeral stands for a number below the base. -/
theorem mem_digits {fuel n : Nat} {c : Char} (h : c ∈ digits base fuel n) : ∃ d < base, c = digitChar d := by
  induction fuel generalizing n with
  | zero => cases h
  | succ fuel ih =>
    rw [digits] at h
    split_ifs at h with hb
    · exact ⟨n, hb, List.mem_singleton.1 h⟩
    · rcases List.mem_append.1 h with h | h
      · exact ih h
      · exact ⟨n % base, Nat.mod_lt _ (by omega), List.mem_singleton.1 h⟩

variable (h16 : base ≤ 16)
include h16

/-- With enough fuel a numeral reads back to its number. -/
theorem readDigits_digits {fuel n : Nat} (hn : n < fuel) : readDigits base (digits base fuel n) = n := by
  induction fuel generalizing n with
  | zero => cases hn
  | succ fuel ih =>
    rw [digits]
    split_ifs with hb
    · exact (readDigits_append base [] _).trans (by rw [digitOf_digitChar (by omega)]; simp [readDigits])
    · have hlast : n % base < base := Nat.mod_lt _ (by omega)
      rw [readDigits_append, ih (div_lt_fuel h2 hn hb), digitOf_digitChar (by omega), Nat.div_add_mod']

/-- With enough fuel the numeral of a number other than 0 does not begin with 0. -/
theorem digits_eq_cons_of_ne_zero {fuel n : Nat} (hn : n < fuel) (h0 : n ≠ 0) :
    ∃ c text, digits base fuel n = c :: text ∧ c ≠ '0' := by
  induction fuel generalizing n with
  | zero => cases hn
  | succ fuel ih =>
    rw [digits]
    split_ifs with hb
    · exact ⟨_, [], rfl, digitChar_ne_zero (by omega) h0⟩
    · have hdiv : n / base ≠ 0 := by
        rw [Nat.div_ne_zero_iff]
        omega
      obtain ⟨c, text, hc, hne⟩ := ih (div_lt_fuel h2 hn hb) hdiv
      exact ⟨c, _, by rw [hc, List.cons_append], hne⟩

end

theorem dec_natCast (n : Nat) : dec n = decNat n := by
  rw [dec, if_neg (by omega), Int.natAbs_natCast]

theorem dec_neg_natCast {n : Nat} (h : n ≠ 0) : dec (-n) = '-' :: decNat n := by
  rw [dec, if_pos (by omega), Int.natAbs_neg, Int.natAbs_natCast]

/-- Settles O57: both spellings are numerals with enough fuel, in the bases 10 and 16. -/
theorem numeralsReadBack : Obligations.NumeralsReadBack := by
  refine ⟨fun n => ⟨?_, fun c hc => ?_, fun h0 => ?_, dec_natCast n, dec_neg_natCast⟩,
    fun n => ⟨digits 16 (n + 1) n, rfl, ?_, fun c hc => ?_, fun h0 => ?_⟩, by decide, by decide⟩
  · exact readDigits_digits (by decide) (by decide) (Nat.lt_succ_self n)
  · obtain ⟨d, hd, rfl⟩ := mem_digits (by decide) hc
    exact digitChar_decimal hd
  · obtain ⟨c, text, hc, hne⟩ := digits_eq_cons_of_ne_zero (base := 10) (by decide) (by decide) (Nat.lt_succ_self n) h0
    rw [decNat, hc]
    simpa using hne
  · exact readDigits_digits (by decide) (by decide) (Nat.lt_succ_self n)
  · obtain ⟨d, hd, rfl⟩ := mem_digits (by decide) hc
    exact digitChar_hexadecimal hd
  · obtain ⟨c, text, hc, hne⟩ := digits_eq_cons_of_ne_zero (base := 16) (by decide) (by decide) (Nat.lt_succ_self n) h0
    rw [hc]
    simpa using hne

/-! ### Texts of operands and records (30_encoding.md R130 to R140) -/

/-- Settles O60: the tables are written out; immediates are their signed values, which sign extension keeps. -/
theorem operandTextsAndRecords : Obligations.OperandTextsAndRecords := by
  refine ⟨by decide, fun _ _ => rfl, fun _ => rfl, fun v => by rw [← toInt_byte]; rfl,
    fun v => by rw [← toInt_word]; rfl, fun v => ?_, by decide, fun _ _ => ⟨rfl, rfl⟩, fun _ _ => ⟨rfl, rfl⟩,
    fun o8 o16 r8 r16 v8 v16 => ?_, fun d => ?_⟩
  · exact congrArg dec (BitVec.toInt_signExtend_of_le (by decide))
  · and_intros <;> rfl
  · and_intros <;> rfl

/-- Whether an operand of the record is an immediate. -/
def Operand.isImm : Operand → Bool
  | .imm8 _ => true
  | .imm16 _ => true
  | .reg8 _ => false
  | .reg16 _ => false
  | .mem _ _ => false

/-- The destination of a record: a register, or memory of one or two bytes, with its size shown exactly for an
immediate source. -/
inductive DestinationCase : Operand → Operand → Bool → Prop
  | reg8 (r : Reg8) (src : Operand) (pre : Bool) : DestinationCase (.reg8 r) src pre
  | reg16 (r : Reg16) (src : Operand) (pre : Bool) : DestinationCase (.reg16 r) src pre
  | byte (m : MemOp) (src : Operand) : DestinationCase (.mem 1 m) src src.isImm
  | word (m : MemOp) (src : Operand) : DestinationCase (.mem 2 m) src src.isImm

theorem DestinationCase.of_rm8 (o : RM Reg8) (src : Operand) : DestinationCase (operandOfRm8 o) src src.isImm := by
  cases o with
  | reg r => exact .reg8 r src _
  | mem m => exact .byte m src

theorem DestinationCase.of_rm16 (o : RM Reg16) (src : Operand) : DestinationCase (operandOfRm16 o) src src.isImm := by
  cases o with
  | reg r => exact .reg16 r src _
  | mem m => exact .word m src

/-- The destination of every two-operand record is one of the four. -/
theorem destination_cases {i : Instr} {f : Family} {dst src : Operand} {pre : Bool}
    (h : recordOf i = .twoOperand f dst src pre) : DestinationCase dst src pre := by
  cases i.byForm with
  | branch op d => rw [BranchOp.recordOf_instr] at h; cases h
  | movRmImm8 o v => cases h; exact .of_rm8 o (.imm8 v)
  | movRmImm16 o v => cases h; exact .of_rm16 o (.imm16 v)
  | accImm8 op v => cases op <;> cases h <;> exact .reg8 _ _ _
  | accImm16 op v => cases op <;> cases h <;> exact .reg16 _ _ _
  | movRmReg8 d o r =>
    cases d <;> cases h
    · exact .of_rm8 o (.reg8 r)
    · exact .reg8 _ _ _
  | movRmReg16 d o r =>
    cases d <;> cases h
    · exact .of_rm16 o (.reg16 r)
    · exact .reg16 _ _ _
  | rmImm8 op s o v => cases op <;> cases s <;> cases h <;> exact .of_rm8 o (.imm8 v)
  | rmImm16 op o v => cases op <;> cases h <;> exact .of_rm16 o (.imm16 v)
  | rmSImm8 op o v => cases op <;> cases h <;> exact .of_rm16 o (.imm16 (v.signExtend 16))
  | movRegImm8 r v => cases h; exact .reg8 _ _ _
  | movRegImm16 r v => cases h; exact .reg16 _ _ _
  | rmReg8 op d o r =>
    cases d
    · cases op <;> cases h <;> exact .of_rm8 o (.reg8 r)
    · cases op <;> cases h <;> exact .reg8 _ _ _
  | rmReg16 op d o r =>
    cases d
    · cases op <;> cases h <;> exact .of_rm16 o (.reg16 r)
    · cases op <;> cases h <;> exact .reg16 _ _ _

/-! ### Lines (30_encoding.md R136, R137, R139, 45_engine_and_listing.md R308) -/

/-- Settles O59: the destination is a register, which shows no size, or memory, which shows it for an immediate
source. -/
theorem sizePrefixOnlyOnImmediateToMemory : Obligations.SizePrefixOnlyOnImmediateToMemory := by
  intro i execute f dst src pre h
  rw [h]
  cases destination_cases h with
  | reg8 r => exact ⟨nofun, fun _ => by rw [plainLine, sizePrefixText, List.append_nil]; rfl⟩
  | reg16 r => exact ⟨nofun, fun _ => by rw [plainLine, sizePrefixText, List.append_nil]; rfl⟩
  | byte m =>
    refine ⟨fun n m' hd => ?_, fun hd => absurd rfl (hd 1 m)⟩
    cases hd
    exact ⟨.inl rfl, by cases src <;> rfl⟩
  | word m =>
    refine ⟨fun n m' hd => ?_, fun hd => absurd rfl (hd 2 m)⟩
    cases hd
    exact ⟨.inr rfl, by cases src <;> rfl⟩

/-- What the suffix shows: the arrow, the name and the value (45_engine_and_listing.md R308). -/
theorem valueText_eq (name : Text) (v : Nat) : valueText name v = " => ".toList ++ name ++ " ".toList ++ hex v := rfl

/-- Settles O58: the line of execute mode is the plain line and the suffix of the record; an immediate is no
destination. -/
theorem executeModeLinesShowTheDestination : Obligations.ExecuteModeLinesShowTheDestination := by
  intro i post he
  have hline : render i post = plainLine true (recordOf i) ++ suffix post (recordOf i) := if_pos he
  rw [hline]
  refine ⟨fun f r src pre h => ?_, fun f r src pre h => ?_, fun f n m src pre h => ?_, fun op d h => ?_,
    fun f v src pre h => ?_, fun f v src pre h => ?_⟩
  · simp only [h, suffix, valueText_eq, List.append_assoc]
    rfl
  · simp only [h, suffix, valueText_eq, List.append_assoc]
    rfl
  · rw [h]
    exact List.append_nil _
  · simp only [h, suffix, List.append_nil, plainLine, branchShown, true_and]
    rfl
  · cases destination_cases h
  · cases destination_cases h

/-! ### A line holds no newline (45_engine_and_listing.md R306) -/

theorem newline_notMem_digits {base : Nat} (h2 : 2 ≤ base) (h16 : base ≤ 16) (fuel n : Nat) :
    '\n' ∉ digits base fuel n := by
  intro h
  obtain ⟨d, hd, hc⟩ := mem_digits h2 h
  exact digitChar_ne_newline (by omega) hc.symm

@[simp] theorem newline_notMem_dec (x : Int) : '\n' ∉ dec x := by
  have h : '\n' ∉ decNat x.natAbs := newline_notMem_digits (by decide) (by decide) _ _
  rw [dec]
  split_ifs
  · simp [h]
  · exact h

@[simp] theorem newline_notMem_hex (v : Nat) : '\n' ∉ hex v := by
  simp [hex, newline_notMem_digits]

@[simp] theorem newline_notMem_nameOf16 (r : Reg16) : '\n' ∉ nameOf16 r := by cases r <;> decide

@[simp] theorem newline_notMem_nameOf8 (r : Reg8) : '\n' ∉ nameOf8 r := by cases r <;> decide

@[simp] theorem newline_notMem_baseIndexText (b : BaseIndex) : '\n' ∉ baseIndexText b := by cases b <;> decide

@[simp] theorem newline_notMem_branchName (op : BranchOp) : '\n' ∉ branchName op := by cases op <;> decide

@[simp] theorem newline_notMem_familyName (f : Family) : '\n' ∉ familyName f := by cases f <;> decide

@[simp] theorem newline_notMem_signedText (x : Int) : '\n' ∉ signedText x := by
  rw [signedText]
  split_ifs <;> simp

@[simp] theorem newline_notMem_memText (m : MemOp) : '\n' ∉ memText m := by
  cases m with
  | plain b => simp [memText]
  | direct a => simp [memText]
  | disp8 b d =>
    have : '\n' ∉ disp8Text d := by
      rw [disp8Text]
      split_ifs <;> simp
    simp [memText, this]
  | disp16 b d => simp [memText, disp16Text]

@[simp] theorem newline_notMem_operandText (o : Operand) : '\n' ∉ operandText o := by
  cases o <;> simp [operandText]

@[simp] theorem newline_notMem_sizePrefixText (pre : Bool) (o : Operand) : '\n' ∉ sizePrefixText pre o := by
  cases o with
  | mem n m =>
    rw [sizePrefixText]
    split_ifs <;> simp
  | _ => exact List.not_mem_nil

@[simp] theorem newline_notMem_plainLine (execute : Bool) (r : Record) : '\n' ∉ plainLine execute r := by
  cases r <;> simp [plainLine]

@[simp] theorem newline_notMem_suffix (post : State) (r : Record) : '\n' ∉ suffix post r := by
  cases r with
  | branch op d => exact List.not_mem_nil
  | twoOperand f dst src pre => cases dst <;> simp [suffix, valueText_eq]

theorem newline_notMem_render (i : Instr) (post : State) : '\n' ∉ render i post := by
  rw [render]
  split_ifs <;> simp

/-- Settles O47: a completed instruction appends its line; a fault of an instruction, a skip and a verdict of the
decoder append nothing. -/
theorem listingGrowsByOneLine : Obligations.ListingGrowsByOneLine := by
  intro s t hs hi h
  cases step_cases h with
  | ended _ hN _ => exact absurd hi (Nat.not_lt.2 hN)
  | ran i rest _ _ hd ht =>
    rcases exec_raises_or_completes ht with ⟨k, rfl⟩ | ⟨p, hc, -⟩
    · rw [if_neg (by simp)]
      rfl
    · rw [if_pos ⟨hc.status.trans hs, by rw [hd]; rfl⟩]
      exact ⟨render i t, newline_notMem_render i t, hc.listing⟩
  | skipped _ _ hd _ ht =>
    rw [if_neg (by simp [hd, Except.isOk, Except.toBool]), ht]
    rfl
  | rejected e _ _ hd _ ht =>
    rw [if_neg (by simp [hd, Except.isOk, Except.toBool]), ht]
    rfl

end Sys2Proof.Machine
